-- ==== Sys2Proof/Word.lean ====
section
/-! DEFINITION. The word types of the audio core (00_scope.md R10, R11, R12, R13). Only values the
spec treats as words of bits are bit vectors; sizes and counts of configuration are numbers. -/

namespace Sys2Proof

/-- A byte of a command, an event or a payload (`u8`, R11). -/
abbrev Byte := BitVec 8

/-- A 32-bit word: header and argument words, timestamps, the saturating counters (`u32`, R11). -/
abbrev U32 := BitVec 32

/-- One PCM16 sample, two's complement (`i16`, R11, R57). -/
abbrev Sample := BitVec 16

/-- A finite list of samples (`Frame`, R12). -/
abbrev Frame := List Sample

/-- An IEEE 754 binary32 datum, as its bit pattern (R13). -/
abbrev F32 := BitVec 32

/-- An IEEE 754 binary64 datum, as its bit pattern (R13). -/
abbrev F64 := BitVec 64

end Sys2Proof
end

