-- ==== Sys2Proof/Config.lean ====
section
/-! DEFINITION. What an implementation fixes: the configuration constants of R7, and the parameters
the spec leaves OPEN, which are opaque constants that nothing can evaluate (00_scope.md R7, R19;
41_codecs.md R280; 92_eei_decisions.md, Parameters left open). -/

namespace Sys2Proof

/-- The supported sample rates (R9). -/
inductive Rate where
  | r8000 | r16000 | r24000 | r48000
  deriving DecidableEq, Repr

/-- The codecs 1 to 4 of R8. The identifier 0, NONE, is `none` in `Option Codec`. -/
inductive Codec where
  | pcmu | pcma | g722 | opus
  deriving DecidableEq, Repr

/-- Which function TANH32 is (R19). -/
inductive TanhChoice where
  /-- The reference: the binary32 value nearest to the mathematical tanh (R19; the default of R7). -/
  | reference
  /-- Any other function with the properties R19 states: a free one. -/
  | free
  deriving DecidableEq, Repr

/-- The configuration constants of R7, with the defaults of its table. No command changes them. -/
structure Params where
  /-- TARGET_RATE -/
  targetRate : Rate := .r16000
  /-- JB_PRIME_DEPTH, 3..12 -/
  jbPrimeDepth : Nat := 3
  /-- JB_PLC_MAX, 1 or 2 -/
  jbPlcMax : Nat := 2
  /-- JB_PLC_GAIN, 0.92 -/
  jbPlcGain : F32 := 0x3F6B851F#32
  /-- JB_CAP, at least JB_PRIME_DEPTH -/
  jbCap : Nat := 64
  /-- DC_ALPHA, 0.995 -/
  dcAlpha : F32 := 0x3F7EB852#32
  /-- PRE_BETA, 0.97 -/
  preBeta : F32 := 0x3F7851EC#32
  /-- GATE_OPEN, 200.0 -/
  gateOpen : F32 := 0x43480000#32
  /-- GATE_CLOSE, 100.0 -/
  gateClose : F32 := 0x42C80000#32
  /-- GATE_HOLD, at least 1 -/
  gateHold : Nat := 10
  /-- AGC_TARGET, 3000.0 -/
  agcTarget : F32 := 0x453B8000#32
  /-- AGC_MIN, 0.5 -/
  agcMin : F32 := 0x3F000000#32
  /-- AGC_MAX, 4.0 -/
  agcMax : F32 := 0x40800000#32
  /-- AGC_RMS_COEF, 0.9 -/
  agcRmsCoef : F32 := 0x3F666666#32
  /-- AGC_STEP, 0.05 -/
  agcStep : F32 := 0x3D4CCCCD#32
  /-- ING_CEIL, 32000.0 -/
  ingCeil : F32 := 0x46FA0000#32
  /-- IIR_CUTOFF_FRACTION, 0.9: its type is f64, so its default is the nearest binary64 value (log 20,
  DEDUCED, safe) -/
  iirCutoff : F64 := 0x3FECCCCCCCCCCCCD#64
  /-- FADE_IN_LEN, at least 1 -/
  fadeInLen : Nat := 80
  /-- LIM_T, 24000.0 -/
  limT : F32 := 0x46BB8000#32
  /-- LIM_C, 30000.0 -/
  limC : F32 := 0x46EA6000#32
  /-- LIM_ATTACK, 0.5 -/
  limAttack : F32 := 0x3F000000#32
  /-- LIM_RELEASE, 0.01 -/
  limRelease : F32 := 0x3C23D70A#32
  /-- XFADE_LEN, 1..160 -/
  xfadeLen : Nat := 32
  /-- SIL_RAMP_LEN, at least 1 -/
  silRampLen : Nat := 32
  /-- EGR_QUEUE_CAP, at least 5 -/
  egrQueueCap : Nat := 1000
  /-- EGR_PRIME_NB, at least 1 -/
  egrPrimeNb : Nat := 3
  /-- EGR_PRIME_WB, at least 1 -/
  egrPrimeWb : Nat := 5
  /-- UNDERRUN_INTERP -/
  underrunInterp : Nat := 3
  /-- UNDERRUN_STEP, 0.25 -/
  underrunStep : F32 := 0x3E800000#32
  /-- JITTER_PRIMING_MODE -/
  jitterPrimingMode : Bool := true
  /-- OPUS_FAIL_LIMIT, at least 1 -/
  opusFailLimit : Nat := 10
  /-- TANH32 -/
  tanh : TanhChoice := .reference
  deriving DecidableEq, Repr

/-- The Opus decoder's library state: a token. Its type is a parameter of the model (R48), and any
countable type of library states has tokens (log 5, DESIGN CHOICE, safe). -/
structure OpusDecState where
  token : Nat
  deriving DecidableEq, Repr, Inhabited

/-- The Opus encoder's library state: a token (R48). -/
structure OpusEncState where
  token : Nat
  deriving DecidableEq, Repr, Inhabited

/-- A packet of at least one byte, as the Opus library hands it over (R280). -/
structure OpusPacket where
  first : Byte
  rest : List Byte
  deriving DecidableEq, Repr

/-- `OpusDecInit`: OPEN (R280). -/
opaque Config.opusDecInit : OpusDecState

/-- `OpusEncInit`: OPEN (R280). -/
opaque Config.opusEncInit : OpusEncState

/-- `OpusDecode`: OPEN (R280). `none` is Fail; the channel count is `Config.opusDecStereo`'s. -/
opaque Config.opusDecode : OpusDecState → List Byte → OpusDecState × Option Frame

/-- `OpusEncode`: OPEN (R280). `none` is Fail. -/
opaque Config.opusEncode : OpusEncState → Frame → OpusEncState × Option OpusPacket

/-- `OPUS_DEC_CHANNELS` is 2 (R7): OPEN. -/
opaque Config.opusDecStereo : Bool

/-- The function behind `TanhChoice.free` before R19's properties are imposed on it: OPEN (log 6,
DESIGN CHOICE, safe). -/
opaque Config.tanhFree : Nat → Nat

/-- The sign and payload of the quiet NaN that an invalid binary32 operation gives (log 4, DESIGN
CHOICE, safe). By R13 no value the rules admit reaches it; logs 18 and 19 name where one can. -/
opaque Config.nan32 : F32 → F32 → F32

/-- The sign and payload of the quiet NaN that an invalid binary64 operation gives (log 4, DESIGN
CHOICE, safe). -/
opaque Config.nan64 : F64 → F64 → F64

/-- Which operand `min` and `max` answer when one of them is a NaN: a free choice (log 4, DESIGN CHOICE,
safe). -/
opaque Config.minMaxNan : F32 → F32 → Bool

/-- The f32 elements of the state (R49, R50, R53, R57). -/
inductive F32Element where
  | dcEstimate | preemphasisPrev | rmsEstimate | agcGain | limiterGain | z1 | z2
  deriving DecidableEq, Repr

/-- The finite value, as its sign and its magnitude's bit pattern, that an f32 element holds where the
operations give an infinity or a NaN for it: a free value, of the element, the operands and that datum
(R57; logs 18 and 19, DESIGN CHOICE, safe). -/
opaque Config.finiteWrite : F32Element → List F32 → F32 → Bool × Fin 0x7F800000

end Sys2Proof
end

