-- ==== Sys2Proof/Syntax.lean ====
section
/-! DEFINITION. The instructions of the audio core: the eight host commands of 30_encoding.md R123,
one constructor for each row of spec/opcode_table.json. -/

namespace Sys2Proof

/-- A host command (R123). Operand fields and their widths: R124 to R127. -/
inductive Instr where
  /-- `CFG_CODEC pt, codec, rate` (R124, R201) -/
  | cfgCodec (pt : Byte) (codec : Byte) (rate : BitVec 24)
  /-- `RTP_IN pt, ts, payload` (R125, R202) -/
  | rtpIn (pt : Byte) (ts : U32) (payload : List Byte)
  /-- `ING_PULL` (R203) -/
  | ingPull
  /-- `EGR_ENQ payload` (R126, R204) -/
  | egrEnq (payload : List Byte)
  /-- `EGR_TICK` (R205) -/
  | egrTick
  /-- `FADE_RESET` (R206) -/
  | fadeReset
  /-- `EGR_CLEAR` (R207) -/
  | egrClear
  /-- `CALL_RESET` (R208) -/
  | callReset
  deriving DecidableEq, Repr

end Sys2Proof
end

