-- ==== Sys2Proof/WellFormed.lean ====
section
/-! DEFINITION. Which instructions have an encoding: a payload's length fits the 16-bit `len` field
(30_encoding.md R121, R125, R126). Every other operand is as wide as its field. -/

namespace Sys2Proof

/-- The longest payload, 65535 bytes (R121). -/
abbrev maxPayload : Nat := 65535

/-- The instruction has an encoding. -/
abbrev WellFormed (i : Instr) : Prop :=
  match i with
  | .cfgCodec _ _ _ => True
  | .rtpIn _ _ payload => payload.length ≤ maxPayload
  | .ingPull => True
  | .egrEnq payload => payload.length ≤ maxPayload
  | .egrTick => True
  | .fadeReset => True
  | .egrClear => True
  | .callReset => True

/-- `WellFormed` as a test. -/
def wellFormed (i : Instr) : Bool :=
  match i with
  | .cfgCodec _ _ _ => true
  | .rtpIn _ _ payload => decide (payload.length ≤ maxPayload)
  | .ingPull => true
  | .egrEnq payload => decide (payload.length ≤ maxPayload)
  | .egrTick => true
  | .fadeReset => true
  | .egrClear => true
  | .callReset => true

end Sys2Proof
end

