-- ==== Sys2Proof/Decode.lean ====
section
/-! DEFINITION. The byte form of commands (30_encoding.md R121 to R131): the decoder, total on any
bytes, and after it the encoder. -/

namespace Sys2Proof

/-! ## Bytes and words, little-endian (R92, R121) -/

/-- The 16-bit word whose bytes are, in stream order, `b0 b1`. -/
def word16 (b0 b1 : Byte) : BitVec 16 := b1 ++ b0

/-- The 32-bit word whose bytes are, in stream order, `b0 b1 b2 b3`. -/
def word32 (b0 b1 b2 b3 : Byte) : U32 := b3 ++ b2 ++ b1 ++ b0

/-- The bytes of a 16-bit word in stream order. -/
def bytes16 (w : BitVec 16) : List Byte := [w.extractLsb' 0 8, w.extractLsb' 8 8]

/-- The bytes of a 32-bit word in stream order. -/
def bytes32 (w : U32) : List Byte :=
  [w.extractLsb' 0 8, w.extractLsb' 8 8, w.extractLsb' 16 8, w.extractLsb' 24 8]

/-- The low `n` bytes of a number in stream order. -/
def lowBytes : Nat → Nat → List Byte
  | 0, _ => []
  | n + 1, w => BitVec.ofNat 8 w :: lowBytes n (w / 256)

/-- Whether a list has at least `n` elements, read no further than that. -/
def hasAtLeast {α : Type} : Nat → List α → Bool
  | 0, _ => true
  | _ + 1, [] => false
  | n + 1, _ :: t => hasAtLeast n t

/-! ## The header word (R121, R122) -/

/-- The header's three fields. -/
structure Header where
  op : Byte
  arg8 : Byte
  len : BitVec 16
  deriving DecidableEq, Repr

/-- The header word as a u32: `len`, `arg8`, `op` from the most significant bit down (R122). -/
def headerWord (h : Header) : U32 := h.len ++ h.arg8 ++ h.op

/-- The header at the front of a stream and the bytes after it. -/
def splitHeader : List Byte → Option (Header × List Byte)
  | b0 :: b1 :: b2 :: b3 :: rest => some (⟨b0, b1, word16 b2 b3⟩, rest)
  | _ => none

/-- The bytes of a header word in stream order (R121). -/
def headerBytes (h : Header) : List Byte := [h.op, h.arg8] ++ bytes16 h.len

/-- `A` of R129: the size of the argument word, present for the opcodes 0x01 and 0x02 only. -/
def argSize (op : Byte) : Nat := if op = 0x01#8 ∨ op = 0x02#8 then 4 else 0

/-- The bytes after the header word (R129). -/
def bodySize (h : Header) : Nat := argSize h.op + h.len.toNat

/-- The length of a command in bytes, malformed or not (R129). -/
def commandSize (h : Header) : Nat := 4 + bodySize h

/-! ## Malformed headers (R128) -/

/-- Why a header is malformed (R128); the names are the model's (log 16, DESIGN CHOICE, safe). -/
inductive Malformation where
  /-- opcode 0x00 or 0x09 to 0xFF -/
  | reservedOpcode
  /-- `arg8` must be 0 (F0 opcodes and EGR_ENQ) -/
  | nonzeroArg8
  /-- `len` must be 0 (F0 opcodes and CFG_CODEC) -/
  | nonzeroLen
  deriving DecidableEq, Repr

/-- The opcodes of format F0 (R123, R127). -/
def isF0 (op : Byte) : Bool :=
  op = 0x03#8 || op = 0x05#8 || op = 0x06#8 || op = 0x07#8 || op = 0x08#8

/-- The reserved opcodes (R123, R128). -/
def isReserved (op : Byte) : Bool := op = 0x00#8 || decide (0x09#8 ≤ op)

/-- The malformation of a header, if any (R128). -/
def malformation (h : Header) : Option Malformation :=
  if isReserved h.op then some .reservedOpcode
  else if (isF0 h.op || h.op = 0x04#8) && h.arg8 ≠ 0#8 then some .nonzeroArg8
  else if (isF0 h.op || h.op = 0x01#8) && h.len ≠ 0#16 then some .nonzeroLen
  else none

/-! ## The decoder -/

/-- What stands at the front of the command stream. -/
inductive Decoded where
  /-- Not all bytes of the command have arrived (R130). -/
  | incomplete
  /-- A malformed header, with its header word and the bytes it occupies (R128, R129). -/
  | malformed (why : Malformation) (hdr : U32) (size : Nat)
  /-- A command and the bytes it occupies. -/
  | command (i : Instr) (size : Nat)
  deriving DecidableEq, Repr

/-- The argument word at the front of a command's body, and the bytes after it (R121). -/
def splitArg : List Byte → U32 × List Byte
  | a0 :: a1 :: a2 :: a3 :: rest => (word32 a0 a1 a2 a3, rest)
  | rest => (0#32, rest)

/-- The command a well-formed header and its body stand for (R123 to R127). -/
def readCommand (h : Header) (body : List Byte) : Option Instr :=
  match h.op.toNat with
  | 1 => some (.cfgCodec h.arg8 ((splitArg body).1.extractLsb' 0 8) ((splitArg body).1.extractLsb' 8 24))
  | 2 => some (.rtpIn h.arg8 (splitArg body).1 ((splitArg body).2.take h.len.toNat))
  | 3 => some .ingPull
  | 4 => some (.egrEnq (body.take h.len.toNat))
  | 5 => some .egrTick
  | 6 => some .fadeReset
  | 7 => some .egrClear
  | 8 => some .callReset
  | _ => none

/-- The command at the front of a byte stream (R121 to R131). Every reserved encoding is rejected
by name. -/
def decode (stream : List Byte) : Decoded :=
  match splitHeader stream with
  | none => .incomplete
  | some (h, body) =>
    if hasAtLeast (bodySize h) body then
      match malformation h, readCommand h body with
      | some why, _ => .malformed why (headerWord h) (commandSize h)
      | none, some i => .command i (commandSize h)
      | none, none => .malformed .reservedOpcode (headerWord h) (commandSize h)
    else .incomplete

/-! ## The encoder (R122 to R127) -/

/-- The bytes of a command in stream order. -/
def encode (i : Instr) : List Byte :=
  match i with
  | .cfgCodec pt codec rate => headerBytes ⟨0x01#8, pt, 0#16⟩ ++ bytes32 (rate ++ codec)
  | .rtpIn pt ts payload => headerBytes ⟨0x02#8, pt, BitVec.ofNat 16 payload.length⟩ ++ bytes32 ts ++ payload
  | .ingPull => headerBytes ⟨0x03#8, 0#8, 0#16⟩
  | .egrEnq payload => headerBytes ⟨0x04#8, 0#8, BitVec.ofNat 16 payload.length⟩ ++ payload
  | .egrTick => headerBytes ⟨0x05#8, 0#8, 0#16⟩
  | .fadeReset => headerBytes ⟨0x06#8, 0#8, 0#16⟩
  | .egrClear => headerBytes ⟨0x07#8, 0#8, 0#16⟩
  | .callReset => headerBytes ⟨0x08#8, 0#8, 0#16⟩

/-! ## A row of the opcode table -/

/-- The stream of the one command whose low `nbits` bits are `w` and whose other bits are 0: bit 0
is the least significant bit of its first byte, and the length is the one its header gives (R129). -/
def tableStream (nbits w : Nat) : List Byte :=
  let given := lowBytes (nbits / 8) w ++ List.replicate (4 - nbits / 8) 0#8
  match splitHeader given with
  | none => given
  | some (h, body) => given ++ List.replicate (bodySize h - body.length) 0#8

/-- The instruction the decoder reads from the bits `w` of a row of the opcode table. -/
def decodeTableWord (nbits w : Nat) : Option Instr :=
  match decode (tableStream nbits w) with
  | .command i _ => some i
  | .malformed _ _ _ => none
  | .incomplete => none

end Sys2Proof
end

