-- ==== Sys2Proof/Machine/Float.lean ====
section
/-! DEFINITION. IEEE 754 binary32 and binary64 arithmetic, round to nearest, ties to even, one
rounding per operation (00_scope.md R12, R13, R20). Every finite value is a whole number of units,
the unit being the format's smallest subnormal (2^-149 or 2^-1074): an operation computes the exact
rational number of units and rounds it once (log 15, PRESUMED for the rules of IEEE 754 itself). -/

namespace Sys2Proof.Machine

/-! ## Formats -/

/-- A binary interchange format, by its numbers. -/
structure FloatFormat where
  /-- stored fraction bits -/
  mant : Nat
  /-- 1.0 is `2 ^ unit` units -/
  unit : Nat
  /-- the position of the sign bit -/
  sign : Nat
  /-- the bit pattern of +infinity -/
  inf : Nat
  deriving DecidableEq, Repr

/-- binary32 -/
def binary32 : FloatFormat := ⟨23, 149, 31, 0x7F800000⟩

/-- binary64 -/
def binary64 : FloatFormat := ⟨52, 1074, 63, 0x7FF0000000000000⟩

/-! ## Magnitudes -/

/-- The value in units of a bit pattern without its sign. The pattern of infinity gets the value
that would follow the largest finite one, so that comparisons order it correctly. -/
def magUnits (f : FloatFormat) (pattern : Nat) : Nat :=
  if pattern >>> f.mant = 0 then pattern
  else (2 ^ f.mant + pattern % 2 ^ f.mant) <<< (pattern >>> f.mant - 1)

/-- The integer nearest to `num / den`, ties to even. -/
def nearestEven (num den : Nat) : Nat :=
  if 2 * (num % den) > den ∨ (2 * (num % den) = den ∧ num / den % 2 = 1) then num / den + 1
  else num / den

/-- The position of the last place of a magnitude of `q` whole units. -/
def ulpShift (f : FloatFormat) (q : Nat) : Nat := q.log2 - f.mant

/-- The bit pattern nearest to `num / den` units, ties to the even pattern, infinity on overflow. -/
def roundMag (f : FloatFormat) (num den : Nat) : Nat :=
  min (ulpShift f (num / den) * 2 ^ f.mant + nearestEven num (den <<< ulpShift f (num / den))) f.inf

/-! ## Patterns with a sign -/

/-- The sign bit. -/
def signOf (f : FloatFormat) (x : Nat) : Bool := x.testBit f.sign

/-- The pattern without its sign bit. -/
def magOf (f : FloatFormat) (x : Nat) : Nat := x % 2 ^ f.sign

/-- The pattern of a sign and a magnitude. -/
def withSign (f : FloatFormat) (negative : Bool) (mag : Nat) : Nat :=
  if negative then 2 ^ f.sign + mag else mag

/-- The value in units, with its sign. -/
def unitsOf (f : FloatFormat) (x : Nat) : Int :=
  if signOf f x then -(magUnits f (magOf f x) : Int) else (magUnits f (magOf f x) : Int)

/-- The pattern is a NaN. -/
def isNan (f : FloatFormat) (x : Nat) : Bool := decide (f.inf < magOf f x)

/-- The pattern is an infinity. -/
def isInf (f : FloatFormat) (x : Nat) : Bool := decide (magOf f x = f.inf)

/-- The pattern is a zero. -/
def isZero (f : FloatFormat) (x : Nat) : Bool := decide (magOf f x = 0)

/-- The pattern nearest to a signed whole number of units. -/
def roundUnits (f : FloatFormat) (v : Int) : Nat := withSign f (decide (v < 0)) (roundMag f v.natAbs 1)

/-- The pattern nearest to an integer (R12). -/
def ofIntPattern (f : FloatFormat) (n : Int) : Nat :=
  withSign f (decide (n < 0)) (roundMag f (n.natAbs * 2 ^ f.unit) 1)

/-! ## Operations on patterns; `none` is NaN -/

/-- Addition. An exact zero sum is +0 unless both operands are -0. -/
def addPattern (f : FloatFormat) (a b : Nat) : Option Nat :=
  if isNan f a || isNan f b then none
  else if isInf f a then if isInf f b && signOf f a != signOf f b then none else some a
  else if isInf f b then some b
  else if unitsOf f a + unitsOf f b = 0 then some (withSign f (signOf f a && signOf f b) 0)
  else some (roundUnits f (unitsOf f a + unitsOf f b))

/-- The pattern with its sign bit inverted. -/
def negPattern (f : FloatFormat) (a : Nat) : Nat := withSign f (!signOf f a) (magOf f a)

/-- Multiplication. -/
def mulPattern (f : FloatFormat) (a b : Nat) : Option Nat :=
  if isNan f a || isNan f b || (isInf f a && isZero f b) || (isZero f a && isInf f b) then none
  else if isInf f a || isInf f b then some (withSign f (signOf f a != signOf f b) f.inf)
  else some (withSign f (signOf f a != signOf f b)
    (roundMag f (magUnits f (magOf f a) * magUnits f (magOf f b)) (2 ^ f.unit)))

/-- Division. -/
def divPattern (f : FloatFormat) (a b : Nat) : Option Nat :=
  if isNan f a || isNan f b || (isInf f a && isInf f b) || (isZero f a && isZero f b) then none
  else if isInf f a || isZero f b then some (withSign f (signOf f a != signOf f b) f.inf)
  else if isInf f b then some (withSign f (signOf f a != signOf f b) 0)
  else some (withSign f (signOf f a != signOf f b)
    (roundMag f (magUnits f (magOf f a) * 2 ^ f.unit) (magUnits f (magOf f b))))

/-- One Newton step down to the integer square root of `n`, repeated while it decreases. -/
def sqrtIter (n : Nat) : Nat → Nat → Nat
  | 0, x => x
  | fuel + 1, x => if (x + n / x) / 2 < x then sqrtIter n fuel ((x + n / x) / 2) else x

/-- The integer square root: the largest `r` with `r * r ≤ n`. -/
def isqrt (n : Nat) : Nat := if n = 0 then 0 else sqrtIter n (n.log2 + 2) (2 ^ (n.log2 / 2 + 1))

/-- Square root, correctly rounded (R20): twice the integer root of the scaled value, plus one where
it is inexact, lies on the same side of every rounding boundary as the exact root. -/
def sqrtPattern (f : FloatFormat) (a : Nat) : Option Nat :=
  if isNan f a then none
  else if isZero f a then some a
  else if signOf f a then none
  else if isInf f a then some a
  else
    let n := magUnits f (magOf f a) * 2 ^ f.unit
    let r := isqrt n
    some (roundMag f (2 * r + (if r * r = n then 0 else 1)) 2)

/-- Strictly less (R13: comparisons are exact). -/
def ltPattern (f : FloatFormat) (a b : Nat) : Bool :=
  !isNan f a && !isNan f b && decide (unitsOf f a < unitsOf f b)

/-- Conversion to another format: one rounding. -/
def convertPattern (f g : FloatFormat) (a : Nat) : Option Nat :=
  if isNan f a then none
  else if isInf f a then some (withSign g (signOf f a) g.inf)
  else some (withSign g (signOf f a) (roundMag g (magUnits f (magOf f a) * 2 ^ g.unit) (2 ^ f.unit)))

/-- The value rounded to the nearest integer, ties to even; 0 for NaN (R12). Infinities give an
integer beyond every sample. -/
def toNearestInt (f : FloatFormat) (a : Nat) : Int :=
  if isNan f a then 0
  else if signOf f a then -(nearestEven (magUnits f (magOf f a)) (2 ^ f.unit) : Int)
  else (nearestEven (magUnits f (magOf f a)) (2 ^ f.unit) : Int)

/-- The floor of a value that is not negative; 0 for NaN and for negative values, which no run has
(log 12, DESIGN CHOICE). -/
def floorNat (f : FloatFormat) (a : Nat) : Nat :=
  if isNan f a || signOf f a then 0 else magUnits f (magOf f a) / 2 ^ f.unit

/-! ## binary32 -/

/-- The quiet NaN of an invalid operation on `a` and `b`: sign and payload are free (log 4, DESIGN
CHOICE, safe). -/
def quietNan32 (a b : F32) : F32 := 0x7FC00000#32 ||| (Config.nan32 a b &&& 0x803FFFFF#32)

/-- The binary32 datum of an operation's result. -/
def f32Of (a b : F32) (r : Option Nat) : F32 :=
  match r with
  | some x => BitVec.ofNat 32 x
  | none => quietNan32 a b

/-- `a + b` in binary32. -/
def f32Add (a b : F32) : F32 := f32Of a b (addPattern binary32 a.toNat b.toNat)

/-- `-a` in binary32. -/
def f32Neg (a : F32) : F32 := BitVec.ofNat 32 (negPattern binary32 a.toNat)

/-- `a - b` in binary32. -/
def f32Sub (a b : F32) : F32 := f32Of a b (addPattern binary32 a.toNat (negPattern binary32 b.toNat))

/-- `a * b` in binary32. -/
def f32Mul (a b : F32) : F32 := f32Of a b (mulPattern binary32 a.toNat b.toNat)

/-- `a / b` in binary32. -/
def f32Div (a b : F32) : F32 := f32Of a b (divPattern binary32 a.toNat b.toNat)

/-- `a < b` in binary32. -/
def f32Lt (a b : F32) : Bool := ltPattern binary32 a.toNat b.toNat

/-- One of two operands is a NaN. -/
def f32Unordered (a b : F32) : Bool := isNan binary32 a.toNat || isNan binary32 b.toNat

/-- The operand `min` and `max` answer on a NaN: either one (log 4, DESIGN CHOICE, safe). -/
def f32Either (a b : F32) : F32 := if Config.minMaxNan a b then a else b

/-- `max(a, b)` (R13). -/
def f32Max (a b : F32) : F32 :=
  if f32Unordered a b then f32Either a b else if f32Lt a b then b else a

/-- `min(a, b)` (R13). -/
def f32Min (a b : F32) : F32 :=
  if f32Unordered a b then f32Either a b else if f32Lt b a then b else a

/-- `|a|` (R13). -/
def f32Abs (a : F32) : F32 := BitVec.ofNat 32 (magOf binary32 a.toNat)

/-- A finite binary32 value. -/
def f32Finite (x : F32) : Bool := decide (magOf binary32 x.toNat < binary32.inf)

/-- What an f32 element holds after a write of `v`, computed from `operands`: `v` where it is finite, and
else a free finite value, because every f32 element holds a finite value at all times (R57; logs 18 and
19, DESIGN CHOICE, safe). -/
def keepFinite (element : F32Element) (operands : List F32) (v : F32) : F32 :=
  if f32Finite v then v
  else
    BitVec.ofNat 32 (withSign binary32 (Config.finiteWrite element operands v).1
      (Config.finiteWrite element operands v).2.val)

/-- `f32(n)` (R12): exact up to 2^24, rounded once beyond (log 8, DEDUCED, unsafe). -/
def f32OfInt (n : Int) : F32 := BitVec.ofNat 32 (ofIntPattern binary32 n)

/-- 0.0 -/
def f32Zero : F32 := 0#32

/-- 1.0 -/
def f32One : F32 := 0x3F800000#32

/-! ## binary64 -/

/-- The quiet NaN of an invalid operation on `a` and `b`: sign and payload are free (log 4, DESIGN
CHOICE, safe). -/
def quietNan64 (a b : F64) : F64 := 0x7FF8000000000000#64 ||| (Config.nan64 a b &&& 0x8007FFFFFFFFFFFF#64)

/-- The binary64 datum of an operation's result. -/
def f64Of (a b : F64) (r : Option Nat) : F64 :=
  match r with
  | some x => BitVec.ofNat 64 x
  | none => quietNan64 a b

/-- `a + b` in binary64. -/
def f64Add (a b : F64) : F64 := f64Of a b (addPattern binary64 a.toNat b.toNat)

/-- `a - b` in binary64. -/
def f64Sub (a b : F64) : F64 := f64Of a b (addPattern binary64 a.toNat (negPattern binary64 b.toNat))

/-- `a * b` in binary64. -/
def f64Mul (a b : F64) : F64 := f64Of a b (mulPattern binary64 a.toNat b.toNat)

/-- `a / b` in binary64. -/
def f64Div (a b : F64) : F64 := f64Of a b (divPattern binary64 a.toNat b.toNat)

/-- `sqrt(a)` in binary64 (R20). -/
def f64Sqrt (a : F64) : F64 := f64Of a a (sqrtPattern binary64 a.toNat)

/-- `a < b` in binary64. -/
def f64Lt (a b : F64) : Bool := ltPattern binary64 a.toNat b.toNat

/-- `f64(n)` (R12). -/
def f64OfInt (n : Int) : F64 := BitVec.ofNat 64 (ofIntPattern binary64 n)

/-- The floor of a binary64 value that is not negative. -/
def f64Floor (a : F64) : Nat := floorNat binary64 a.toNat

/-- 0.0 -/
def f64Zero : F64 := 0#64

/-- 1.0 -/
def f64One : F64 := 0x3FF0000000000000#64

/-! ## Between the formats -/

/-- The binary64 value of a binary32 value: exact (R353). -/
def f64OfF32 (a : F32) : F64 :=
  match convertPattern binary32 binary64 a.toNat with
  | some x => BitVec.ofNat 64 x
  | none => quietNan64 (a.zeroExtend 64) 0#64

/-- A binary64 value rounded once to binary32 (R353). -/
def f32OfF64 (a : F64) : F32 :=
  match convertPattern binary64 binary32 a.toNat with
  | some x => BitVec.ofNat 32 x
  | none => quietNan32 (a.truncate 32) 0#32

end Sys2Proof.Machine
end

