-- ==== Sys2Proof/Machine/State.lean ====
section
/-! DEFINITION. The architectural state of the audio core (10_state.md R40 to R57), its events
(30_encoding.md R140 to R148), the reasons a step can stop, and the machine after reset. -/

namespace Sys2Proof.Machine

/-! ## Why a step stops -/

/-- The block has no faults (60_exceptions.md R600, R614): every command has a rule for every state
and every operand. So there is no reason to name, and no step of this model can fault (log 11,
DEDUCED, safe). -/
inductive Fault where
  deriving DecidableEq, Repr

/-- Why a step is refused. The block itself refuses nothing (R614). -/
inductive Refusal where
  /-- Raised by an arm of `exec` whose instruction has no meaning in this model. Safe: the model
  stops where the hardware goes on. No arm of this model raises it. -/
  | notModelled (mnemonic : String)
  deriving DecidableEq, Repr

/-! ## Events -/

/-- The conditions reported by a WARNING (R146, R601). -/
inductive WarningCode where
  | malformedLength | unsupportedPt | opusDecodeFail | opusEncodeFail | badCommand | noCodec | jbOverflow
  deriving DecidableEq, Repr

/-- The direction a CALL_ERROR is about (R141, R147). -/
inductive Direction where
  | decoder | encoder
  deriving DecidableEq, Repr

/-- An output event (R140, R141). -/
inductive Event where
  /-- `PCM_FRAME_READY(F)` (R143) -/
  | pcmFrameReady (samples : Frame)
  /-- `ENC_FRAME_READY(codec, duration, payload)` (R144) -/
  | encFrameReady (codec : Codec) (duration : U32) (payload : List Byte)
  /-- `QUEUE_DRAINED` (R145) -/
  | queueDrained
  /-- `WARNING(code, info)` (R146) -/
  | warning (code : WarningCode) (info : U32)
  /-- `CALL_ERROR(direction, count)` (R147) -/
  | callError (direction : Direction) (count : U32)
  /-- `JB_RESYNC(old, new)` (R148) -/
  | jbResync (old new : U32)
  deriving DecidableEq, Repr

/-! ## The parts of the state -/

/-- A frame as the transport delivers it (R45). -/
structure RtpFrame where
  payloadType : Byte
  payload : List Byte
  rtpTimestamp : U32
  deriving DecidableEq, Repr

/-- The integrators of one direction of the G.722 codec (R46, R47). -/
structure G722State where
  lo : Sample
  hi : Sample
  deriving DecidableEq, Repr

/-- The state of one resampler (R50): `z1` and `z2` are `iir_state[0]` and `iir_state[1]`. -/
structure ResamplerState where
  fractionalPhase : F64
  lastInputSample : Sample
  z1 : F32
  z2 : F32
  deriving DecidableEq, Repr

/-- The ingress DSP state `idsp` (R49). -/
structure IngressDspState where
  dcEstimate : F32
  preemphasisPrev : F32
  rmsEstimate : F32
  agcGain : F32
  gateOpen : Bool
  gateHoldCounter : U32
  deriving DecidableEq, Repr

/-- The egress DSP state `edsp` (R53). -/
structure EgressDspState where
  limiterGain : F32
  needsFadeIn : Bool
  isFirstPacket : Bool
  lastOutputSample : Sample
  lastFullFrame : Frame
  lastFrameWasSilence : Bool
  tail : Frame
  deriving DecidableEq, Repr

/-! ## The state -/

/-- The whole state `st` of one block (R42). `codecMap` and `jbMap` are finite maps in canonical
form: keys strictly rising, and no entry for what an unlisted key stands for (NONE, absent) (log 10,
DESIGN CHOICE, safe). -/
structure State where
  /-- The constants of R7: the model's own field, written by no command (log 1, DESIGN CHOICE, safe). -/
  params : Params
  /-- The bytes of the host's command stream not yet consumed (R121): the model's own field (log 2,
  DESIGN CHOICE, safe). -/
  input : List Byte
  /-- `codec_map` (R43): the payload types that are not NONE, with their codecs. -/
  codecMap : List (Byte × Codec)
  /-- `session_codec` (R43) -/
  sessionCodec : Option Codec
  /-- `jb_map` (R44): the stored frames; a frame's key is its timestamp. -/
  jbMap : List RtpFrame
  /-- `next_expected` (R44) -/
  nextExpected : U32
  /-- `is_synchronized` (R44) -/
  isSynchronized : Bool
  /-- `ever_synced` (R44) -/
  everSynced : Bool
  /-- `missing_count` (R44) -/
  missingCount : U32
  /-- `last_decoded` (R44) -/
  lastDecoded : Frame
  /-- `last_decoded_rate` (R44) -/
  lastDecodedRate : Rate
  /-- `g722_dec` (R46) -/
  g722Dec : G722State
  /-- `g722_enc` (R47) -/
  g722Enc : G722State
  /-- `opus_dec` (R48) -/
  opusDec : OpusDecState
  /-- `opus_enc` (R48) -/
  opusEnc : OpusEncState
  /-- `opus_dec_fail` (R48) -/
  opusDecFail : U32
  /-- `opus_enc_fail` (R48) -/
  opusEncFail : U32
  /-- `idsp` (R49) -/
  idsp : IngressDspState
  /-- `irs` (R50) -/
  irs : ResamplerState
  /-- `ers` (R50) -/
  ers : ResamplerState
  /-- `queue` (R52), oldest frame first -/
  queue : List Frame
  /-- `primed` (R52) -/
  primed : Bool
  /-- `underrun_count` (R52) -/
  underrunCount : U32
  /-- `tick_busy` (R52) -/
  tickBusy : Bool
  /-- `edsp` (R53) -/
  edsp : EgressDspState
  /-- `events` (R54), in the order they were emitted -/
  events : List Event
  deriving DecidableEq, Repr

/-! ## Reset (R56, R700, R702) -/

/-- The reset value of a resampler (R56, R323). -/
def ResamplerState.reset : ResamplerState :=
  { fractionalPhase := 0#64, lastInputSample := 0#16, z1 := 0#32, z2 := 0#32 }

/-- The reset value of `idsp` (R56). -/
def IngressDspState.reset (p : Params) : IngressDspState :=
  { dcEstimate := 0#32, preemphasisPrev := 0#32, rmsEstimate := p.agcTarget, agcGain := 0x3F800000#32,
    gateOpen := false, gateHoldCounter := 0#32 }

/-- The reset value of `edsp` (R56). -/
def EgressDspState.reset (p : Params) : EgressDspState :=
  { limiterGain := 0x3F800000#32, needsFadeIn := true, isFirstPacket := true, lastOutputSample := 0#16,
    lastFullFrame := [], lastFrameWasSilence := false, tail := List.replicate p.xfadeLen 0#16 }

/-- The power-on state of a block built with the constants `p` (R700, R702). -/
def State.powerOn (p : Params) : State :=
  { params := p
    input := []
    codecMap := []
    sessionCodec := none
    jbMap := []
    nextExpected := 0#32
    isSynchronized := false
    everSynced := false
    missingCount := 0#32
    lastDecoded := []
    lastDecodedRate := .r8000
    g722Dec := ⟨0#16, 0#16⟩
    g722Enc := ⟨0#16, 0#16⟩
    opusDec := Config.opusDecInit
    opusEnc := Config.opusEncInit
    opusDecFail := 0#32
    opusEncFail := 0#32
    idsp := IngressDspState.reset p
    irs := ResamplerState.reset
    ers := ResamplerState.reset
    queue := []
    primed := false
    underrunCount := 0#32
    tickBusy := false
    edsp := EgressDspState.reset p
    events := [] }

/-- The machine right after reset: the power-on state with the default constants of R7. -/
def State.reset : State := State.powerOn {}

end Sys2Proof.Machine
end

