-- ==== Sys2Proof/Machine/Operands.lean ====
section
/-! DEFINITION. The sample primitives, the forms of the commands' operands and payloads, and the
tables of rates and codecs (00_scope.md R8, R9, R11, R12; 30_encoding.md R124 to R127, R140 to
R154). -/

namespace Sys2Proof.Machine

/-! ## Samples (R12) -/

/-- `sat16(n)` (R12). -/
def sat16 (n : Int) : Sample := BitVec.ofInt 16 (max (-32768) (min n 32767))

/-- `to_i16(v)` of a binary32 value (R12). -/
def f32ToI16 (v : F32) : Sample := sat16 (toNearestInt binary32 v.toNat)

/-- `to_i16(v)` of a binary64 value (R12). -/
def f64ToI16 (v : F64) : Sample := sat16 (toNearestInt binary64 v.toNat)

/-- `f32(s)` of a sample. -/
def f32OfSample (s : Sample) : F32 := f32OfInt s.toInt

/-- `tdiv2(n)`: division by 2 truncated toward zero (R12). -/
def tdiv2 (n : Int) : Int := n.tdiv 2

/-- `zeros(n)` (R12). -/
def zeros (n : Nat) : Frame := List.replicate n 0#16

/-- `s[min(j, len(s) - 1)]`: a read past the end clamps to the last valid sample (R312). -/
def clampAt (s : Frame) (j : Nat) : Sample := s.getD (min j (s.length - 1)) 0#16

/-- A stage that runs over a sequence in order, one result per element, with a state. -/
def mapAccum {σ α β : Type} (f : σ → α → β × σ) : σ → List α → List β × σ
  | st, [] => ([], st)
  | st, x :: xs => ((f st x).1 :: (mapAccum f (f st x).2 xs).1, (mapAccum f (f st x).2 xs).2)

/-! ## Rates and codecs (R8, R9) -/

/-- A rate in Hz (R9). -/
def rateHz (r : Rate) : Nat :=
  match r with
  | .r8000 => 8000
  | .r16000 => 16000
  | .r24000 => 24000
  | .r48000 => 48000

/-- `N(r)`: the samples of a 20 ms frame (R9). -/
def frameLen (r : Rate) : Nat := rateHz r / 50

/-- `NATIVE(c)` (R8). -/
def nativeRate (c : Codec) : Rate :=
  match c with
  | .pcmu => .r8000
  | .pcma => .r8000
  | .g722 => .r16000
  | .opus => .r48000

/-- `INC(c)`: the RTP timestamp increment of a 20 ms frame (R8). -/
def rtpIncrement (c : Codec) : U32 :=
  match c with
  | .pcmu => 160#32
  | .pcma => 160#32
  | .g722 => 320#32
  | .opus => 960#32

/-- The wideband class (R8). -/
def isWideband (c : Codec) : Bool :=
  match c with
  | .pcmu => false
  | .pcma => false
  | .g722 => true
  | .opus => true

/-- The numeric codec id (R8). -/
def codecId (c : Codec) : Byte :=
  match c with
  | .pcmu => 1#8
  | .pcma => 2#8
  | .g722 => 3#8
  | .opus => 4#8

/-- The codec of a legal id; `none` for 0 and 5 to 255 (R124). -/
def codecOfId (id : Byte) : Option Codec :=
  match id.toNat with
  | 1 => some .pcmu
  | 2 => some .pcma
  | 3 => some .g722
  | 4 => some .opus
  | _ => none

/-! ## PCM16 payloads, little-endian (R92, R126, R150) -/

/-- The sample of two bytes in stream order. -/
def pcmSample (b0 b1 : Byte) : Sample := word16 b0 b1

/-- The samples of a payload; an odd last byte is the low byte of a sample whose high byte is 0 (R93). -/
def pcmSamples : List Byte → Frame
  | [] => []
  | [b] => [pcmSample b 0#8]
  | b0 :: b1 :: rest => pcmSample b0 b1 :: pcmSamples rest

/-- The bytes of a frame (R143). -/
def pcmBytes (samples : Frame) : List Byte := samples.flatMap bytes16

/-! ## Codec payload bytes (R263) -/

/-- `cl`, bits 2..0 of a G.722 byte; bits 5..3 are ignored. -/
def g722Low (b : Byte) : Nat := (b.extractLsb' 0 3).toNat

/-- `ch`, bits 7..6 of a G.722 byte. -/
def g722High (b : Byte) : Nat := (b.extractLsb' 6 2).toNat

/-- The byte of a high-band and a low-band index, bits 5..3 zero. -/
def g722Byte (ch cl : Nat) : Byte := BitVec.ofNat 2 ch ++ 0#3 ++ BitVec.ofNat 3 cl

/-! ## The byte form of events (R140 to R148) -/

/-- The code of a WARNING (R146). -/
def warningNumber (c : WarningCode) : Byte :=
  match c with
  | .malformedLength => 1#8
  | .unsupportedPt => 2#8
  | .opusDecodeFail => 3#8
  | .opusEncodeFail => 4#8
  | .badCommand => 5#8
  | .noCodec => 6#8
  | .jbOverflow => 7#8

/-- The direction field of a CALL_ERROR (R141). -/
def directionNumber (d : Direction) : Byte :=
  match d with
  | .decoder => 1#8
  | .encoder => 2#8

/-- The bytes of an event in stream order (R140, R141). -/
def encodeEvent (e : Event) : List Byte :=
  match e with
  | .pcmFrameReady samples =>
    headerBytes ⟨0x81#8, 0#8, BitVec.ofNat 16 (2 * samples.length)⟩ ++ pcmBytes samples
  | .encFrameReady codec duration payload =>
    headerBytes ⟨0x82#8, codecId codec, BitVec.ofNat 16 payload.length⟩ ++ bytes32 duration ++ payload
  | .queueDrained => headerBytes ⟨0x83#8, 0#8, 0#16⟩
  | .warning code info => headerBytes ⟨0x84#8, warningNumber code, 0#16⟩ ++ bytes32 info
  | .callError direction count => headerBytes ⟨0x85#8, directionNumber direction, 0#16⟩ ++ bytes32 count
  | .jbResync old new => headerBytes ⟨0x86#8, 0#8, 4#16⟩ ++ bytes32 old ++ bytes32 new

/-- The byte form of the event stream (R140). -/
def encodeEvents (es : List Event) : List Byte := es.flatMap encodeEvent

end Sys2Proof.Machine
end

