-- ==== Sys2Proof/Machine/Flags.lean ====
section
/-! DEFINITION. The boolean state elements (10_state.md R55), the saturating counters (D34) and the
conditions that set and clear the flags (43_ingress_dsp.md R354; 46_playout.md R464, R471). -/

namespace Sys2Proof.Machine

/-! ## The flags of R55 -/

/-- The eight flags of the table of R55. -/
inductive Flag where
  | isSynchronized | everSynced | gateOpen | primed | tickBusy | needsFadeIn | isFirstPacket
  | lastFrameWasSilence
  deriving DecidableEq, Repr

/-- A flag's value in a state. -/
def readFlag (f : Flag) (s : State) : Bool :=
  match f with
  | .isSynchronized => s.isSynchronized
  | .everSynced => s.everSynced
  | .gateOpen => s.idsp.gateOpen
  | .primed => s.primed
  | .tickBusy => s.tickBusy
  | .needsFadeIn => s.edsp.needsFadeIn
  | .isFirstPacket => s.edsp.isFirstPacket
  | .lastFrameWasSilence => s.edsp.lastFrameWasSilence

/-! ## Counters -/

/-- A `u32` counter plus one, saturating at 2^32 - 1 (D34). -/
def satInc (n : U32) : U32 := if n = 0xFFFFFFFF#32 then n else n + 1#32

/-- A counter that went from `before` to `after` became exactly `limit`: it equals it now and did not
before, so a saturated count that stays at a limit does not become it again (R285, R471, D34; log 17,
DEDUCED, unsafe). -/
def becomes (before after : U32) (limit : Nat) : Bool := after ≠ before && decide (after.toNat = limit)

/-! ## Conditions -/

/-- `GateUpdate(rms)`: the noise gate with hysteresis (R354). -/
def gateUpdate (p : Params) (d : IngressDspState) (rms : F32) : IngressDspState :=
  if d.gateOpen then
    if f32Lt rms p.gateClose then
      if p.gateHold ≤ (satInc d.gateHoldCounter).toNat then
        { d with gateOpen := false, gateHoldCounter := 0#32 }
      else { d with gateHoldCounter := satInc d.gateHoldCounter }
    else { d with gateHoldCounter := 0#32 }
  else if f32Lt p.gateOpen rms then { d with gateOpen := true, gateHoldCounter := 0#32 }
  else d

/-- `PrimeThreshold(c)` (R464). -/
def primeThreshold (p : Params) (c : Codec) : Nat :=
  if isWideband c then p.egrPrimeWb else p.egrPrimeNb

/-- The crossfade runs: the last emitted frame was not real, and a real one has been emitted since
reset (R394). -/
def crossfadeDue (e : EgressDspState) : Bool := e.lastFrameWasSilence && !e.isFirstPacket

/-- An empty tick still interpolates: the count is within UNDERRUN_INTERP and the last real frame
has the current frame length (R465, R470). -/
def interpolates (p : Params) (e : EgressDspState) (count : U32) (n : Nat) : Bool :=
  decide (count.toNat ≤ p.underrunInterp) && decide (e.lastFullFrame.length = n)

end Sys2Proof.Machine
end

