-- ==== Sys2Proof/Machine/IngressDsp.lean ====
section
/-! DEFINITION. The ingress DSP chain (43_ingress_dsp.md R350 to R359). -/

namespace Sys2Proof.Machine

/-- The DC estimate after a sample (R351). -/
def dcNext (p : Params) (d : IngressDspState) (xv : F32) : F32 :=
  keepFinite .dcEstimate [d.dcEstimate, xv]
    (f32Add (f32Mul p.dcAlpha d.dcEstimate) (f32Mul (f32Sub f32One p.dcAlpha) xv))

/-- The DC blocker and the pre-emphasis filter on one sample (R351, R352). -/
def dcPreStep (p : Params) (d : IngressDspState) (x : Sample) : F32 × IngressDspState :=
  let xv := f32OfSample x
  let dc := dcNext p d xv
  let x1 := f32Sub xv dc
  (f32Sub x1 (f32Mul p.preBeta d.preemphasisPrev),
   { d with dcEstimate := dc, preemphasisPrev := keepFinite .preemphasisPrev [xv, dc] x1 })

/-- `DcAndPreemphasis(x)` (R350). -/
def dcAndPreemphasis (p : Params) (d : IngressDspState) (x : Frame) : List F32 × IngressDspState :=
  mapAccum (dcPreStep p) d x

/-- The sum of squares in binary64, in sample order, from `acc` (R353). -/
def sumSquares : F64 → List F32 → F64
  | acc, [] => acc
  | acc, v :: rest => sumSquares (f64Add acc (f64Mul (f64OfF32 v) (f64OfF32 v))) rest

/-- `FrameRms(y)` (R353). -/
def frameRms (y : List F32) : F32 :=
  if y.length = 0 then f32Zero
  else f32OfF64 (f64Sqrt (f64Div (sumSquares f64Zero y) (f64OfInt y.length)))

/-- The AGC's target gain for an RMS estimate (R355). -/
def agcTargetGain (p : Params) (estimate : F32) : F32 :=
  if f32Lt f32Zero estimate then f32Min (f32Max (f32Div p.agcTarget estimate) p.agcMin) p.agcMax
  else p.agcMax

/-- The RMS estimate after a frame (R355). -/
def rmsNext (p : Params) (d : IngressDspState) (rms : F32) : F32 :=
  keepFinite .rmsEstimate [d.rmsEstimate, rms]
    (f32Add (f32Mul p.agcRmsCoef d.rmsEstimate) (f32Mul (f32Sub f32One p.agcRmsCoef) rms))

/-- The gain after a frame with this target (R355). Its operations round as R13 says; with AGC_STEP = 1
that can leave the interval R355 derives for the gain (log 18, DEDUCED, safe). -/
def gainNext (p : Params) (gain target : F32) : F32 :=
  keepFinite .agcGain [gain, target] (f32Add gain (f32Mul p.agcStep (f32Sub target gain)))

/-- `AgcUpdate(rms)` (R355). -/
def agcUpdate (p : Params) (d : IngressDspState) (rms : F32) : IngressDspState :=
  { d with
    rmsEstimate := rmsNext p d rms
    agcGain := gainNext p d.agcGain (agcTargetGain p (rmsNext p d rms)) }

/-- The gain and the hard clip on one sample (R356). -/
def gainAndLimit (p : Params) (gain y : F32) : Sample :=
  f32ToI16 (f32Min (f32Max (f32Mul y gain) (f32Neg p.ingCeil)) p.ingCeil)

/-- `ApplyGainAndLimit(y)` (R356). -/
def applyGainAndLimit (p : Params) (d : IngressDspState) (y : List F32) : Frame :=
  y.map (gainAndLimit p d.agcGain)

/-- The gate's half of the chain: the filters, the RMS and the gate (R350 to R354). -/
def gateStage (p : Params) (d : IngressDspState) (x : Frame) : IngressDspState :=
  gateUpdate p (dcAndPreemphasis p d x).2 (frameRms (dcAndPreemphasis p d x).1)

/-- `IngressDsp(x)`: filters, gate, AGC, limiter, in this order (R350, R357). -/
def ingressDsp (p : Params) (d : IngressDspState) (x : Frame) : Frame × IngressDspState :=
  let y := (dcAndPreemphasis p d x).1
  let gated := gateStage p d x
  if gated.gateOpen then
    (applyGainAndLimit p (agcUpdate p gated (frameRms y)) y, agcUpdate p gated (frameRms y))
  else (zeros x.length, gated)

end Sys2Proof.Machine
end

