-- ==== Sys2Proof/Machine/Ops.lean ====
section
/-! DEFINITION. The shared operations over the state: events and warnings, the two finite maps, the
buffer primitives (20_memory.md R91 to R98), reset (70_reset_and_hazards.md R700), and the command
stream (30_encoding.md R121, R129, R130). -/

namespace Sys2Proof.Machine

/-! ## Events, warnings and errors

The block has no exceptions (60_exceptions.md R600, R607): what stands where an exception would be
taken is `raise Warning`, an event that changes no control flow (00_scope.md R14). -/

/-- `emit E`: appends an event (R14, R54, R142). -/
def emit (e : Event) (s : State) : State := { s with events := s.events ++ [e] }

/-- `raise Warning(code, info)`: the one operation for every abnormal condition (R14, R600, R601). -/
def raiseWarning (code : WarningCode) (info : U32) (s : State) : State := emit (.warning code info) s

/-- `CALL_ERROR(direction, after)`, emitted when a consecutive-failure counter that went from `before` to
`after` becomes exactly OPUS_FAIL_LIMIT, so at most once per run of failures (R282, R284, R285). -/
def callErrorAt (direction : Direction) (before after : U32) (s : State) : State :=
  if becomes before after s.params.opusFailLimit then emit (.callError direction after) s else s

/-! ## The codec map (R43, R91) -/

/-- The codec of a payload type; `none` is NONE. -/
def codecAt (pt : Byte) : List (Byte × Codec) → Option Codec
  | [] => none
  | (k, c) :: rest => if pt = k then some c else codecAt pt rest

/-- The map with one payload type mapped, keys kept strictly rising. -/
def mapCodec (pt : Byte) (c : Codec) : List (Byte × Codec) → List (Byte × Codec)
  | [] => [(pt, c)]
  | (k, d) :: rest =>
    if pt < k then (pt, c) :: (k, d) :: rest
    else if pt = k then (pt, c) :: rest
    else (k, d) :: mapCodec pt c rest

/-- The canonical form of the codec map: keys strictly rising. -/
def codecMapWf (m : List (Byte × Codec)) : Bool :=
  decide (m.Pairwise fun a b => a.1 < b.1)

/-! ## The jitter buffer's map (R44, R91, R95, R96) -/

/-- The frame stored at a key, if any. -/
def jbLookup (ts : U32) : List RtpFrame → Option RtpFrame
  | [] => none
  | f :: rest => if f.rtpTimestamp = ts then some f else jbLookup ts rest

/-- `ts` is a key of the map. -/
def jbHasKey (ts : U32) (m : List RtpFrame) : Bool := (jbLookup ts m).isSome

/-- `JbInsert(ts, f)` with `ts` the frame's own timestamp, keys kept strictly rising (R95). -/
def jbInsert (f : RtpFrame) : List RtpFrame → List RtpFrame
  | [] => [f]
  | g :: rest =>
    if f.rtpTimestamp < g.rtpTimestamp then f :: g :: rest
    else if f.rtpTimestamp = g.rtpTimestamp then g :: rest
    else g :: jbInsert f rest

/-- `JbRemove(ts)`: the map without the key (R96). -/
def jbRemove (ts : U32) (m : List RtpFrame) : List RtpFrame :=
  m.filter fun f => decide (f.rtpTimestamp ≠ ts)

/-- The canonical form of the jitter buffer's map: keys strictly rising. -/
def jbMapWf (m : List RtpFrame) : Bool :=
  decide (m.Pairwise fun a b => a.rtpTimestamp < b.rtpTimestamp)

/-! ## The egress queue (R97, R98) -/

/-- `FifoPush(F)`: at the cap the oldest frame is dropped first, silently (R97; log 12). -/
def fifoPush (cap : Nat) (q : List Frame) (f : Frame) : List Frame :=
  if q.length = cap then q.drop 1 ++ [f] else q ++ [f]

/-- `FifoPop()`: the oldest frame and the rest (R98); `none` on an empty queue. -/
def fifoPop : List Frame → Option (Frame × List Frame)
  | [] => none
  | f :: rest => some (f, rest)

/-! ## Reset (R700) -/

/-- `ResetState()`: every element at its reset value, but for the events, which belong to the host
(R700); the constants and the host's command stream are no elements of the block's state. -/
def resetState (s : State) : State :=
  { State.powerOn s.params with input := s.input, events := s.events }

/-! ## The command stream (R121, R129, R130) -/

/-- The host sends bytes of commands (R121, R611). -/
def deliver (bytes : List Byte) (s : State) : State := { s with input := s.input ++ bytes }

/-- The bytes of a command are consumed (R129). -/
def consume (size : Nat) (s : State) : State := { s with input := s.input.drop size }

/-- What stands at the front of the command stream. -/
def fetch (s : State) : Decoded := decode s.input

/-- A malformed command: the warning, and nothing else (R128, R209). -/
def rejectMalformed (hdr : U32) (s : State) : State := raiseWarning .badCommand hdr s

/-- The command stream holds the one command of a row of the opcode table, and nothing else. -/
def placeCommand (nbits w : Nat) (s : State) : State := { s with input := tableStream nbits w }

end Sys2Proof.Machine
end

