-- ==== Sys2Proof/Machine/JitterBuffer.lean ====
section
/-! DEFINITION. The jitter buffer with packet-loss concealment (45_jitter_buffer.md R420 to R435). -/

namespace Sys2Proof.Machine

/-! ## Timestamps (R421, R422) -/

/-- `SerialBefore(a, b)`: the difference modulo 2^32 is 2^31 or more (R421). -/
def serialBefore (a b : U32) : Bool := decide (2 ^ 31 ≤ (a - b).toNat)

/-- The key nearest after `base` in serial distance (R422). -/
def nearestKey (base : U32) : List RtpFrame → Option U32
  | [] => none
  | f :: rest =>
    match nearestKey base rest with
    | none => some f.rtpTimestamp
    | some k => if f.rtpTimestamp - base ≤ k - base then some f.rtpTimestamp else some k

/-- `k` is not after any key (R422). -/
def isSerialEarliest (m : List RtpFrame) (k : U32) : Bool :=
  m.all fun f => decide ((f.rtpTimestamp - k).toNat < 2 ^ 31)

/-- The serially earliest key, where there is one (R422). -/
def serialEarliest (m : List RtpFrame) : Option U32 :=
  (m.map RtpFrame.rtpTimestamp).find? (isSerialEarliest m)

/-- The smallest key as an unsigned integer (R422). -/
def smallestKey (m : List RtpFrame) : Option U32 := nearestKey 0#32 m

/-- `Lowest()` (R422); `none` on an empty map. -/
def lowest (everSynced : Bool) (expected : U32) (m : List RtpFrame) : Option U32 :=
  if everSynced then nearestKey expected m
  else (serialEarliest m).or (smallestKey m)

/-! ## Stale frames (R435) -/

/-- `Purge()`: the map without the keys serially before `expected` (R435). -/
def purged (expected : U32) (m : List RtpFrame) : List RtpFrame :=
  m.filter fun f => !serialBefore f.rtpTimestamp expected

/-- `next_expected` changes, and stale keys are purged (R435). -/
def advanceTo (expected : U32) (s : State) : State :=
  { s with nextExpected := expected, jbMap := purged expected s.jbMap }

/-! ## Insert (R423, R424) -/

/-- The jump event of an insert-time synchronisation: only after a first one, and only where the
expected timestamp moves (R424). -/
def noteJump (k : U32) (s : State) : State :=
  if s.everSynced ∧ k ≠ s.nextExpected then emit (.jbResync s.nextExpected k) s else s

/-- The synchronisation on key `k` (R424). -/
def synchronise (k : U32) (s : State) : State :=
  { advanceTo k (noteJump k s) with isSynchronized := true, everSynced := true }

/-- `SyncCheck()` (R424). -/
def syncCheck (s : State) : State :=
  if s.isSynchronized = false ∧ s.params.jbPrimeDepth ≤ s.jbMap.length then
    match lowest s.everSynced s.nextExpected s.jbMap with
    | some k => synchronise k s
    | none => s
  else s

/-- A frame is late: serially before the expected timestamp, once synchronised (R423). -/
def isLate (ts : U32) (s : State) : Bool := s.everSynced && serialBefore ts s.nextExpected

/-- `JbInsertFrame(f)` (R423). -/
def jbInsertFrame (f : RtpFrame) (s : State) : State :=
  if isLate f.rtpTimestamp s then s
  else if jbHasKey f.rtpTimestamp s.jbMap then s
  else if s.params.jbCap ≤ s.jbMap.length then raiseWarning .jbOverflow f.rtpTimestamp s
  else syncCheck { s with jbMap := jbInsert f s.jbMap }

/-! ## Pull (R425 to R429) -/

/-- What a pull of the jitter buffer returns (R425). -/
inductive PullResult where
  | nothing
  | frame (f : RtpFrame)
  | conceal
  deriving DecidableEq, Repr

/-- The frame at key `k` is drained, and the expected timestamp moves past it (R426, R429). -/
def drain (k inc : U32) (s : State) : State :=
  advanceTo (k + inc) { s with jbMap := jbRemove k s.jbMap, missingCount := 0#32 }

/-- `Miss(nx, inc)` (R427). -/
def miss (nx inc : U32) (s : State) : PullResult × State := (.conceal, advanceTo (nx + inc) s)

/-- `Resync(nx, inc)`: the jump to the lowest key, drained by the same pull (R429). An empty map, which
no legal block meets here, answers nothing (log 12, DESIGN CHOICE). -/
def resync (nx inc : U32) (s : State) : PullResult × State :=
  match lowest s.everSynced s.nextExpected s.jbMap with
  | none => (.nothing, s)
  | some k =>
    match jbLookup k s.jbMap with
    | none => (.nothing, s)
    | some f => (.frame f, drain k inc (emit (.jbResync nx k) s))

/-- `BeyondPlc(nx, inc)` (R428). -/
def beyondPlc (nx inc : U32) (s : State) : PullResult × State :=
  if s.params.jbPrimeDepth ≤ s.jbMap.length then resync nx inc s
  else (.nothing, { s with isSynchronized := false })

/-- A pull that does not find the expected frame (R425). -/
def pullMissing (nx inc : U32) (s : State) : PullResult × State :=
  let s1 := { s with missingCount := satInc s.missingCount }
  if s1.missingCount.toNat ≤ s1.params.jbPlcMax then miss nx inc s1 else beyondPlc nx inc s1

/-- `JbPull(inc)` (R425); `Present` is the drain of the expected frame (R426). -/
def jbPull (inc : U32) (s : State) : PullResult × State :=
  if s.isSynchronized then
    match jbLookup s.nextExpected s.jbMap with
    | some f => (.frame f, drain s.nextExpected inc s)
    | none => pullMissing s.nextExpected inc s
  else (.nothing, s)

/-! ## Concealment (R430) -/

/-- One sample replayed with the PLC gain (R430). -/
def concealSample (p : Params) (v : Sample) : Sample := f32ToI16 (f32Mul (f32OfSample v) p.jbPlcGain)

/-- `Conceal()` (R430). -/
def concealFrame (s : State) : Frame × Rate := (s.lastDecoded.map (concealSample s.params), s.lastDecodedRate)

end Sys2Proof.Machine
end

