-- ==== Sys2Proof/Machine/Codecs.lean ====
section
/-! DEFINITION. The codec layer (41_codecs.md R250 to R286): G.711, the simplified G.722, and the
stages around the external Opus library. -/

namespace Sys2Proof.Machine

/-! ## G.711 (R253 to R257) -/

/-- `MulawDecode(b)` (R253). -/
def mulawDecode (b : Byte) : Sample :=
  let u := (~~~b).toNat
  let t := (((u &&& 0x0F) <<< 3) + 0x84) <<< ((u &&& 0x70) >>> 4)
  sat16 (if u &&& 0x80 ≠ 0 then 0x84 - (t : Int) else (t : Int) - 0x84)

/-- `MulawEncode(x)` (R254). -/
def mulawEncode (x : Sample) : Byte :=
  let sign := if x.toInt < 0 then 0x80 else 0x00
  let mag := min x.toInt.natAbs 32635 + 0x84
  let e := (mag >>> 7).log2
  let m := (mag >>> (e + 3)) &&& 0x0F
  ~~~(BitVec.ofNat 8 (sign ||| (e <<< 4) ||| m))

/-- `AlawDecode(b)` (R255). -/
def alawDecode (b : Byte) : Sample :=
  let a := (b ^^^ 0x55#8).toNat
  let t0 := (a &&& 0x0F) <<< 4
  let seg := (a &&& 0x70) >>> 4
  let t := if seg = 0 then t0 + 8 else if seg = 1 then t0 + 0x108 else (t0 + 0x108) <<< (seg - 1)
  sat16 (if a &&& 0x80 ≠ 0 then (t : Int) else -(t : Int))

/-- `AlawEncode(x)` (R256). -/
def alawEncode (x : Sample) : Byte :=
  let sign := if 0 ≤ x.toInt then 0x80#8 else 0x00#8
  let mag := min x.toInt.natAbs 32635
  let c :=
    if 256 ≤ mag then
      let e := (mag >>> 8).log2 + 1
      (e <<< 4) ||| ((mag >>> (e + 3)) &&& 0x0F)
    else mag >>> 4
  BitVec.ofNat 8 c ^^^ (sign ^^^ 0x55#8)

/-! ## G.722, simplified (R260 to R267) -/

/-- `QL`, the low band's 8 levels (R261). -/
def qlTable : List Int := [-3072, -1024, -256, -32, 32, 256, 1024, 3072]

/-- `QH`, the high band's 4 levels (R261). -/
def qhTable : List Int := [-1024, -64, 64, 1024]

/-- The index within `best` and the rest of a table, from position `i` on, of the level nearest to
`d`; the earlier on a tie. -/
def nearestLevel (d : Int) : List Int → Nat → Nat → Nat → Nat
  | [], _, bestAt, _ => bestAt
  | q :: rest, i, bestAt, bestErr =>
    if (d - q).natAbs < bestErr then nearestLevel d rest (i + 1) i (d - q).natAbs
    else nearestLevel d rest (i + 1) bestAt bestErr

/-- `Quant(d, Q)`: the index of the nearest level, the lower on a tie (R262). -/
def quant (d : Int) : List Int → Nat
  | [] => 0
  | q :: rest => nearestLevel d rest 1 0 (d - q).natAbs

/-- The integrators after a pair coded `cl`, `ch` (R264). -/
def g722Update (g : G722State) (cl ch : Nat) : G722State :=
  { lo := sat16 (g.lo.toInt + qlTable.getD cl 0), hi := sat16 (g.hi.toInt + qhTable.getD ch 0) }

/-- The low-band index of a pair (R260, R265). -/
def g722LowIndex (g : G722State) (x0 x1 : Sample) : Nat :=
  quant (Int.shiftRight (x0.toInt + x1.toInt) 1 - g.lo.toInt) qlTable

/-- The high-band index of a pair (R260, R265). -/
def g722HighIndex (g : G722State) (x0 x1 : Sample) : Nat :=
  quant (Int.shiftRight (x0.toInt - x1.toInt) 1 - g.hi.toInt) qhTable

/-- One pair of samples encoded (R265). -/
def g722EncodePair (g : G722State) (x0 x1 : Sample) : Byte × G722State :=
  (g722Byte (g722HighIndex g x0 x1) (g722LowIndex g x0 x1),
   g722Update g (g722LowIndex g x0 x1) (g722HighIndex g x0 x1))

/-- `G722Encode(F)`; an odd last sample is repeated (R265). -/
def g722Encode (g : G722State) : Frame → List Byte × G722State
  | [] => ([], g)
  | [x] => ([(g722EncodePair g x x).1], (g722EncodePair g x x).2)
  | x0 :: x1 :: rest =>
    let r := g722Encode (g722EncodePair g x0 x1).2 rest
    ((g722EncodePair g x0 x1).1 :: r.1, r.2)

/-- One byte decoded (R266). -/
def g722DecodeByte (g : G722State) (b : Byte) : Frame × G722State :=
  let g' := g722Update g (g722Low b) (g722High b)
  ([sat16 (g'.lo.toInt + g'.hi.toInt), sat16 (g'.lo.toInt - g'.hi.toInt)], g')

/-- `G722Decode(P)` (R266). -/
def g722Decode (g : G722State) (payload : List Byte) : Frame × G722State :=
  ((mapAccum g722DecodeByte g payload).1.flatten, (mapAccum g722DecodeByte g payload).2)

/-! ## Opus (R280 to R286) -/

/-- What a decode of the library answers: Fail, or samples and whether they are stereo (R280). -/
inductive OpusDecResult where
  | fail
  | ok (samples : Frame) (stereo : Bool)
  deriving DecidableEq, Repr

/-- What an encode of the library answers: Fail, or 1 to 65535 bytes (R280). -/
inductive OpusEncResult where
  | fail
  | ok (payload : List Byte)
  deriving DecidableEq, Repr

/-- `OpusDecode`: the library's function; a success has OPUS_DEC_CHANNELS channels (R280). Its length is
free: R94's 131070 samples, derived from the G.722 payload, are not imposed on it (log 5, DESIGN CHOICE,
safe). -/
def opusDecode (st : OpusDecState) (payload : List Byte) : OpusDecState × OpusDecResult :=
  ((Config.opusDecode st payload).1,
   match (Config.opusDecode st payload).2 with
   | none => .fail
   | some samples => .ok samples Config.opusDecStereo)

/-- `OpusEncode`: the library's function; a success has 1 to 65535 bytes (R280). -/
def opusEncode (st : OpusEncState) (f : Frame) : OpusEncState × OpusEncResult :=
  ((Config.opusEncode st f).1,
   match (Config.opusEncode st f).2 with
   | none => .fail
   | some packet => .ok (packet.first :: packet.rest.take 65534))

/-- The downmix to mono: the mean of each pair, truncated toward zero; an odd last sample is
dropped (R281). -/
def downmix : Frame → Frame
  | l :: r :: rest => sat16 (tdiv2 (l.toInt + r.toInt)) :: downmix rest
  | [_] => []
  | [] => []

/-- `OpusDecodeFail()` (R282, R285). -/
def opusDecodeFail (s : State) : Frame × State :=
  let n := satInc s.opusDecFail
  (zeros 960, callErrorAt .decoder s.opusDecFail n (raiseWarning .opusDecodeFail n { s with opusDecFail := n }))

/-- The part of `OpusDecodeStage` after the library has answered (R281). -/
def opusDecodeAnswer (r : OpusDecResult) (s : State) : Frame × State :=
  match r with
  | .fail => opusDecodeFail s
  | .ok samples stereo => (if stereo then downmix samples else samples, { s with opusDecFail := 0#32 })

/-- `OpusDecodeStage(P)` (R281). -/
def opusDecodeStage (payload : List Byte) (s : State) : Frame × State :=
  opusDecodeAnswer (opusDecode s.opusDec payload).2 { s with opusDec := (opusDecode s.opusDec payload).1 }

/-- `OpusEncodeFail()` (R284, R285). -/
def opusEncodeFail (s : State) : State :=
  let n := satInc s.opusEncFail
  callErrorAt .encoder s.opusEncFail n (raiseWarning .opusEncodeFail n { s with opusEncFail := n })

/-- The part of `OpusEncodeStage` after the library has answered (R283); `none` is Fail. -/
def opusEncodeAnswer (r : OpusEncResult) (s : State) : Option (List Byte) × State :=
  match r with
  | .fail => (none, opusEncodeFail s)
  | .ok payload => (some payload, { s with opusEncFail := 0#32 })

/-- `OpusEncodeStage(F)` (R283). -/
def opusEncodeStage (f : Frame) (s : State) : Option (List Byte) × State :=
  opusEncodeAnswer (opusEncode s.opusEnc f).2 { s with opusEnc := (opusEncode s.opusEnc f).1 }

/-! ## The two stages (R211, R252) -/

/-- The payload length every fixed-rate codec expects (R211). -/
def fixedPayload : Nat := 160

/-- The malformed-length check of the fixed-rate codecs (R211). -/
def checkLength (f : RtpFrame) (s : State) : State :=
  if f.payload.length = fixedPayload then s
  else raiseWarning .malformedLength (BitVec.ofNat 32 f.payload.length) s

/-- `DecodeRtp(f)` with `session` the session codec (R211). -/
def decodeRtp (session : Codec) (f : RtpFrame) (s : State) : (Frame × Rate) × State :=
  match codecAt f.payloadType s.codecMap with
  | none =>
    ((zeros (frameLen (nativeRate session)), nativeRate session),
     raiseWarning .unsupportedPt (f.payloadType.zeroExtend 32) s)
  | some .pcmu => ((f.payload.map mulawDecode, .r8000), checkLength f s)
  | some .pcma => ((f.payload.map alawDecode, .r8000), checkLength f s)
  | some .g722 =>
    (((g722Decode s.g722Dec f.payload).1, .r16000),
     { checkLength f s with g722Dec := (g722Decode s.g722Dec f.payload).2 })
  | some .opus => (((opusDecodeStage f.payload s).1, .r48000), (opusDecodeStage f.payload s).2)

/-- `EncodeFrame(codec, F)`; `none` is Fail (R252). -/
def encodeFrame (c : Codec) (f : Frame) (s : State) : Option (List Byte) × State :=
  match c with
  | .pcmu => (some (f.map mulawEncode), s)
  | .pcma => (some (f.map alawEncode), s)
  | .g722 => (some (g722Encode s.g722Enc f).1, { s with g722Enc := (g722Encode s.g722Enc f).2 })
  | .opus => opusEncodeStage f s

end Sys2Proof.Machine
end

