-- ==== Sys2Proof/Machine/Reference.lean ====
section
/-! DEFINITION. The two numeric configuration functions: TANH32 (00_scope.md R19) and the design of
the anti-alias filter's coefficients (42_resampler.md R314). Both are computed in exact fixed-point
integers with far more bits than the result keeps, and rounded once. -/

namespace Sys2Proof.Machine

/-! ## Fixed point -/

/-- The fraction bits of the fixed-point numbers of this file. -/
def fixBits : Nat := 256

/-- 1.0 in fixed point. -/
def fixOne : Nat := 2 ^ fixBits

/-- A product in fixed point, rounded down. -/
def fixMul (a b : Nat) : Nat := a * b / fixOne

/-- The sum of the Taylor terms `term`, `term * x / (k+1)`, … of the exponential. -/
def expTerms (x : Nat) : Nat → Nat → Nat → Nat
  | 0, _, _ => 0
  | fuel + 1, k, term => term + expTerms x fuel (k + 1) (fixMul term x / (k + 1))

/-- Squares `n` times. -/
def squareTimes : Nat → Nat → Nat
  | 0, y => y
  | n + 1, y => squareTimes n (fixMul y y)

/-- `e ^ x` for `x` up to 32: the series at `x / 256`, squared 8 times. -/
def fixExp (x : Nat) : Nat := squareTimes 8 (expTerms (x / 256) 48 0 fixOne)

/-- The alternating sum `term - term x²/((k+1)(k+2)) + …` of the sine and cosine series. -/
def alternating (xx : Nat) : Nat → Nat → Nat → Nat
  | 0, _, _ => 0
  | fuel + 1, k, term => term - alternating xx fuel (k + 2) (fixMul term xx / ((k + 1) * (k + 2)))

/-- `sin x` for `x` up to pi/2. -/
def fixSin (x : Nat) : Nat := alternating (fixMul x x) 40 1 x

/-- `cos x` for `x` up to pi/2. -/
def fixCos (x : Nat) : Nat := alternating (fixMul x x) 40 0 fixOne

/-! ## TANH32 (R19) -/

/-- The correctly rounded hyperbolic tangent of a magnitude pattern: the argument itself up to
2^-12, where the cubic term is below half a last place; 1.0 from 16 on; between them
`(e^2u - 1) / (e^2u + 1)` (log 6, DEDUCED). -/
def tanhMag (u : Nat) : Nat :=
  if u ≤ 0x39800000 then u
  else if 0x41800000 ≤ u then 0x3F800000
  else
    let e := fixExp (magUnits binary32 u * 2 * fixOne / 2 ^ 149)
    min (roundMag binary32 ((e - fixOne) * 2 ^ 149) (e + fixOne)) 0x3F800000

/-- The largest value of a function on the patterns up to `u`, held within 0.0 and 1.0. Every
function that is 0 at 0, monotone and within [0, 1] on the patterns up to infinity is its own
running maximum, and every running maximum has these properties: exactly the functions R19 admits. -/
def runningMax (g : Nat → Nat) : Nat → Nat
  | 0 => 0
  | u + 1 => max (runningMax g u) (min (g (u + 1)) 0x3F800000)

/-- TANH32 on an argument that is not negative (R19). -/
def tanh32 (choice : TanhChoice) (u : F32) : F32 :=
  match choice with
  | .reference => BitVec.ofNat 32 (tanhMag u.toNat)
  | .free => BitVec.ofNat 32 (runningMax Config.tanhFree u.toNat)

/-! ## The anti-alias filter's design (R314) -/

/-- The coefficients of the second-order filter (R314, R316). -/
structure IirCoeffs where
  b0 : F32
  b1 : F32
  b2 : F32
  a1 : F32
  a2 : F32
  deriving DecidableEq, Repr

/-- pi, to the nearest binary64 value. -/
def f64Pi : F64 := 0x400921FB54442D18#64

/-- `tan x` for a binary64 argument between 0 and pi/2, correctly rounded (log 7, DESIGN CHOICE). -/
def f64Tan (x : F64) : F64 :=
  let fx := magUnits binary64 (magOf binary64 x.toNat) * fixOne / 2 ^ 1074
  BitVec.ofNat 64 (roundMag binary64 (fixSin fx * 2 ^ 1074) (fixCos fx))

/-- The coefficients for a rate decrease at a cutoff fraction, by the formulas of R314 in binary64, in the
order they are written (R13), each rounded once to binary32 (log 7, DEDUCED, unsafe). -/
def designIir (cutoff : F64) (fromHz toHz : Nat) : IirCoeffs :=
  let two := f64OfInt 2
  let fc := f64Div (f64Mul cutoff (f64OfInt toHz)) two
  let k := f64Tan (f64Div (f64Mul f64Pi fc) (f64OfInt fromHz))
  let kk := f64Mul k k
  let rk := f64Mul (f64Sqrt two) k
  let norm := f64Div f64One (f64Add (f64Add f64One rk) kk)
  let b0 := f64Mul kk norm
  { b0 := f32OfF64 b0
    b1 := f32OfF64 (f64Mul two b0)
    b2 := f32OfF64 b0
    a1 := f32OfF64 (f64Mul (f64Mul two (f64Sub kk f64One)) norm)
    a2 := f32OfF64 (f64Mul (f64Add (f64Sub f64One rk) kk) norm) }

end Sys2Proof.Machine
end

