-- ==== Sys2Proof/Machine/EgressDsp.lean ====
section
/-! DEFINITION. The egress DSP chain (44_egress_dsp.md R390 to R399). -/

namespace Sys2Proof.Machine

/-- `f` on each element with its position, from position `n`. -/
def mapFrom {α β : Type} (f : Nat → α → β) : Nat → List α → List β
  | _, [] => []
  | n, x :: rest => f n x :: mapFrom f (n + 1) rest

/-! ## Fade-in (R391) -/

/-- Sample `n` of a frame that fades in over `len` samples (R391). -/
def fadeSample (len n : Nat) (x : F32) : F32 :=
  if n < len then f32Mul x (f32Div (f32OfInt n) (f32OfInt len)) else x

/-- `FadeIn(x)` (R391). -/
def fadeIn (p : Params) (e : EgressDspState) (x : List F32) : List F32 :=
  if e.needsFadeIn then mapFrom (fadeSample p.fadeInLen) 0 x else x

/-! ## Soft-knee limiter (R392, R393) -/

/-- The largest magnitude of a frame, 0 for an empty one (R392). -/
def peakOf : List F32 → F32
  | [] => f32Zero
  | v :: rest => f32Max (f32Abs v) (peakOf rest)

/-- The limiter's gain for a frame of this peak, as it is computed (R392). -/
def limiterStep (p : Params) (gain peak : F32) : F32 :=
  if f32Lt p.limC peak then
    f32Add gain (f32Mul p.limAttack (f32Sub (f32Div p.limC peak) gain))
  else if f32Lt peak p.limT then f32Add gain (f32Mul p.limRelease (f32Sub f32One gain))
  else gain

/-- The limiter's gain after a frame of this peak (R392, R57). -/
def limiterUpdate (p : Params) (gain peak : F32) : F32 :=
  keepFinite .limiterGain [gain, peak] (limiterStep p gain peak)

/-- The soft knee on one sample after the gain (R393). -/
def softKnee (p : Params) (y : F32) : F32 :=
  if f32Lt p.limT (f32Abs y) then
    let k := f32Sub p.limC p.limT
    let m := f32Add p.limT (f32Mul k (tanh32 p.tanh (f32Div (f32Sub (f32Abs y) p.limT) k)))
    if f32Lt f32Zero y then m else f32Neg m
  else y

/-- The limiter on one sample (R393). -/
def limitSample (p : Params) (gain x : F32) : F32 := softKnee p (f32Mul x gain)

/-! ## Crossfade (R394) -/

/-- The weight of the current frame's sample `n` in a window of `w` samples (R394). -/
def fadeWeight (w n : Nat) : F32 := f32Div (f32OfInt (n + 1)) (f32OfInt (w + 1))

/-- Sample `n` of a frame blended with the tail (R394). -/
def blendSample (w : Nat) (tail : Frame) (n : Nat) (x : F32) : F32 :=
  if n < w then
    f32Add (f32Mul (f32OfSample (tail.getD n 0#16)) (f32Sub f32One (fadeWeight w n)))
      (f32Mul x (fadeWeight w n))
  else x

/-- `Crossfade(x)` (R394). -/
def crossfade (p : Params) (e : EgressDspState) (x : List F32) : List F32 :=
  if crossfadeDue e then mapFrom (blendSample p.xfadeLen e.tail) 0 x else x

/-! ## The chain (R390) -/

/-- The frame after the fade-in, from which the limiter takes its peak (R390, R392). -/
def fadedFrame (p : Params) (e : EgressDspState) (f : Frame) : List F32 := fadeIn p e (f.map f32OfSample)

/-- The limiter's gain for a frame (R392). -/
def frameGain (p : Params) (e : EgressDspState) (f : Frame) : F32 :=
  limiterUpdate p e.limiterGain (peakOf (fadedFrame p e f))

/-- `EgressDsp(F)`: fade-in, limiter, crossfade, in this order (R390). -/
def egressDsp (p : Params) (e : EgressDspState) (f : Frame) : Frame × EgressDspState :=
  ((crossfade p e ((fadedFrame p e f).map (limitSample p (frameGain p e f)))).map f32ToI16,
   { e with limiterGain := frameGain p e f, needsFadeIn := false, isFirstPacket := false })

/-! ## Silence and bookkeeping (R395, R396) -/

/-- Sample `k` of ramped silence that starts from `last` and reaches 0 after `ramp` samples (R395). What
R474 says of the silence holds of this formula but for a `last` so small that the ramp's first sample
rounds back to it, and for a ramp longer than the frame: the model follows R395 (log 21, DEDUCED,
unsafe). -/
def silenceSample (ramp : Nat) (last : Sample) (k : Nat) : Sample :=
  if k < ramp then
    f32ToI16 (f32Mul (f32OfSample last) (f32Sub f32One (f32Div (f32OfInt (k + 1)) (f32OfInt ramp))))
  else 0#16

/-- `RampedSilence(n)` (R395). -/
def rampedSilence (p : Params) (e : EgressDspState) (n : Nat) : Frame :=
  (List.range n).map (silenceSample p.silRampLen e.lastOutputSample)

/-- The last `w` samples of a frame. -/
def lastSamples (w : Nat) (f : Frame) : Frame := f.drop (f.length - w)

/-- `NoteEmitted(F, real)` (R396). -/
def noteEmitted (p : Params) (f : Frame) (real : Bool) (e : EgressDspState) : EgressDspState :=
  { e with
    lastOutputSample := f.getLast?.getD e.lastOutputSample
    tail := lastSamples p.xfadeLen (e.tail ++ f)
    lastFrameWasSilence := !real }

end Sys2Proof.Machine
end

