-- ==== Sys2Proof/Machine/Resampler.lean ====
section
/-! DEFINITION. The resampler (42_resampler.md R310 to R325). -/

namespace Sys2Proof.Machine

/-- A frame and the resampler's state after it. -/
abbrev Resampled := Frame × ResamplerState

/-! ## Short-circuit (R312) -/

/-- The last valid sample: the input's last, or the one held from the previous call (R312). -/
def lastValid (inp : Frame) (rs : ResamplerState) : Sample := inp.getLast?.getD rs.lastInputSample

/-- The short-circuit: a copy, padded with the last valid sample (R312). -/
def shortCircuit (inp : Frame) (rs : ResamplerState) (nOut : Nat) : Resampled :=
  ((List.range nOut).map fun k => inp.getD k (lastValid inp rs),
   { rs with lastInputSample := lastValid inp rs })

/-! ## The anti-alias filter (R313 to R318) -/

/-- The coefficient table of R316, at the default cutoff. -/
def iirTable (src dst : Rate) : Option IirCoeffs :=
  match src, dst with
  | .r16000, .r8000 => some ⟨0x3E7E4D20#32, 0x3EFE4D20#32, 0x3E7E4D20#32, 0xBE3CA28B#32, 0x3E35D70A#32⟩
  | .r48000, .r24000 => some ⟨0x3E7E4D20#32, 0x3EFE4D20#32, 0x3E7E4D20#32, 0xBE3CA28B#32, 0x3E35D70A#32⟩
  | .r24000, .r8000 => some ⟨0x3E0640C4#32, 0x3E8640C4#32, 0x3E0640C4#32, 0xBF3F6F1D#32, 0x3E8B5FC2#32⟩
  | .r48000, .r16000 => some ⟨0x3E0640C4#32, 0x3E8640C4#32, 0x3E0640C4#32, 0xBF3F6F1D#32, 0x3E8B5FC2#32⟩
  | .r24000, .r16000 => some ⟨0x3EC85D2A#32, 0x3F485D2A#32, 0x3EC85D2A#32, 0x3EBD32B1#32, 0x3E4883EA#32⟩
  | .r48000, .r8000 => some ⟨0x3D28F978#32, 0x3DA8F978#32, 0x3D28F978#32, 0xBFACAAFA#32, 0x3F039451#32⟩
  | _, _ => none

/-- The default IIR_CUTOFF_FRACTION, the binary64 value nearest to 0.9 (R7; log 20, DEDUCED, safe). -/
def defaultCutoff : F64 := 0x3FECCCCCCCCCCCCD#64

/-- The pair of rates a pair's coefficients are designed at: the first of its ratio in the table of R316,
because pairs of one ratio share one set (R315; log 7, DESIGN CHOICE for which of the two, unsafe). -/
def designPair (src dst : Rate) : Rate × Rate :=
  match src, dst with
  | .r48000, .r24000 => (.r16000, .r8000)
  | .r48000, .r16000 => (.r24000, .r8000)
  | _, _ => (src, dst)

/-- The coefficients of R314 for a pair of rates, one set for each ratio (R314, R315). -/
def designFor (cutoff : F64) (src dst : Rate) : IirCoeffs :=
  designIir cutoff (rateHz (designPair src dst).1) (rateHz (designPair src dst).2)

/-- `C(from, to)`: the table at the default cutoff, R314's design at any other (R316). -/
def iirCoeffs (p : Params) (src dst : Rate) : IirCoeffs :=
  match iirTable src dst with
  | some c => if p.iirCutoff = defaultCutoff then c else designFor p.iirCutoff src dst
  | none => designFor p.iirCutoff src dst

/-- `IirStep`: one Direct-Form-II-Transposed step (R317), rounded to a sample (R313, R318). With a cutoff
fraction near 0 the rounded coefficients of R314 can be those of an unstable filter: what `iir_state`
then holds past the finite values is `keepFinite`'s (R57; log 19, DESIGN CHOICE, safe). -/
def iirStep (c : IirCoeffs) (rs : ResamplerState) (x : Sample) : Sample × ResamplerState :=
  let xv := f32OfSample x
  let y := f32Add (f32Mul c.b0 xv) rs.z1
  (f32ToI16 y,
   { rs with
     z1 := keepFinite .z1 [xv, rs.z1, rs.z2] (f32Add (f32Sub (f32Mul c.b1 xv) (f32Mul c.a1 y)) rs.z2)
     z2 := keepFinite .z2 [xv, rs.z1, rs.z2] (f32Sub (f32Mul c.b2 xv) (f32Mul c.a2 y)) })

/-- The input of the interpolation: filtered on a rate decrease, as it is on an increase (R313). -/
def antiAlias (p : Params) (src dst : Rate) (inp : Frame) (rs : ResamplerState) : Resampled :=
  if rateHz dst < rateHz src then mapAccum (iirStep (iirCoeffs p src dst)) rs inp else (inp, rs)

/-! ## The exact 2x path (R319) -/

/-- Output sample `k` of the fast path (R319). -/
def fast2xSample (s : Frame) (k : Nat) : Sample :=
  if k % 2 = 0 then clampAt s (k / 2)
  else sat16 (tdiv2 ((clampAt s (k / 2)).toInt + (clampAt s (k / 2 + 1)).toInt))

/-- The exact 2x upsampling path (R319). -/
def fast2x (s : Frame) (rs : ResamplerState) (nOut : Nat) : Resampled :=
  ((List.range nOut).map (fast2xSample s), { rs with lastInputSample := lastValid s rs })

/-! ## Linear interpolation (R321, R322) -/

/-- `step` (R321). -/
def phaseStep (src dst : Rate) : F64 := f64Div (f64OfInt (rateHz src)) (f64OfInt (rateHz dst))

/-- `pos` of output sample `k` (R321). -/
def interpPos (phase step : F64) (k : Nat) : F64 := f64Add phase (f64Mul (f64OfInt k) step)

/-- Output sample `k`, over the extended sequence `e` (R321). -/
def interpSample (e : Frame) (phase step : F64) (k : Nat) : Sample :=
  let pos := interpPos phase step k
  let i := f64Floor pos
  let frac := f64Sub pos (f64OfInt i)
  let a := (clampAt e i).toInt
  let b := (clampAt e (i + 1)).toInt
  f64ToI16 (f64Add (f64OfInt a) (f64Mul (f64OfInt (b - a)) frac))

/-- `PhaseUpdate()` (R322). -/
def phaseUpdate (phase step : F64) (nIn nOut : Nat) : F64 :=
  let r := f64Sub (interpPos phase step nOut) (f64OfInt nIn)
  if f64Lt r f64Zero then f64Zero
  else if f64Lt r f64One then r
  else f64Sub r (f64OfInt (f64Floor r))

/-- Phase-continuous linear interpolation (R321). -/
def interpolate (s : Frame) (step : F64) (rs : ResamplerState) (nOut : Nat) : Resampled :=
  ((List.range nOut).map (interpSample (rs.lastInputSample :: s) rs.fractionalPhase step),
   { rs with
     fractionalPhase := phaseUpdate rs.fractionalPhase step s.length nOut
     lastInputSample := lastValid s rs })

/-! ## The paths (R311, R325) -/

/-- The three paths of R311. -/
inductive Path where
  | copy | double | linear
  deriving DecidableEq, Repr

/-- The path of a conversion: the first that applies (R311). -/
def pathOf (nIn : Nat) (src dst : Rate) : Path :=
  if src = dst ∨ nIn = 0 then .copy
  else if rateHz dst = 2 * rateHz src then .double
  else .linear

/-- `Convert(in, from, to, rs, n_out)` (R310, R311). -/
def convert (p : Params) (inp : Frame) (src dst : Rate) (rs : ResamplerState) (nOut : Nat) : Resampled :=
  match pathOf inp.length src dst with
  | .copy => shortCircuit inp rs nOut
  | .double => fast2x inp rs nOut
  | .linear =>
    let filtered := antiAlias p src dst inp rs
    interpolate filtered.1 (phaseStep src dst) filtered.2 nOut

end Sys2Proof.Machine
end

