-- ==== Sys2Proof/Machine/Playout.lean ====
section
/-! DEFINITION. The egress audio source and RTP playout engine (46_playout.md R460 to R475). -/

namespace Sys2Proof.Machine

/-! ## Enqueue (R461, R462) -/

/-- The bytes of a payload zero-padded to whole frames of `b` bytes (R462). -/
def padPayload (b : Nat) (payload : List Byte) : List Byte :=
  payload ++ List.replicate ((b - payload.length % b) % b) 0#8

/-- The frames of `n` samples of a payload, `count` of them (R462). -/
def chunkFrames (n : Nat) : Nat → List Byte → List Frame
  | 0, _ => []
  | count + 1, bytes => pcmSamples (bytes.take (2 * n)) :: chunkFrames n count (bytes.drop (2 * n))

/-- The frames an `EGR_ENQ` payload stands for (R462). -/
def payloadFrames (n : Nat) (payload : List Byte) : List Frame :=
  chunkFrames n ((padPayload (2 * n) payload).length / (2 * n)) (padPayload (2 * n) payload)

/-- `EnqueuePcm(payload)` (R462). -/
def enqueuePcm (payload : List Byte) (s : State) : State :=
  { s with
    queue := (payloadFrames (frameLen s.params.targetRate) payload).foldl
      (fifoPush s.params.egrQueueCap) s.queue }

/-! ## Emission (R472) -/

/-- `EmitEncoded(F, real)` with `c` the session codec (R472). -/
def emitEncoded (c : Codec) (f : Frame) (real : Bool) (s : State) : State :=
  let r := encodeFrame c f { s with edsp := noteEmitted s.params f real s.edsp }
  match r.1 with
  | none => r.2
  | some payload => emit (.encFrameReady c (rtpIncrement c) payload) r.2

/-! ## The tick (R465 to R471) -/

/-- The samples of an egress frame of a codec (R465, R473). -/
def egressLen (c : Codec) : Nat := frameLen (nativeRate c)

/-- A tick that sends ramped silence (R467, R471). -/
def silentTick (c : Codec) (s : State) : State :=
  emitEncoded c (rampedSilence s.params s.edsp (egressLen c)) false s

/-- A steady-state tick on a dequeued frame (R468, R469). -/
def steadyTick (c : Codec) (f : Frame) (rest : List Frame) (s : State) : State :=
  let x := convert s.params f s.params.targetRate (nativeRate c) s.ers (egressLen c)
  let y := egressDsp s.params s.edsp x.1
  emitEncoded c y.1 true
    { s with queue := rest, underrunCount := 0#32, ers := x.2, edsp := { y.2 with lastFullFrame := y.1 } }

/-- The gain of an interpolated frame (R465, R470). -/
def underrunGain (p : Params) (count : U32) : F32 :=
  f32Max f32Zero (f32Sub f32One (f32Mul (f32OfInt count.toNat) p.underrunStep))

/-- The interpolated frame of a brief underrun (R470). -/
def interpolatedFrame (p : Params) (count : U32) (f : Frame) : Frame :=
  f.map fun v => f32ToI16 (f32Mul (f32OfSample v) (underrunGain p count))

/-- The end of a tick of sustained underrun whose count went up from `before`: the notification, when
the count becomes UNDERRUN_INTERP + 1, so once per run of empty ticks, and the re-priming (R465, R471). -/
def noteDrained (before : U32) (s : State) : State :=
  let s1 :=
    if becomes before s.underrunCount (s.params.underrunInterp + 1) then emit .queueDrained s else s
  if s1.params.jitterPrimingMode ∧ s1.params.underrunInterp < s1.underrunCount.toNat then
    { s1 with primed := false }
  else s1

/-- A tick on an empty queue, once primed (R470, R471). -/
def underrunTick (c : Codec) (s : State) : State :=
  let s1 := { s with underrunCount := satInc s.underrunCount }
  if interpolates s1.params s1.edsp s1.underrunCount (egressLen c) then
    emitEncoded c (interpolatedFrame s1.params s1.underrunCount s1.edsp.lastFullFrame) false s1
  else noteDrained s.underrunCount (silentTick c s1)

/-- A tick once primed: steady state or underrun (R465). -/
def playTick (c : Codec) (s : State) : State :=
  match fifoPop s.queue with
  | some (f, rest) => steadyTick c f rest s
  | none => underrunTick c s

/-- `TickBody()` with `c` the session codec (R465, R467). -/
def tickBody (c : Codec) (s : State) : State :=
  if s.primed then playTick c s
  else if primeThreshold s.params c ≤ s.queue.length then playTick c { s with primed := true }
  else silentTick c s

/-- `Tick()` with its reentrancy guard (R465, R466). -/
def tick (s : State) : State :=
  if s.tickBusy then s
  else
    match s.sessionCodec with
    | none => s
    | some c => { tickBody c { s with tickBusy := true } with tickBusy := false }

end Sys2Proof.Machine
end

