-- ==== Sys2Proof/Machine/Commands.lean ====
section
/-! DEFINITION. The meanings of the eight host commands (40_commands.md R200 to R208), one
definition each, over the shared operations and stages. -/

namespace Sys2Proof.Machine

/-! ## The ingress audio processor (R203, R210) -/

/-- The argument word of a `CFG_CODEC` (R124). -/
def cfgArgument (codec : Byte) (rate : BitVec 24) : U32 := rate ++ codec

/-- The codec map and the session codec after an accepted `CFG_CODEC` (R201). -/
def acceptCodec (pt : Byte) (c : Codec) (s : State) : State :=
  { s with codecMap := mapCodec pt c s.codecMap, sessionCodec := some c }

/-- The rest of a pull that yields a frame: last-decoded bookkeeping, ingress DSP, resampler and the
event (R203). -/
def outputPcm (pcm : Frame) (rate : Rate) (s : State) : State :=
  let y := ingressDsp s.params s.idsp pcm
  let out := convert s.params y.1 rate s.params.targetRate s.irs (frameLen s.params.targetRate)
  emit (.pcmFrameReady out.1)
    { s with lastDecoded := pcm, lastDecodedRate := rate, idsp := y.2, irs := out.2 }

/-- What a pull does with the jitter buffer's answer (R203). -/
def finishPull (session : Codec) (r : PullResult) (s : State) : State :=
  match r with
  | .nothing => s
  | .frame f => outputPcm (decodeRtp session f s).1.1 (decodeRtp session f s).1.2 (decodeRtp session f s).2
  | .conceal => outputPcm (concealFrame s).1 (concealFrame s).2 s

/-- `ING_PULL` as a change of state (R203). -/
def pull (s : State) : State :=
  match s.sessionCodec with
  | none => s
  | some c => finishPull c (jbPull (rtpIncrement c) s).1 (jbPull (rtpIncrement c) s).2

/-! ## The meanings -/

/-- `CFG_CODEC pt, codec, rate` (R201). -/
def execCfgCodec (pt codec : Byte) (rate : BitVec 24) (s : State) : Host.Outcome State Fault Refusal :=
  match codecOfId codec with
  | none => .next (raiseWarning .badCommand (cfgArgument codec rate) s)
  | some c => .next (acceptCodec pt c s)

/-- `RTP_IN pt, ts, payload` (R202). -/
def execRtpIn (pt : Byte) (ts : U32) (payload : List Byte) (s : State) : Host.Outcome State Fault Refusal :=
  match s.sessionCodec with
  | none => .next (raiseWarning .noCodec ts s)
  | some _ => .next (jbInsertFrame ⟨pt, payload, ts⟩ s)

/-- `ING_PULL` (R203). -/
def execIngPull (s : State) : Host.Outcome State Fault Refusal := .next (pull s)

/-- `EGR_ENQ payload` (R204). -/
def execEgrEnq (payload : List Byte) (s : State) : Host.Outcome State Fault Refusal :=
  .next (enqueuePcm payload s)

/-- `EGR_TICK` (R205). -/
def execEgrTick (s : State) : Host.Outcome State Fault Refusal := .next (tick s)

/-- `FADE_RESET` (R206). -/
def execFadeReset (s : State) : Host.Outcome State Fault Refusal :=
  .next { s with edsp := { s.edsp with needsFadeIn := true } }

/-- `EGR_CLEAR` (R207). -/
def execEgrClear (s : State) : Host.Outcome State Fault Refusal := .next { s with queue := [] }

/-- `CALL_RESET` (R208). -/
def execCallReset (s : State) : Host.Outcome State Fault Refusal := .next (resetState s)

end Sys2Proof.Machine
end

