-- ==== Sys2Proof/Machine/Dispatch.lean ====
section
/-! DEFINITION. The meaning of each command of 30_encoding.md R123: one arm a constructor. -/

namespace Sys2Proof.Machine

def exec (i : Instr) (s : State) : Host.Outcome State Fault Refusal :=
  match i with
  | .cfgCodec pt codec rate => Sys2Proof.Machine.execCfgCodec pt codec rate s
  | .rtpIn pt ts payload => Sys2Proof.Machine.execRtpIn pt ts payload s
  | .ingPull => Sys2Proof.Machine.execIngPull s
  | .egrEnq payload => Sys2Proof.Machine.execEgrEnq payload s
  | .egrTick => Sys2Proof.Machine.execEgrTick s
  | .fadeReset => Sys2Proof.Machine.execFadeReset s
  | .egrClear => Sys2Proof.Machine.execEgrClear s
  | .callReset => Sys2Proof.Machine.execCallReset s

end Sys2Proof.Machine
end

