-- ==== Sys2Proof/Machine/Step.lean ====
section
/-! DEFINITION. One step of the block: the command at the front of the host's stream is consumed
and executed whole (20_memory.md R100; 30_encoding.md R128 to R130). -/

namespace Sys2Proof.Machine

/-- One step. An incomplete command leaves the block idle, its state intact (R130, R613, R614; log
2, DESIGN CHOICE, safe); a malformed one is reported and skipped by its length (R128, R129, R209). -/
def step (s : State) : Host.Outcome State Fault Refusal :=
  match fetch s with
  | .incomplete => .next s
  | .malformed _ hdr size => .next (rejectMalformed hdr (consume size s))
  | .command i size => exec i (consume size s)

/-- `s` with the one command of an opcode-table row at the front of the command stream. -/
def State.withFetchWord (s : State) (nbits w : Nat) : State := placeCommand nbits w s

end Sys2Proof.Machine
end

