-- ==== Sys2Proof/Machine/Legal.lean ====
section
/-! DEFINITION. The legal values of the configuration constants (00_scope.md R7). -/

namespace Sys2Proof.Machine

/-- A finite binary32 value above 0. -/
def f32Positive (x : F32) : Bool := f32Lt f32Zero x && f32Finite x

/-- A finite binary32 value of at least 0. -/
def f32NotNegative (x : F32) : Bool := f32Finite x && !f32Lt x f32Zero

/-- `a ≤ b` of two binary32 values that are not NaN. -/
def f32AtMost (a b : F32) : Bool := !f32Lt b a

/-- A `u32` constant. -/
def isU32 (n : Nat) : Bool := decide (n < 2 ^ 32)

/-- The jitter buffer's constants are legal (R7). -/
def legalJitterBuffer (p : Params) : Bool :=
  decide (3 ≤ p.jbPrimeDepth ∧ p.jbPrimeDepth ≤ 12) && decide (p.jbPlcMax = 1 ∨ p.jbPlcMax = 2)
  && f32Positive p.jbPlcGain && f32AtMost p.jbPlcGain f32One
  && decide (p.jbPrimeDepth ≤ p.jbCap) && isU32 p.jbCap

/-- The ingress chain's constants are legal (R7). -/
def legalIngress (p : Params) : Bool :=
  f32Positive p.dcAlpha && f32Lt p.dcAlpha f32One
  && f32NotNegative p.preBeta && f32Lt p.preBeta f32One
  && f32Finite p.gateOpen && f32Lt p.gateClose p.gateOpen && f32NotNegative p.gateClose
  && decide (1 ≤ p.gateHold) && isU32 p.gateHold
  && f32Positive p.agcTarget && f32Positive p.agcMin && f32Finite p.agcMax && f32AtMost p.agcMin p.agcMax
  && f32NotNegative p.agcRmsCoef && f32Lt p.agcRmsCoef f32One
  && f32Positive p.agcStep && f32AtMost p.agcStep f32One
  && f32Positive p.ingCeil && f32AtMost p.ingCeil (f32OfInt 32767)

/-- The resampler's constant is legal (R7). -/
def legalResampler (p : Params) : Bool := f64Lt f64Zero p.iirCutoff && f64Lt p.iirCutoff f64One

/-- The egress chain's constants are legal (R7). -/
def legalEgress (p : Params) : Bool :=
  decide (1 ≤ p.fadeInLen) && isU32 p.fadeInLen
  && f32Positive p.limT && f32Lt p.limT p.limC && f32AtMost p.limC (f32OfInt 32767)
  && decide (f32OfInt (toNearestInt binary32 p.limC.toNat) = p.limC)
  && f32Positive p.limAttack && f32AtMost p.limAttack f32One
  && f32Positive p.limRelease && f32Lt p.limRelease p.limAttack
  && decide (1 ≤ p.xfadeLen ∧ p.xfadeLen ≤ 160)
  && decide (1 ≤ p.silRampLen) && isU32 p.silRampLen

/-- The playout engine's and the Opus stage's constants are legal (R7). -/
def legalPlayout (p : Params) : Bool :=
  decide (5 ≤ p.egrQueueCap) && isU32 p.egrQueueCap
  && decide (1 ≤ p.egrPrimeNb) && isU32 p.egrPrimeNb
  && decide (1 ≤ p.egrPrimeWb) && isU32 p.egrPrimeWb
  && isU32 p.underrunInterp && f32Positive p.underrunStep
  && decide (1 ≤ p.opusFailLimit) && isU32 p.opusFailLimit

/-- Every constant has a legal value (R7). The step does not ask for it (log 9, DESIGN CHOICE, unsafe). -/
def legalParams (p : Params) : Bool :=
  legalJitterBuffer p && legalIngress p && legalResampler p && legalEgress p && legalPlayout p

end Sys2Proof.Machine
end

