-- ==== Sys2Proof/Safety.lean ====
section
/-! DEFINITION. What counts as a safe run, in the terms the statements use: runs of the block
(70_reset_and_hazards.md R702, R715), the invariant of its states (10_state.md R57; 45_jitter_buffer.md
R433; 46_playout.md R461), and the two directions of the pipeline (41_codecs.md R286; 46_playout.md
R460). -/

namespace Sys2Proof.Machine

/-! ## Runs -/

/-- A step is safe when it answers a next state: the block never faults, sticks or refuses (R614). -/
def Safe (s : State) : Prop := ∃ t, step s = .next t

/-- The states of the runs of a block built with the constants `p`: power-on, bytes arriving from
the host at any time, and steps (R100, R702, R715). -/
inductive Reachable (p : Params) : State → Prop where
  | powerOn : Reachable p (State.powerOn p)
  | deliver (bytes : List Byte) {s : State} : Reachable p s → Reachable p (deliver bytes s)
  | step {s t : State} : Reachable p s → step s = .next t → Reachable p t

/-- Commands executed whole, one after the other (R100, R715). -/
def runCommands : List Instr → State → Host.Outcome State Fault Refusal
  | [], s => .next s
  | i :: rest, s =>
    match exec i s with
    | .next t => runCommands rest t
    | .fault r => .fault r
    | .refused r => .refused r

/-- The state after a command: every command completes (R614), so the other outcomes do not occur. -/
def afterCommand (i : Instr) (s : State) : State :=
  match exec i s with
  | .next t => t
  | .fault _ => s
  | .refused _ => s

/-- What the jitter buffer answers when a command pulls it: nothing unless the command is an
`ING_PULL` with a codec configured (R203, R425). -/
def pullOutcome (i : Instr) (s : State) : List PullResult :=
  if i = .ingPull then
    match s.sessionCodec with
    | none => []
    | some c => [(jbPull (rtpIncrement c) s).1]
  else []

/-- The jitter buffer's answers over a list of commands, in order. -/
def pullOutcomes : List Instr → State → List PullResult
  | [], _ => []
  | i :: rest, s => pullOutcome i s ++ pullOutcomes rest (afterCommand i s)

/-- The timestamp of a drained frame. -/
def drainedTimestamp (r : PullResult) : Option U32 :=
  match r with
  | .nothing => none
  | .frame f => some f.rtpTimestamp
  | .conceal => none

/-- How far the expected timestamp moves forward over a list of commands, in timestamp units (R431:
the order holds for runs that span less than 2^31 units). -/
def timestampSpan : List Instr → State → Nat
  | [], _ => 0
  | i :: rest, s =>
    ((afterCommand i s).nextExpected - s.nextExpected).toNat + timestampSpan rest (afterCommand i s)

/-! ## The invariant -/

/-- The jitter buffer's part of the invariant: the map's canonical form, its bound (R57), payloads
within a command's (R45), a synchronised buffer has synchronised (R424), while Filling the priming
depth is not reached (R424, R428), and no key is behind the expected timestamp (R433). -/
structure JbInv (s : State) : Prop where
  canonical : jbMapWf s.jbMap = true
  bounded : s.jbMap.length ≤ s.params.jbCap
  payloads : ∀ f ∈ s.jbMap, f.payload.length ≤ maxPayload
  synced : s.isSynchronized = true → s.everSynced = true
  filling : s.isSynchronized = false → s.jbMap.length < s.params.jbPrimeDepth
  notBehind : s.everSynced = true → ∀ f ∈ s.jbMap, serialBefore f.rtpTimestamp s.nextExpected = false

/-- The egress part of the invariant: whole frames in the queue, at most its cap (R57, R461), a tail
of XFADE_LEN samples (R396), no tick in progress between commands (R466). -/
structure EgressInv (s : State) : Prop where
  wholeFrames : ∀ f ∈ s.queue, f.length = frameLen s.params.targetRate
  bounded : s.queue.length ≤ s.params.egrQueueCap
  tail : s.edsp.tail.length = s.params.xfadeLen
  idle : s.tickBusy = false

/-- A resampler's part of the invariant: a finite `iir_state` and a phase in [0, 1) (R57). -/
structure ResamplerInv (rs : ResamplerState) : Prop where
  z1 : f32Finite rs.z1 = true
  z2 : f32Finite rs.z2 = true
  phaseNotNegative : f64Lt rs.fractionalPhase f64Zero = false
  phaseBelowOne : f64Lt rs.fractionalPhase f64One = true

/-- Every f32 element holds a finite value, and both phases lie in [0, 1) (R57). -/
structure NumericInv (s : State) : Prop where
  dcEstimate : f32Finite s.idsp.dcEstimate = true
  preemphasisPrev : f32Finite s.idsp.preemphasisPrev = true
  rmsEstimate : f32Finite s.idsp.rmsEstimate = true
  agcGain : f32Finite s.idsp.agcGain = true
  limiterGain : f32Finite s.edsp.limiterGain = true
  ingressResampler : ResamplerInv s.irs
  egressResampler : ResamplerInv s.ers

/-- The invariant of a block built with the constants `p`. -/
structure Inv (p : Params) (s : State) : Prop where
  constants : s.params = p
  codecMap : codecMapWf s.codecMap = true
  jitterBuffer : JbInv s
  egress : EgressInv s
  numeric : NumericInv s

/-! ## The egress ceiling (R398) -/

/-- `LIM_C` as an integer: its legal values are integers (R7). -/
def ceilingOf (p : Params) : Nat := (toNearestInt binary32 p.limC.toNat).toNat

/-- A sample's magnitude is at most the ceiling. -/
def WithinCeiling (p : Params) (v : Sample) : Prop := v.toInt.natAbs ≤ ceilingOf p

/-- What the egress chain keeps of the samples it has sent is within the ceiling. -/
structure CeilingInv (s : State) : Prop where
  lastOutput : WithinCeiling s.params s.edsp.lastOutputSample
  tail : ∀ v ∈ s.edsp.tail, WithinCeiling s.params v
  lastFull : ∀ v ∈ s.edsp.lastFullFrame, WithinCeiling s.params v

/-! ## The flags' table (R55) -/

/-- The commands that may set a flag to a value: the columns 'set by' and 'cleared by' of R55. A
tick sets and clears `tick_busy` within itself; only a reset can leave it changed. -/
def flagWriter (f : Flag) (v : Bool) (i : Instr) : Bool :=
  match i with
  | .cfgCodec _ _ _ => false
  | .rtpIn _ _ _ => (f = .isSynchronized || f = .everSynced) && v
  | .ingPull => (f = .isSynchronized && !v) || f = .gateOpen
  | .egrEnq _ => false
  | .egrTick =>
    f = .primed || f = .lastFrameWasSilence || ((f = .needsFadeIn || f = .isFirstPacket) && !v)
  | .fadeReset => f = .needsFadeIn && v
  | .egrClear => false
  | .callReset => if f = .needsFadeIn || f = .isFirstPacket then v else !v

/-! ## Events that have a byte form (R140, R141) -/

/-- The event's payload fits the `len` field. -/
def EventFits (e : Event) : Prop :=
  match e with
  | .pcmFrameReady samples => 2 * samples.length ≤ maxPayload
  | .encFrameReady _ _ payload => payload.length ≤ maxPayload
  | .queueDrained => True
  | .warning _ _ => True
  | .callError _ _ => True
  | .jbResync _ _ => True

/-! ## The two directions -/

/-- Two states agree on everything a tick may read or write but the events: the session codec, the
egress codec states, resampler, queue and playout state (R286, R460). -/
structure SameEgress (s t : State) : Prop where
  params : s.params = t.params
  sessionCodec : s.sessionCodec = t.sessionCodec
  g722Enc : s.g722Enc = t.g722Enc
  opusEnc : s.opusEnc = t.opusEnc
  opusEncFail : s.opusEncFail = t.opusEncFail
  ers : s.ers = t.ers
  queue : s.queue = t.queue
  primed : s.primed = t.primed
  underrunCount : s.underrunCount = t.underrunCount
  tickBusy : s.tickBusy = t.tickBusy
  edsp : s.edsp = t.edsp

/-- Two states agree on everything a pull may read or write but the events: the codec maps, the
jitter buffer, the ingress codec states, DSP and resampler (R286). -/
structure SameIngress (s t : State) : Prop where
  params : s.params = t.params
  codecMap : s.codecMap = t.codecMap
  sessionCodec : s.sessionCodec = t.sessionCodec
  jbMap : s.jbMap = t.jbMap
  nextExpected : s.nextExpected = t.nextExpected
  isSynchronized : s.isSynchronized = t.isSynchronized
  everSynced : s.everSynced = t.everSynced
  missingCount : s.missingCount = t.missingCount
  lastDecoded : s.lastDecoded = t.lastDecoded
  lastDecodedRate : s.lastDecodedRate = t.lastDecodedRate
  g722Dec : s.g722Dec = t.g722Dec
  opusDec : s.opusDec = t.opusDec
  opusDecFail : s.opusDecFail = t.opusDecFail
  idsp : s.idsp = t.idsp
  irs : s.irs = t.irs

end Sys2Proof.Machine
end

