-- ==== Sys2Proof/Certificates/Slice0/Obligations.lean ====
section
/-! DEFINITION. The statements about the audio core for the provers, one definition each; the docstring
names the rules of spec/ a statement formalises. -/

open Sys2Proof Sys2Proof.Machine

/-! ## The byte form of commands and events (30_encoding.md) -/

/-- R121 to R129: the bytes of every command that has an encoding decode to that command, with every
operand at every value, whatever bytes follow, and exactly its own bytes are taken. -/
def Obligations.DecodeInvertsEncode : Prop :=
  ∀ (i : Instr) (rest : List Byte), WellFormed i →
    decode (encode i ++ rest) = .command i (encode i).length

/-- R121 to R131: whatever decodes to a command is that command's encoding, so each command has one
encoding and no other bytes stand for it. -/
def Obligations.EncodeInvertsDecode : Prop :=
  ∀ (stream : List Byte) (i : Instr) (n : Nat), decode stream = .command i n →
    WellFormed i ∧ n ≤ stream.length ∧ encode i = stream.take n

/-- R128, R129: a header that is not malformed, with all the bytes of its command, is executed as
the command whose encoding these bytes are, and exactly `4 + A + len` bytes are consumed. -/
def Obligations.CompleteCommandIsExecuted : Prop :=
  ∀ (s : State) (op arg8 : Byte) (len : BitVec 16) (body rest : List Byte),
    s.input = [op, arg8, len.extractLsb' 0 8, len.extractLsb' 8 8] ++ body ++ rest →
    body.length = (if op = 0x01#8 ∨ op = 0x02#8 then 4 else 0) + len.toNat →
    ¬(op = 0x00#8 ∨ 9 ≤ op.toNat
      ∨ (op ∈ [0x03#8, 0x05#8, 0x06#8, 0x07#8, 0x08#8] ∧ (arg8 ≠ 0#8 ∨ len ≠ 0#16))
      ∨ (op = 0x01#8 ∧ len ≠ 0#16) ∨ (op = 0x04#8 ∧ arg8 ≠ 0#8)) →
    ∃ i : Instr, WellFormed i
      ∧ encode i = [op, arg8, len.extractLsb' 0 8, len.extractLsb' 8 8] ++ body
      ∧ step s = exec i { s with input := rest }

/-- R128, R209: a malformed command is not executed; the block emits `WARNING(BAD_COMMAND, hdr)`,
changes nothing else, and consumes the bytes R129 gives it. -/
def Obligations.MalformedCommandIsReportedAndSkipped : Prop :=
  ∀ (s : State) (op arg8 : Byte) (len : BitVec 16) (body rest : List Byte),
    s.input = [op, arg8, len.extractLsb' 0 8, len.extractLsb' 8 8] ++ body ++ rest →
    body.length = (if op = 0x01#8 ∨ op = 0x02#8 then 4 else 0) + len.toNat →
    (op = 0x00#8 ∨ 9 ≤ op.toNat
      ∨ (op ∈ [0x03#8, 0x05#8, 0x06#8, 0x07#8, 0x08#8] ∧ (arg8 ≠ 0#8 ∨ len ≠ 0#16))
      ∨ (op = 0x01#8 ∧ len ≠ 0#16) ∨ (op = 0x04#8 ∧ arg8 ≠ 0#8)) →
    step s = .next { s with
      input := rest
      events := s.events ++ [.warning .badCommand (len ++ arg8 ++ op)] }

/-- R130: a stream that ends inside a command leaves that command unexecuted and produces no event;
the step changes nothing, and the bytes wait for the rest (the idle step is the model's form of
waiting, log 2). -/
def Obligations.IncompleteCommandWaits : Prop :=
  ∀ s : State,
    (s.input.length < 4 → step s = .next s) ∧
    (∀ (op arg8 : Byte) (len : BitVec 16) (body : List Byte),
      s.input = [op, arg8, len.extractLsb' 0 8, len.extractLsb' 8 8] ++ body →
      body.length < (if op = 0x01#8 ∨ op = 0x02#8 then 4 else 0) + len.toNat →
      step s = .next s)

/-- R100, R130: bytes that arrive behind a complete command do not change what it does: arrival and
step commute. -/
def Obligations.LaterBytesDoNotMatter : Prop :=
  ∀ (s : State) (bytes : List Byte), decode s.input ≠ .incomplete →
    ∃ t, step s = .next t ∧ step (deliver bytes s) = .next (deliver bytes t)

/-- R14, R100: when the bytes at the front of the stream decode to a command, the step is that
command's meaning on the state without its bytes. -/
def Obligations.StepRunsTheDecodedCommand : Prop :=
  ∀ (s : State) (i : Instr) (n : Nat), decode s.input = .command i n →
    step s = exec i { s with input := s.input.drop n }

/-- R100, R715: a run over the bytes of a list of commands is that list executed in order, one whole
command a step, and it consumes all the bytes. -/
def Obligations.RunExecutesTheCommandsInOrder : Prop :=
  ∀ (is : List Instr) (s : State), (∀ i ∈ is, WellFormed i) →
    s.input = is.flatMap encode →
    Sys2Proof.core.run is.length s = runCommands is { s with input := [] }

/-- R154: the encoded examples, one for every command form, decode to their commands. -/
def Obligations.EncodedExamplesDecode : Prop :=
  decode [0x01, 0x00, 0x00, 0x00, 0x01, 0x40, 0x1F, 0x00] = .command (.cfgCodec 0 1 8000) 8
  ∧ decode [0x01, 0x08, 0x00, 0x00, 0x02, 0x40, 0x1F, 0x00] = .command (.cfgCodec 8 2 8000) 8
  ∧ decode [0x01, 0x09, 0x00, 0x00, 0x03, 0x80, 0x3E, 0x00] = .command (.cfgCodec 9 3 16000) 8
  ∧ decode [0x01, 0x6F, 0x00, 0x00, 0x04, 0x80, 0xBB, 0x00] = .command (.cfgCodec 111 4 48000) 8
  ∧ decode [0x02, 0x00, 0x02, 0x00, 0xA0, 0x00, 0x00, 0x00, 0xFF, 0xFF]
      = .command (.rtpIn 0 160 [0xFF, 0xFF]) 10
  ∧ decode [0x03, 0x00, 0x00, 0x00] = .command .ingPull 4
  ∧ decode [0x04, 0x00, 0x02, 0x00, 0x10, 0x27] = .command (.egrEnq [0x10, 0x27]) 6
  ∧ decode [0x05, 0x00, 0x00, 0x00] = .command .egrTick 4
  ∧ decode [0x06, 0x00, 0x00, 0x00] = .command .fadeReset 4
  ∧ decode [0x07, 0x00, 0x00, 0x00] = .command .egrClear 4
  ∧ decode [0x08, 0x00, 0x00, 0x00] = .command .callReset 4

/-- R600, R614: no state and no command stream makes the block fault, stick or refuse. -/
def Obligations.EveryStepCompletes : Prop := ∀ s : State, Safe s

/-- R140, R141: the event stream's byte form determines the events: codes, operands and payloads can
all be read back. -/
def Obligations.EventBytesDetermineTheEvents : Prop :=
  ∀ es fs : List Event, (∀ e ∈ es, EventFits e) → (∀ e ∈ fs, EventFits e) →
    encodeEvents es = encodeEvents fs → es = fs

/-! ## Codecs and the codec map (00_scope.md R8, R9; 40_commands.md R201) -/

/-- R8, R9: the four rates in Hz and the samples of a 20 ms frame at each, a fiftieth of the rate; and the
id, native rate, samples per frame, RTP increment and class of every codec. -/
def Obligations.CodecTableValues : Prop :=
  (∀ r : Rate, frameLen r = rateHz r / 50 ∧
    (rateHz r, frameLen r) =
      match r with
      | .r8000 => (8000, 160)
      | .r16000 => (16000, 320)
      | .r24000 => (24000, 480)
      | .r48000 => (48000, 960))
  ∧ ∀ c : Codec,
    (codecId c, rateHz (nativeRate c), frameLen (nativeRate c), rtpIncrement c, isWideband c) =
      match c with
      | .pcmu => (1#8, 8000, 160, 160#32, false)
      | .pcma => (2#8, 8000, 160, 160#32, false)
      | .g722 => (3#8, 16000, 320, 320#32, true)
      | .opus => (4#8, 48000, 960, 960#32, true)

/-- R201: a legal codec id is written to the payload type's entry and to the session codec, and
nothing else changes; any other id raises `BAD_COMMAND` with the argument word and changes nothing. -/
def Obligations.CfgCodecMapsThePayloadType : Prop :=
  ∀ (pt codec : Byte) (rate : BitVec 24) (s : State),
    (∀ c : Codec, codec = codecId c →
      ∃ m, exec (.cfgCodec pt codec rate) s = .next { s with codecMap := m, sessionCodec := some c }
        ∧ codecAt pt m = some c ∧ ∀ q, q ≠ pt → codecAt q m = codecAt q s.codecMap)
    ∧ (codec.toNat = 0 ∨ 5 ≤ codec.toNat →
      exec (.cfgCodec pt codec rate) s =
        .next { s with events := s.events ++ [.warning .badCommand (rate ++ codec)] })

/-! ## The jitter buffer's inserts (40_commands.md R202; 45_jitter_buffer.md R422 to R424) -/

/-- R202, R423: `RTP_IN` without a codec warns; with one, a late frame and a duplicate are dropped
silently, a frame at the cap with a warning, and any other frame is stored under its own key, every
other key keeping its frame, and the synchronisation check follows. -/
def Obligations.RtpInFollowsTheInsertChecks : Prop :=
  ∀ (pt : Byte) (ts : U32) (payload : List Byte) (s : State),
    let late := s.everSynced = true ∧ 2 ^ 31 ≤ (ts - s.nextExpected).toNat
    let duplicate := ∃ f ∈ s.jbMap, f.rtpTimestamp = ts
    (s.sessionCodec = none → exec (.rtpIn pt ts payload) s =
      .next { s with events := s.events ++ [.warning .noCodec ts] })
    ∧ (s.sessionCodec ≠ none → late ∨ duplicate → exec (.rtpIn pt ts payload) s = .next s)
    ∧ (s.sessionCodec ≠ none → ¬late → ¬duplicate → s.params.jbCap ≤ s.jbMap.length →
      exec (.rtpIn pt ts payload) s = .next { s with events := s.events ++ [.warning .jbOverflow ts] })
    ∧ (s.sessionCodec ≠ none → ¬late → ¬duplicate → s.jbMap.length < s.params.jbCap →
      ∃ m, exec (.rtpIn pt ts payload) s = .next (syncCheck { s with jbMap := m })
        ∧ m.length = s.jbMap.length + 1 ∧ jbLookup ts m = some ⟨pt, payload, ts⟩
        ∧ ∀ k, k ≠ ts → jbLookup k m = jbLookup k s.jbMap)

/-- R424: in Filling with the priming depth reached, the buffer synchronises on the lowest key, with
`JB_RESYNC` only where it had synchronised before and the expected timestamp moves; keys behind it
are purged (R435). Otherwise the check changes nothing. -/
def Obligations.SyncCheckStartsDraining : Prop :=
  ∀ s : State,
    (s.isSynchronized = true ∨ s.jbMap.length < s.params.jbPrimeDepth → syncCheck s = s)
    ∧ (∀ k, s.isSynchronized = false → s.params.jbPrimeDepth ≤ s.jbMap.length →
      lowest s.everSynced s.nextExpected s.jbMap = some k →
      syncCheck s = { s with
        nextExpected := k
        isSynchronized := true
        everSynced := true
        jbMap := s.jbMap.filter fun f => decide ((f.rtpTimestamp - k).toNat < 2 ^ 31)
        events := s.events ++
          if s.everSynced = true ∧ k ≠ s.nextExpected then [.jbResync s.nextExpected k] else [] })

/-- R422: `Lowest()` of a map that is not empty is one of its keys: after a first synchronisation
the one nearest after the expected timestamp; before it the one that is not after any other key, if
there is one, and else the unsigned smallest. The first-branch key is the only one of its kind. -/
def Obligations.LowestKeyIsTheSpecsChoice : Prop :=
  ∀ (synced : Bool) (expected : U32) (m : List RtpFrame), m ≠ [] →
    let earliest := fun k : U32 => ∀ j ∈ m, (j.rtpTimestamp - k).toNat < 2 ^ 31
    (∃ k, lowest synced expected m = some k ∧ (∃ f ∈ m, f.rtpTimestamp = k)
      ∧ (synced = true → ∀ j ∈ m, (k - expected).toNat ≤ (j.rtpTimestamp - expected).toNat)
      ∧ (synced = false → (∃ f ∈ m, earliest f.rtpTimestamp) → earliest k)
      ∧ (synced = false → (¬∃ f ∈ m, earliest f.rtpTimestamp) → ∀ j ∈ m, k.toNat ≤ j.rtpTimestamp.toNat))
    ∧ ∀ f ∈ m, ∀ g ∈ m, earliest f.rtpTimestamp → earliest g.rtpTimestamp →
        f.rtpTimestamp = g.rtpTimestamp

/-! ## Pulls (40_commands.md R203, R211, R212; 45_jitter_buffer.md R425 to R432) -/

/-- R203, R425: without a codec, or in Filling, a pull does nothing. -/
def Obligations.PullWithoutFrameDoesNothing : Prop :=
  ∀ s : State, s.sessionCodec = none ∨ s.isSynchronized = false → exec .ingPull s = .next s

/-- R426, R435, R203: the expected frame is removed, the missing count reset, the expected timestamp
advanced, stale keys purged; the frame is decoded, kept as the last decoded one, run through the
ingress DSP and the resampler, and emitted last. -/
def Obligations.PullDrainsTheExpectedFrame : Prop :=
  ∀ (s : State) (c : Codec) (f : RtpFrame),
    s.sessionCodec = some c → s.isSynchronized = true → jbLookup s.nextExpected s.jbMap = some f →
    let nx := s.nextExpected + rtpIncrement c
    let d := decodeRtp c f { s with
      jbMap := s.jbMap.filter fun g =>
        decide (g.rtpTimestamp ≠ s.nextExpected ∧ (g.rtpTimestamp - nx).toNat < 2 ^ 31)
      missingCount := 0#32
      nextExpected := nx }
    let y := ingressDsp s.params s.idsp d.1.1
    let out := convert s.params y.1 d.1.2 s.params.targetRate s.irs (frameLen s.params.targetRate)
    exec .ingPull s = .next { d.2 with
      lastDecoded := d.1.1
      lastDecodedRate := d.1.2
      idsp := y.2
      irs := out.2
      events := d.2.events ++ [.pcmFrameReady out.1] }

/-- R427, R430: a missing frame within JB_PLC_MAX is concealed: the last decoded frame, attenuated,
takes its place in the pipeline and becomes the last decoded one; the expected timestamp still
advances and stale keys are purged. -/
def Obligations.PullConcealsAMiss : Prop :=
  ∀ (s : State) (c : Codec) (count : U32),
    s.sessionCodec = some c → s.isSynchronized = true → jbLookup s.nextExpected s.jbMap = none →
    count.toNat = min (s.missingCount.toNat + 1) (2 ^ 32 - 1) → count.toNat ≤ s.params.jbPlcMax →
    let nx := s.nextExpected + rtpIncrement c
    let pcm := s.lastDecoded.map fun v => f32ToI16 (f32Mul (f32OfSample v) s.params.jbPlcGain)
    let y := ingressDsp s.params s.idsp pcm
    let out := convert s.params y.1 s.lastDecodedRate s.params.targetRate s.irs
      (frameLen s.params.targetRate)
    exec .ingPull s = .next { s with
      missingCount := count
      nextExpected := nx
      jbMap := s.jbMap.filter fun g => decide ((g.rtpTimestamp - nx).toNat < 2 ^ 31)
      lastDecoded := pcm
      idsp := y.2
      irs := out.2
      events := s.events ++ [.pcmFrameReady out.1] }

/-- R428, R429: a miss beyond JB_PLC_MAX sends the buffer back to Filling, with the count and nothing
else written, where fewer than JB_PRIME_DEPTH frames are stored; otherwise it jumps to the lowest
key: `JB_RESYNC` first, then that frame is drained and played by the same pull. -/
def Obligations.PullBeyondPlcRefillsOrResynchronises : Prop :=
  ∀ (s : State) (c : Codec) (count : U32),
    s.sessionCodec = some c → s.isSynchronized = true → jbLookup s.nextExpected s.jbMap = none →
    count.toNat = min (s.missingCount.toNat + 1) (2 ^ 32 - 1) → s.params.jbPlcMax < count.toNat →
    (s.jbMap.length < s.params.jbPrimeDepth →
      exec .ingPull s = .next { s with missingCount := count, isSynchronized := false })
    ∧ (s.params.jbPrimeDepth ≤ s.jbMap.length → s.jbMap ≠ [] →
      ∃ k f, lowest s.everSynced s.nextExpected s.jbMap = some k ∧ jbLookup k s.jbMap = some f ∧
        let nx := k + rtpIncrement c
        let d := decodeRtp c f { s with
          jbMap := s.jbMap.filter fun g =>
            decide (g.rtpTimestamp ≠ k ∧ (g.rtpTimestamp - nx).toNat < 2 ^ 31)
          missingCount := 0#32
          nextExpected := nx
          events := s.events ++ [.jbResync s.nextExpected k] }
        let y := ingressDsp s.params s.idsp d.1.1
        let out := convert s.params y.1 d.1.2 s.params.targetRate s.irs (frameLen s.params.targetRate)
        exec .ingPull s = .next { d.2 with
          lastDecoded := d.1.1
          lastDecodedRate := d.1.2
          idsp := y.2
          irs := out.2
          events := d.2.events ++ [.pcmFrameReady out.1] })

/-- R211: the codec is the one of the frame's own payload type; an unmapped one gives a full frame of
zeros at the session codec's rate and a warning; a fixed-rate payload that is not 160 bytes is
decoded as it stands, with a warning. -/
def Obligations.DecodeFollowsThePayloadType : Prop :=
  ∀ (session : Codec) (f : RtpFrame) (s : State),
    let checked := s.events ++
      if f.payload.length = 160 then []
      else [.warning .malformedLength (BitVec.ofNat 32 f.payload.length)]
    decodeRtp session f s =
      match codecAt f.payloadType s.codecMap with
      | none =>
        ((List.replicate (frameLen (nativeRate session)) 0#16, nativeRate session),
         { s with events := s.events ++ [.warning .unsupportedPt (f.payloadType.zeroExtend 32)] })
      | some .pcmu => ((f.payload.map mulawDecode, .r8000), { s with events := checked })
      | some .pcma => ((f.payload.map alawDecode, .r8000), { s with events := checked })
      | some .g722 =>
        (((g722Decode s.g722Dec f.payload).1, .r16000),
         { s with g722Dec := (g722Decode s.g722Dec f.payload).2, events := checked })
      | some .opus => (((opusDecodeStage f.payload s).1, .r48000), (opusDecodeStage f.payload s).2)

/-- R281, R282, R285: a successful Opus decode resets the failure count and is downmixed where it is
stereo: sample `i` is the mean of the pair `2i`, `2i+1`, truncated toward zero. A failure counts,
warns with the count, reports a call-level error when the count becomes OPUS_FAIL_LIMIT (a saturated
count does not become it again, log 17), and gives 960 zeros. -/
def Obligations.OpusDecodeDownmixesOrCountsTheFailure : Prop :=
  ∀ (payload : List Byte) (s : State),
    let r := opusDecode s.opusDec payload
    let stage := opusDecodeStage payload s
    let count := if s.opusDecFail = 0xFFFFFFFF#32 then s.opusDecFail else s.opusDecFail + 1#32
    match r.2 with
    | .ok samples stereo =>
      stage.2 = { s with opusDec := r.1, opusDecFail := 0#32 }
      ∧ if stereo = true then
          stage.1.length = samples.length / 2
          ∧ ∀ i, i < samples.length / 2 → (stage.1.getD i 0#16).toInt =
            ((samples.getD (2 * i) 0#16).toInt + (samples.getD (2 * i + 1) 0#16).toInt).tdiv 2
        else stage.1 = samples
    | .fail =>
      stage = (List.replicate 960 0#16,
        { s with
          opusDec := r.1
          opusDecFail := count
          events := s.events ++ [.warning .opusDecodeFail count] ++
            if count ≠ s.opusDecFail ∧ count.toNat = s.params.opusFailLimit then [.callError .decoder count]
            else [] })

/-- R212, R214, R605: a pull emits exactly one `PCM_FRAME_READY`, of N(TARGET_RATE) samples and last,
when the jitter buffer answers a frame or a concealment, and no event otherwise; before it come at
most one `JB_RESYNC` and then the decode warnings, in that order. -/
def Obligations.PullEmitsOneFrameLast : Prop :=
  ∀ (s : State) (c : Codec), s.sessionCodec = some c →
    ∃ t, exec .ingPull s = .next t ∧
      (((jbPull (rtpIncrement c) s).1 = .nothing ∧ t.events = s.events) ∨
       ((jbPull (rtpIncrement c) s).1 ≠ .nothing ∧ ∃ jump warnings out,
        t.events = s.events ++ jump ++ warnings ++ [.pcmFrameReady out]
        ∧ out.length = frameLen s.params.targetRate
        ∧ (jump = [] ∨ ∃ k, jump = [.jbResync s.nextExpected k])
        ∧ (warnings = [] ∨ (∃ n, warnings = [.warning .unsupportedPt n])
          ∨ (∃ n, warnings = [.warning .malformedLength n])
          ∨ (∃ n, warnings = [.warning .opusDecodeFail n])
          ∨ (∃ n, warnings = [.warning .opusDecodeFail n, .callError .decoder n]))))

/-- R431: over any list of commands without a reset, from any state the invariant admits whose
buffer has synchronised, as long as the expected timestamp moves less than 2^31 units, the
timestamps of the drained frames are strictly increasing in serial order: none is drained twice. -/
def Obligations.DrainedTimestampsIncrease : Prop :=
  ∀ (is : List Instr) (s : State), legalParams s.params = true → JbInv s → s.everSynced = true →
    (∀ i ∈ is, WellFormed i ∧ i ≠ .callReset) → timestampSpan is s < 2 ^ 31 →
    ((pullOutcomes is s).filterMap drainedTimestamp).Pairwise fun a b => serialBefore a b = true

/-- R432: over any list of commands without a reset, from any state, at most JB_PLC_MAX consecutive
pulls answer a concealment. -/
def Obligations.ConcealmentIsBounded : Prop :=
  ∀ (is : List Instr) (s : State) (k : Nat), legalParams s.params = true →
    (∀ i ∈ is, i ≠ .callReset) → List.replicate k .conceal <:+: pullOutcomes is s →
    k ≤ s.params.jbPlcMax

/-! ## Egress (40_commands.md R204 to R207; 46_playout.md R461 to R474) -/

/-- R462, R97: the payload becomes whole frames of N(TARGET_RATE) samples, `ceil(m / B)` of them,
sample `k` of frame `j` being the little-endian pair at byte `B*j + 2k`, bytes past the end being 0;
they are appended in order, and the oldest frames beyond EGR_QUEUE_CAP are dropped. -/
def Obligations.EgrEnqQueuesWholeFrames : Prop :=
  ∀ (payload : List Byte) (s : State),
    1 ≤ s.params.egrQueueCap → s.queue.length ≤ s.params.egrQueueCap →
    let n := frameLen s.params.targetRate
    ∃ added : List Frame,
      exec (.egrEnq payload) s = .next { s with
        queue := (s.queue ++ added).drop (s.queue.length + added.length - s.params.egrQueueCap) }
      ∧ added.length = (payload.length + 2 * n - 1) / (2 * n)
      ∧ (∀ f ∈ added, f.length = n)
      ∧ ∀ j k, j < added.length → k < n →
        (added.getD j []).getD k 0#16 =
          payload.getD (2 * n * j + 2 * k + 1) 0#8 ++ payload.getD (2 * n * j + 2 * k) 0#8

/-- R465, R466: a tick that finds the lock set is skipped, and a tick without a codec does nothing. -/
def Obligations.TickIsSkippedWhenBusyOrWithoutCodec : Prop :=
  ∀ s : State, s.tickBusy = true ∨ s.sessionCodec = none → exec .egrTick s = .next s

/-- R467, R464: below the threshold of the codec's class, a tick that is not primed sends ramped
silence as a frame that is not real, and changes neither the queue nor the underrun count. -/
def Obligations.PrimingTickSendsRampedSilence : Prop :=
  ∀ (s : State) (c : Codec), s.tickBusy = false → s.sessionCodec = some c → s.primed = false →
    s.queue.length < (if c = .pcmu ∨ c = .pcma then s.params.egrPrimeNb else s.params.egrPrimeWb) →
    exec .egrTick s =
      .next (emitEncoded c (rampedSilence s.params s.edsp (frameLen (nativeRate c))) false s)

/-- R468, R469, R467: once primed, or with the threshold reached, a tick dequeues the oldest frame,
resets the underrun count, resamples to the native rate, runs the egress chain, keeps the result as
the last full frame and sends it as a real one. -/
def Obligations.SteadyTickPlaysTheOldestFrame : Prop :=
  ∀ (s : State) (c : Codec) (f : Frame) (rest : List Frame),
    s.tickBusy = false → s.sessionCodec = some c → s.queue = f :: rest →
    (s.primed = true ∨
      (if c = .pcmu ∨ c = .pcma then s.params.egrPrimeNb else s.params.egrPrimeWb) ≤ s.queue.length) →
    let x := convert s.params f s.params.targetRate (nativeRate c) s.ers (frameLen (nativeRate c))
    let y := egressDsp s.params s.edsp x.1
    exec .egrTick s = .next (emitEncoded c y.1 true { s with
      primed := true
      queue := rest
      underrunCount := 0#32
      ers := x.2
      edsp := { y.2 with lastFullFrame := y.1 } })

/-- R470: on an empty queue, while the count is within UNDERRUN_INTERP and a frame of the current
length is held, a tick sends that frame times `max(0, 1 - count * UNDERRUN_STEP)`, not as real. -/
def Obligations.BriefUnderrunReplaysTheLastFrame : Prop :=
  ∀ (s : State) (c : Codec) (count : U32),
    s.tickBusy = false → s.sessionCodec = some c → s.primed = true → s.queue = [] →
    count.toNat = min (s.underrunCount.toNat + 1) (2 ^ 32 - 1) →
    count.toNat ≤ s.params.underrunInterp → s.edsp.lastFullFrame.length = frameLen (nativeRate c) →
    let g := f32Max f32Zero (f32Sub f32One (f32Mul (f32OfInt count.toNat) s.params.underrunStep))
    exec .egrTick s = .next (emitEncoded c
      (s.edsp.lastFullFrame.map fun v => f32ToI16 (f32Mul (f32OfSample v) g)) false
      { s with underrunCount := count })

/-- R465, R470, R471: on an empty queue otherwise, a tick sends ramped silence; `QUEUE_DRAINED` follows
when the count becomes UNDERRUN_INTERP + 1 (a saturated count does not become it again, log 17), and in
jitter-priming mode a count above UNDERRUN_INTERP clears `primed`. -/
def Obligations.SustainedUnderrunDrains : Prop :=
  ∀ (s : State) (c : Codec) (count : U32),
    s.tickBusy = false → s.sessionCodec = some c → s.primed = true → s.queue = [] →
    count.toNat = min (s.underrunCount.toNat + 1) (2 ^ 32 - 1) →
    (s.params.underrunInterp < count.toNat ∨ s.edsp.lastFullFrame.length ≠ frameLen (nativeRate c)) →
    let t := emitEncoded c (rampedSilence s.params s.edsp (frameLen (nativeRate c))) false
      { s with underrunCount := count }
    exec .egrTick s = .next { t with
      events := t.events ++
        if count ≠ s.underrunCount ∧ count.toNat = s.params.underrunInterp + 1 then [.queueDrained] else []
      primed :=
        if s.params.jitterPrimingMode = true ∧ s.params.underrunInterp < count.toNat then false
        else true }

/-- R472, R396, R283, R284, R144: the frame's last sample, the tail and the silence flag are noted
whether or not the encoder fails; then the encoded frame is sent with the codec and its increment.
Only Opus can fail: its failures count, warn, report when the count becomes the limit (a saturated count
does not become it again, R285, log 17), and send nothing. -/
def Obligations.EmitEncodedNotesAndSends : Prop :=
  ∀ (c : Codec) (f : Frame) (real : Bool) (s : State),
    let e := { s.edsp with
      lastOutputSample := f.getLast?.getD s.edsp.lastOutputSample
      tail := (s.edsp.tail ++ f).drop ((s.edsp.tail ++ f).length - s.params.xfadeLen)
      lastFrameWasSilence := !real }
    let r := opusEncode s.opusEnc f
    let count := if s.opusEncFail = 0xFFFFFFFF#32 then s.opusEncFail else s.opusEncFail + 1#32
    emitEncoded c f real s =
      match c, r.2 with
      | .pcmu, _ =>
        { s with edsp := e, events := s.events ++ [.encFrameReady .pcmu 160#32 (f.map mulawEncode)] }
      | .pcma, _ =>
        { s with edsp := e, events := s.events ++ [.encFrameReady .pcma 160#32 (f.map alawEncode)] }
      | .g722, _ =>
        { s with
          edsp := e
          g722Enc := (g722Encode s.g722Enc f).2
          events := s.events ++ [.encFrameReady .g722 320#32 (g722Encode s.g722Enc f).1] }
      | .opus, .ok payload =>
        { s with
          edsp := e
          opusEnc := r.1
          opusEncFail := 0#32
          events := s.events ++ [.encFrameReady .opus 960#32 payload] }
      | .opus, .fail =>
        { s with
          edsp := e
          opusEnc := r.1
          opusEncFail := count
          events := s.events ++ [.warning .opusEncodeFail count] ++
            if count ≠ s.opusEncFail ∧ count.toNat = s.params.opusFailLimit then [.callError .encoder count]
            else [] }

/-- R465, R473, R144, R605; R280 for the 1 to 65535 bytes of an Opus packet, a bound that log 5 (DESIGN
CHOICE) imposes on the free library; R252 and R286 for the codec states: with a codec and the lock free, every tick emits exactly one `ENC_FRAME_READY` of
the session codec with its increment, 160 bytes for the fixed-rate codecs and 1 to 65535 for Opus,
or instead the Opus failure reports; then at most one `QUEUE_DRAINED`; and the G.722 encoder state
and the Opus states are written only for their own codec. -/
def Obligations.TickSendsOneWholeFrame : Prop :=
  ∀ (s : State) (c : Codec), s.tickBusy = false → s.sessionCodec = some c →
    ∃ t sent drained, exec .egrTick s = .next t ∧ t.events = s.events ++ sent ++ drained
      ∧ (drained = [] ∨ drained = [.queueDrained])
      ∧ ((∃ payload, sent = [.encFrameReady c (rtpIncrement c) payload]
          ∧ 1 ≤ payload.length ∧ payload.length ≤ 65535 ∧ (c ≠ .opus → payload.length = 160))
        ∨ (c = .opus ∧ ∃ n, sent = [.warning .opusEncodeFail n]
            ∨ sent = [.warning .opusEncodeFail n, .callError .encoder n]))
      ∧ (c ≠ .g722 → t.g722Enc = s.g722Enc)
      ∧ (c ≠ .opus → t.opusEnc = s.opusEnc ∧ t.opusEncFail = s.opusEncFail)

/-- R206, R207: `FADE_RESET` sets `needs_fade_in`, `EGR_CLEAR` empties the queue, and neither changes
anything else. -/
def Obligations.FadeResetAndEgrClearWriteOneElement : Prop :=
  ∀ s : State,
    exec .fadeReset s = .next { s with edsp := { s.edsp with needsFadeIn := true } }
    ∧ exec .egrClear s = .next { s with queue := [] }

/-! ## Reset (10_state.md R56; 70_reset_and_hazards.md R700, R702) -/

/-- R700, R208: `CALL_RESET` puts every element at its reset value and leaves the events as they are;
the constants and the bytes still to come are no elements (log 1, log 2). -/
def Obligations.CallResetRestoresEveryElement : Prop :=
  ∀ s : State, exec .callReset s = .next
    { params := s.params
      input := s.input
      codecMap := []
      sessionCodec := none
      jbMap := []
      nextExpected := 0#32
      isSynchronized := false
      everSynced := false
      missingCount := 0#32
      lastDecoded := []
      lastDecodedRate := .r8000
      g722Dec := ⟨0#16, 0#16⟩
      g722Enc := ⟨0#16, 0#16⟩
      opusDec := Config.opusDecInit
      opusEnc := Config.opusEncInit
      opusDecFail := 0#32
      opusEncFail := 0#32
      idsp := ⟨0#32, 0#32, s.params.agcTarget, 0x3F800000#32, false, 0#32⟩
      irs := ⟨0#64, 0#16, 0#32, 0#32⟩
      ers := ⟨0#64, 0#16, 0#32, 0#32⟩
      queue := []
      primed := false
      underrunCount := 0#32
      tickBusy := false
      edsp := ⟨0x3F800000#32, true, true, 0#16, [], false, List.replicate s.params.xfadeLen 0#16⟩
      events := s.events }

/-- R702, R56: the machine right after reset is the power-on state: what `CALL_RESET` makes of any
state with the default constants, with no event and no byte of a command. -/
def Obligations.ResetIsPowerOn : Prop :=
  State.reset.params = {} ∧ State.reset.events = [] ∧ State.reset.input = []
  ∧ ∀ s : State, s.params = {} → s.input = [] →
    exec .callReset s = .next { State.reset with events := s.events }

/-- R99: `FADE_RESET`, `EGR_CLEAR`, `CALL_RESET` and `CFG_CODEC` with the same operands are idempotent
on the state; `RTP_IN` of a stored frame changes nothing the second time. -/
def Obligations.RepeatedCommandsAreIdempotent : Prop :=
  ∀ (i : Instr) (s t : State), exec i s = .next t →
    (i = .fadeReset ∨ i = .egrClear ∨ i = .callReset
      ∨ (∃ pt c rate, i = .cfgCodec pt (codecId c) rate)
      ∨ (∃ pt ts payload, i = .rtpIn pt ts payload ∧ ∃ f ∈ t.jbMap, f.rtpTimestamp = ts)) →
    s.sessionCodec ≠ none ∨ (∀ pt ts payload, i ≠ .rtpIn pt ts payload) →
    exec i t = .next t

/-! ## Invariants of every step -/

/-- The invariant holds of the power-on state of every block with legal constants, the machine after
reset among them. -/
def Obligations.PowerOnMeetsTheInvariant : Prop :=
  legalParams {} = true ∧ ∀ p : Params, legalParams p = true → Inv p (State.powerOn p)

/-- R57, R433, R461, R396, R466: every step from a state that meets the invariant meets it again: both
maps keep their canonical form, the jitter buffer and the queue their bounds, no stored key is
behind the expected timestamp, queued frames are whole, the tail has its length, the lock is free,
every f32 element is finite (where the operations themselves would give no finite value, by the free
value of logs 18 and 19) and both phases lie in [0, 1). -/
def Obligations.EveryStepKeepsTheInvariant : Prop :=
  ∀ (p : Params) (s t : State), legalParams p = true → Inv p s → step s = .next t → Inv p t

/-- R398: from any state whose kept egress samples are within LIM_C, every step leaves them within it,
and every frame the egress chain makes is within it: real, interpolated and silent ones. -/
def Obligations.EgressNeverExceedsTheCeiling : Prop :=
  ∀ (s : State), legalParams s.params = true → CeilingInv s →
    (∀ t, step s = .next t → CeilingInv t)
    ∧ (∀ f, ∀ v ∈ (egressDsp s.params s.edsp f).1, WithinCeiling s.params v)
    ∧ (∀ count, ∀ v ∈ interpolatedFrame s.params count s.edsp.lastFullFrame, WithinCeiling s.params v)
    ∧ (∀ n, ∀ v ∈ rampedSilence s.params s.edsp n, WithinCeiling s.params v)

/-- R54, R710, R7: a command only appends to the events, changes no constant and touches no byte of
the commands behind it. -/
def Obligations.CommandsOnlyAppendEvents : Prop :=
  ∀ (i : Instr) (s t : State), exec i s = .next t →
    t.params = s.params ∧ t.input = s.input ∧ ∃ es, t.events = s.events ++ es

/-- R201 to R208 (the state each command writes), R286, R709: but for `CALL_RESET`, which writes all of it,
only `ING_PULL` writes the decoder states, the ingress DSP, the ingress resampler and the concealment
state, and only it and `RTP_IN` the jitter buffer; only `EGR_TICK` writes the encoder states, the egress
resampler, `primed`, the underrun count and the lock, only it and `FADE_RESET` the egress DSP state, and
only it, `EGR_ENQ` and `EGR_CLEAR` the queue; only `CFG_CODEC` writes the codec map and the session
codec. -/
def Obligations.EachDirectionWritesItsOwnState : Prop :=
  ∀ (i : Instr) (s t : State), exec i s = .next t → i ≠ .callReset →
    (i ≠ .ingPull →
      t.g722Dec = s.g722Dec ∧ t.opusDec = s.opusDec ∧ t.opusDecFail = s.opusDecFail
      ∧ t.idsp = s.idsp ∧ t.irs = s.irs ∧ t.lastDecoded = s.lastDecoded
      ∧ t.lastDecodedRate = s.lastDecodedRate ∧ t.missingCount = s.missingCount
      ∧ ((∀ pt ts payload, i ≠ .rtpIn pt ts payload) → t.jbMap = s.jbMap
        ∧ t.nextExpected = s.nextExpected ∧ t.isSynchronized = s.isSynchronized
        ∧ t.everSynced = s.everSynced))
    ∧ (i ≠ .egrTick →
      t.g722Enc = s.g722Enc ∧ t.opusEnc = s.opusEnc ∧ t.opusEncFail = s.opusEncFail
      ∧ t.ers = s.ers ∧ t.primed = s.primed ∧ t.underrunCount = s.underrunCount
      ∧ t.tickBusy = s.tickBusy ∧ (i ≠ .fadeReset → t.edsp = s.edsp)
      ∧ (i ≠ .egrClear → (∀ payload, i ≠ .egrEnq payload) → t.queue = s.queue))
    ∧ ((∀ pt codec rate, i ≠ .cfgCodec pt codec rate) →
      t.codecMap = s.codecMap ∧ t.sessionCodec = s.sessionCodec)

/-- R460: a tick never reads the jitter buffer or the ingress state: two states that agree on the
egress side emit the same events and agree on it again, and no tick changes the ingress side. -/
def Obligations.TickIgnoresTheIngressSide : Prop :=
  ∀ s t : State, SameEgress s t →
    ∃ s' t' es, exec .egrTick s = .next s' ∧ exec .egrTick t = .next t' ∧ SameEgress s' t'
      ∧ SameIngress s s' ∧ s'.events = s.events ++ es ∧ t'.events = t.events ++ es

/-- R203 (what a pull reads and writes), R286, R323, R350: a pull never reads the egress side: two states that agree on the ingress side emit the same
events and agree on it again, and no pull changes the egress side. -/
def Obligations.PullIgnoresTheEgressSide : Prop :=
  ∀ s t : State, SameIngress s t →
    ∃ s' t' es, exec .ingPull s = .next s' ∧ exec .ingPull t = .next t' ∧ SameIngress s' t'
      ∧ SameEgress s s' ∧ s'.events = s.events ++ es ∧ t'.events = t.events ++ es

/-- R55: no command writes a flag but those its table lists, and in the direction it lists. -/
def Obligations.FlagsAreWrittenOnlyByTheListedCommands : Prop :=
  ∀ (f : Flag) (i : Instr) (s t : State), exec i s = .next t → readFlag f t ≠ readFlag f s →
    flagWriter f (readFlag f t) i = true

/-! ## Codecs (41_codecs.md) -/

/-- R267: from equal states, the decoder ends in the encoder's state, and for each pair puts out the
sum and difference of the encoder's integrators after that pair. -/
def Obligations.G722DecoderTracksTheEncoder : Prop :=
  ∀ (g : G722State) (f : Frame),
    let code := (g722Encode g f).1
    (g722Decode g code).2 = (g722Encode g f).2
    ∧ (g722Decode g code).1.length = 2 * ((f.length + 1) / 2)
    ∧ ∀ k, k < (f.length + 1) / 2 →
      let after := (g722Encode g (f.take (2 * (k + 1)))).2
      (g722Decode g code).1.getD (2 * k) 0#16 = sat16 (after.lo.toInt + after.hi.toInt)
      ∧ (g722Decode g code).1.getD (2 * k + 1) 0#16 = sat16 (after.lo.toInt - after.hi.toInt)

/-- R258: the round-trip bounds of both laws over every sample, the extremes, and the codes that
re-encode to themselves. The exponent and the segment are the code's own fields (R253, R255). -/
def Obligations.G711RoundTripsWithinItsBounds : Prop :=
  (∀ x : Sample,
    let u := mulawDecode (mulawEncode x)
    let e := ((~~~(mulawEncode x)).extractLsb' 4 3).toNat
    let a := alawDecode (alawEncode x)
    let seg := ((alawEncode x ^^^ 0x55#8).extractLsb' 4 3).toNat
    (x.toInt.natAbs ≤ 32124 → (u.toInt - x.toInt).natAbs ≤ 2 ^ (e + 2))
    ∧ (32124 < x.toInt.natAbs → u.toInt.natAbs = 32124)
    ∧ (u.toInt - x.toInt).natAbs ≤ 644
    ∧ (x.toInt.natAbs ≤ 32256 → (a.toInt - x.toInt).natAbs ≤ if seg < 2 then 8 else 2 ^ (seg + 2))
    ∧ (a.toInt - x.toInt).natAbs ≤ 512)
  ∧ (mulawDecode (mulawEncode 0x8000#16)).toInt = -32124
  ∧ (mulawDecode (mulawEncode 0x7FFF#16)).toInt = 32124
  ∧ (alawDecode (alawEncode 0#16)).toInt = 8
  ∧ (alawDecode (alawEncode 0x7FFF#16)).toInt = 32256
  ∧ (alawDecode (alawEncode 0x8001#16)).toInt = -32256
  ∧ (∀ b : Byte, mulawEncode (mulawDecode b) = if b = 0x7F#8 then 0xFF#8 else b)
  ∧ (∀ b : Byte, alawEncode (alawDecode b) = b)

/-! ## The DSP chains (43_ingress_dsp.md, 44_egress_dsp.md) -/

/-- R359: every output sample of the ingress chain is within `to_i16(ING_CEIL)`, 32000 at the default,
for any input and any state of the chain. -/
def Obligations.IngressOutputIsWithinItsCeiling : Prop :=
  f32ToI16 ({} : Params).ingCeil = 32000#16
  ∧ ∀ (p : Params) (d : IngressDspState) (x : Frame), legalParams p = true →
    ∀ v ∈ (ingressDsp p d x).1, v.toInt.natAbs ≤ (f32ToI16 p.ingCeil).toInt.natAbs

/-- R350, R357: the chain keeps the frame's length; the filters and the gate run on every frame; and
while the gate is closed after its update, the output is all zero and the AGC's estimate and gain are
frozen. -/
def Obligations.ClosedGateMutesAndFreezesTheAgc : Prop :=
  ∀ (p : Params) (d : IngressDspState) (x : Frame),
    let r := ingressDsp p d x
    let filtered := dcAndPreemphasis p d x
    let gate := gateUpdate p filtered.2 (frameRms filtered.1)
    r.1.length = x.length
    ∧ r.2.dcEstimate = filtered.2.dcEstimate ∧ r.2.preemphasisPrev = filtered.2.preemphasisPrev
    ∧ r.2.gateOpen = gate.gateOpen ∧ r.2.gateHoldCounter = gate.gateHoldCounter
    ∧ (r.2.gateOpen = false → r.1 = List.replicate x.length 0#16
      ∧ r.2.rmsEstimate = d.rmsEstimate ∧ r.2.agcGain = d.agcGain)

/-- R350, R355, R356, R57: on a frame that leaves the gate open, the estimate and the gain are R355's
formulas' values where these are finite, and finite in any case, and every filtered sample is multiplied
by the new gain and clipped; the target is within [AGC_MIN, AGC_MAX]; and from a finite gain within
[min(AGC_MIN, 1), max(AGC_MAX, 1)] R355's formula gives a finite value within it, for every frame, where
AGC_STEP is below 1. With AGC_STEP = 1 the rounding of R13 can leave R355's interval (log 18): then the
formula's value is not negative and at most one place above the interval. An estimate that is finite
and not negative stays so for every frame RMS up to 2^100. -/
def Obligations.OpenGateMovesTheAgcWithinItsBounds : Prop :=
  ∀ (p : Params) (d : IngressDspState), legalParams p = true →
    let lo := f32Min p.agcMin f32One
    let hi := f32Max p.agcMax f32One
    (∀ x : Frame,
      let r := ingressDsp p d x
      let filtered := dcAndPreemphasis p d x
      let estimate := f32Add (f32Mul p.agcRmsCoef d.rmsEstimate)
        (f32Mul (f32Sub f32One p.agcRmsCoef) (frameRms filtered.1))
      let target :=
        if f32Lt f32Zero r.2.rmsEstimate = true then
          f32Min (f32Max (f32Div p.agcTarget r.2.rmsEstimate) p.agcMin) p.agcMax
        else p.agcMax
      let gain := f32Add d.agcGain (f32Mul p.agcStep (f32Sub target d.agcGain))
      (r.2.gateOpen = true →
        f32Finite r.2.rmsEstimate = true ∧ (f32Finite estimate = true → r.2.rmsEstimate = estimate)
        ∧ f32Finite r.2.agcGain = true ∧ (f32Finite gain = true → r.2.agcGain = gain)
        ∧ r.1 = filtered.1.map fun y =>
          f32ToI16 (f32Min (f32Max (f32Mul y r.2.agcGain) (f32Neg p.ingCeil)) p.ingCeil))
      ∧ f32Finite target = true ∧ f32AtMost p.agcMin target = true ∧ f32AtMost target p.agcMax = true
      ∧ (f32Finite d.agcGain = true → f32AtMost lo d.agcGain = true → f32AtMost d.agcGain hi = true →
        gain.toNat ≤ hi.toNat + 1
        ∧ (f32Lt p.agcStep f32One = true → f32Finite gain = true
          ∧ f32AtMost lo gain = true ∧ f32AtMost gain hi = true)))
    ∧ ∀ rms : F32, f32NotNegative d.rmsEstimate = true → f32NotNegative rms = true →
      f32AtMost rms 0x71800000#32 = true → f32NotNegative (agcUpdate p d rms).rmsEstimate = true

/-- R354: an open gate whose count is 0 stays open through fewer than GATE_HOLD consecutive frames below
GATE_CLOSE, closes on the one that reaches GATE_HOLD, and a frame that is not below it starts the
count again; a closed gate opens exactly on a frame above GATE_OPEN. -/
def Obligations.GateClosesOnlyAfterTheHold : Prop :=
  ∀ (p : Params) (d : IngressDspState) (quiet : List F32) (rms : F32), legalParams p = true →
    (d.gateOpen = true → d.gateHoldCounter = 0#32 → (∀ q ∈ quiet, f32Lt q p.gateClose = true) →
      (quiet.length < p.gateHold → (quiet.foldl (gateUpdate p) d).gateOpen = true
        ∧ (quiet.foldl (gateUpdate p) d).gateHoldCounter.toNat = quiet.length)
      ∧ (quiet.length = p.gateHold → (quiet.foldl (gateUpdate p) d).gateOpen = false
        ∧ (quiet.foldl (gateUpdate p) d).gateHoldCounter = 0#32))
    ∧ (d.gateOpen = true → f32Lt rms p.gateClose = false →
      gateUpdate p d rms = { d with gateHoldCounter := 0#32 })
    ∧ (d.gateOpen = false → ((gateUpdate p d rms).gateOpen = true ↔ f32Lt p.gateOpen rms = true))

/-- R392: the limiter's gain stays in (0, 1], for every frame and all legal constants. -/
def Obligations.LimiterGainStaysInTheUnitRange : Prop :=
  ∀ (p : Params) (e : EgressDspState) (f : Frame), legalParams p = true →
    f32Lt f32Zero e.limiterGain = true → f32Lt f32One e.limiterGain = false →
    f32Lt f32Zero (egressDsp p e f).2.limiterGain = true
    ∧ f32Lt f32One (egressDsp p e f).2.limiterGain = false

/-- R19: TANH32, the reference as well as the free function of log 6, is 0 at 0, at most 1 and monotone
on the finite values that are not negative. -/
def Obligations.TanhIsMonotoneUpToOne : Prop :=
  ∀ (choice : TanhChoice) (u v : F32), u.toNat ≤ v.toNat → v.toNat < 0x7F800000 →
    tanh32 choice 0#32 = 0#32 ∧ (tanh32 choice u).toNat ≤ (tanh32 choice v).toNat
    ∧ (tanh32 choice v).toNat ≤ 0x3F800000

/-- R395: ramped silence never exceeds the sample it starts from, and is 0 from sample
`SIL_RAMP_LEN - 1` on; from a last sample of 0 it is all zeros. -/
def Obligations.RampedSilenceFallsToZero : Prop :=
  ∀ (p : Params) (e : EgressDspState) (n k : Nat), legalParams p = true → k < n →
    ((rampedSilence p e n).getD k 1#16).toInt.natAbs ≤ e.lastOutputSample.toInt.natAbs
    ∧ (p.silRampLen ≤ k + 1 → (rampedSilence p e n).getD k 1#16 = 0#16)
    ∧ (e.lastOutputSample = 0#16 → (rampedSilence p e n).getD k 1#16 = 0#16)

/-- R474: an interpolated sample's magnitude falls with the count for all legal constants, and at the
defaults it falls strictly over counts 1, 2, 3 for every sample of magnitude at least 4. -/
def Obligations.UnderrunFadeFalls : Prop :=
  let faded := fun (p : Params) (count : U32) (v : Sample) =>
    (f32ToI16 (f32Mul (f32OfSample v) (underrunGain p count))).toInt.natAbs
  (∀ (p : Params) (i j : U32) (v : Sample), legalParams p = true → i.toNat ≤ j.toNat →
    faded p j v ≤ faded p i v)
  ∧ ∀ v : Sample, 4 ≤ v.toInt.natAbs →
    faded {} 1#32 v > faded {} 2#32 v ∧ faded {} 2#32 v > faded {} 3#32 v

/-! ## The resampler (42_resampler.md) -/

/-- R310: a conversion returns exactly the samples requested, whatever the input's length. -/
def Obligations.ConvertReturnsExactlyTheRequest : Prop :=
  ∀ (p : Params) (inp : Frame) (src dst : Rate) (rs : ResamplerState) (n : Nat),
    (convert p inp src dst rs n).1.length = n

/-- R322, R57: the phase stays in [0, 1) over every conversion to a full frame, whatever the input's length;
and on full frames from phase 0 it stays 0, for every pair of rates. -/
def Obligations.PhaseStaysInTheUnitInterval : Prop :=
  ∀ (p : Params) (inp : Frame) (src dst : Rate) (rs : ResamplerState),
    let after := (convert p inp src dst rs (frameLen dst)).2
    (f64Lt rs.fractionalPhase f64Zero = false → f64Lt rs.fractionalPhase f64One = true →
      f64Lt after.fractionalPhase f64Zero = false ∧ f64Lt after.fractionalPhase f64One = true)
    ∧ (inp.length = frameLen src → rs.fractionalPhase = 0#64 → after.fractionalPhase = 0#64)

/-! ## Arithmetic (00_scope.md R12, R13, R20) -/

/-- R13: rounding a fraction gives the nearest pattern of the format, the even one on a tie, infinity
standing for the value that would follow the largest finite one. -/
def Obligations.RoundingIsToNearestEven : Prop :=
  ∀ (f : FloatFormat) (num den : Nat), f = binary32 ∨ f = binary64 → 0 < den →
    let error := fun q : Nat => ((num : Int) - den * magUnits f q).natAbs
    roundMag f num den ≤ f.inf
    ∧ ∀ q, q ≤ f.inf → error (roundMag f num den) < error q
      ∨ (error (roundMag f num den) = error q ∧ (q = roundMag f num den ∨ roundMag f num den % 2 = 0))

/-- R20: the binary64 square root is correctly rounded: with `n` the square of the exact root in
units, no other finite pattern's value is nearer to the root. -/
def Obligations.SquareRootIsCorrectlyRounded : Prop :=
  ∀ a r : Nat, 0 < a → a < binary64.inf → sqrtPattern binary64 a = some r →
    let n := magUnits binary64 a * 2 ^ 1074
    ∀ q, q < binary64.inf →
      (magUnits binary64 q < magUnits binary64 r → (magUnits binary64 q + magUnits binary64 r) ^ 2 ≤ 4 * n)
      ∧ (magUnits binary64 r < magUnits binary64 q →
        4 * n ≤ (magUnits binary64 q + magUnits binary64 r) ^ 2)

/-- R12: a sample converted to binary32 or binary64 and back is itself: the conversions are exact. -/
def Obligations.SampleConversionsAreExact : Prop :=
  ∀ s : Sample, f32ToI16 (f32OfSample s) = s ∧ f64ToI16 (f64OfInt s.toInt) = s
    ∧ unitsOf binary32 (f32OfSample s).toNat = s.toInt * 2 ^ 149
    ∧ unitsOf binary64 (f64OfInt s.toInt).toNat = s.toInt * 2 ^ 1074
end

