-- ==== Sys2Proof/Laws/Decode.lean ====
section
/-! SUPPORT. The decoder's parts: what a complete body is, the header's bytes and back, and what the
encoder puts out (30_encoding.md R121 to R129). -/

namespace Sys2Proof.Laws

open Sys2Proof.Machine

theorem hasAtLeast_iff {α : Type} (n : Nat) (l : List α) : hasAtLeast n l = true ↔ n ≤ l.length := by
  induction n generalizing l with
  | zero => simp [hasAtLeast]
  | succ n ih =>
    cases l with
    | nil => simp [hasAtLeast]
    | cons a t => simp [hasAtLeast, ih]

/-- A 16-bit word is the word of its two bytes. -/
theorem word16_bytes (w : BitVec 16) : word16 (w.extractLsb' 0 8) (w.extractLsb' 8 8) = w := by
  unfold word16
  apply BitVec.eq_of_getLsbD_eq
  intro i hi
  rw [BitVec.getLsbD_append]
  by_cases h : i < 8
  · simp [h]
  · simp [h, show i - 8 < 8 by omega, show 8 + (i - 8) = i by omega]

/-- The two bytes of the word of two bytes. -/
theorem bytes16_word16 (b0 b1 : Byte) : bytes16 (word16 b0 b1) = [b0, b1] := by
  unfold bytes16 word16
  simp only [List.cons.injEq, and_true]
  constructor <;> apply BitVec.eq_of_getLsbD_eq <;> intro i hi <;>
    rw [BitVec.getLsbD_extractLsb', BitVec.getLsbD_append] <;> simp [hi]

/-- A 32-bit word is the word of its four bytes. -/
theorem word32_bytes (w : U32) :
    word32 (w.extractLsb' 0 8) (w.extractLsb' 8 8) (w.extractLsb' 16 8) (w.extractLsb' 24 8) = w := by
  unfold word32
  apply BitVec.eq_of_getLsbD_eq
  intro i hi
  simp only [BitVec.getLsbD_append, BitVec.getLsbD_extractLsb']
  by_cases h1 : i < 8
  · simp [h1]
  · by_cases h2 : i < 16
    · simp [h1, show i - 8 < 8 by omega, show 8 + (i - 8) = i by omega]
    · by_cases h3 : i < 24
      · simp [h1, show ¬ i - 8 < 8 by omega, show i - 8 - 8 < 8 by omega, show 16 + (i - 8 - 8) = i by omega]
      · simp [h1, show ¬ i - 8 < 8 by omega, show ¬ i - 8 - 8 < 8 by omega, show i - 8 - 8 - 8 < 8 by omega, show 24 + (i - 8 - 8 - 8) = i by omega]

/-- The four bytes of the word of four bytes. -/
theorem bytes32_word32 (b0 b1 b2 b3 : Byte) : bytes32 (word32 b0 b1 b2 b3) = [b0, b1, b2, b3] := by
  unfold bytes32 word32
  simp only [List.cons.injEq, and_true]
  refine ⟨?_, ?_, ?_, ?_⟩ <;> apply BitVec.eq_of_getLsbD_eq <;> intro i hi <;>
    rw [BitVec.getLsbD_extractLsb', BitVec.getLsbD_append, BitVec.getLsbD_append, BitVec.getLsbD_append] <;>
    simp [hi, show 16 + i - 8 - 8 = i by omega, show 24 + i - 8 - 8 - 8 = i by omega,
      show ¬ 24 + i - 8 - 8 < 8 by omega, show ¬ 16 + i < 8 by omega, show ¬ 16 + i - 8 < 8 by omega,
      show ¬ 24 + i < 8 by omega, show ¬ 24 + i - 8 < 8 by omega]

/-- Splitting a stream that begins with a header's bytes gives the header and the rest. -/
theorem splitHeader_headerBytes (h : Header) (rest : List Byte) :
    splitHeader (headerBytes h ++ rest) = some (h, rest) := by
  simp [headerBytes, bytes16, splitHeader, word16_bytes]

/-- What splits into a header and a rest is that header's bytes and the rest. -/
theorem splitHeader_some {stream rest : List Byte} {h : Header} (e : splitHeader stream = some (h, rest)) :
    stream = headerBytes h ++ rest := by
  unfold splitHeader at e
  split at e
  · cases e
    simp [headerBytes, bytes16_word16]
  · cases e

theorem splitHeader_none {stream : List Byte} : splitHeader stream = none ↔ stream.length < 4 := by
  match stream with
  | [] => simp [splitHeader]
  | [_] => simp [splitHeader]
  | [_, _] => simp [splitHeader]
  | [_, _, _] => simp [splitHeader]
  | _ :: _ :: _ :: _ :: _ => simp [splitHeader]

theorem splitArg_bytes32 (w : U32) (rest : List Byte) : splitArg (bytes32 w ++ rest) = (w, rest) := by
  simp [bytes32, splitArg, word32_bytes]

/-- A body of at least four bytes is its argument word's bytes and the rest. -/
theorem bytes32_splitArg {body : List Byte} (h : 4 ≤ body.length) :
    bytes32 (splitArg body).1 ++ (splitArg body).2 = body := by
  match body, h with
  | _ :: _ :: _ :: _ :: _, _ => simp [splitArg, bytes32_word32]

@[simp] theorem bytes16_length (w : BitVec 16) : (bytes16 w).length = 2 := rfl
@[simp] theorem bytes32_length (w : U32) : (bytes32 w).length = 4 := rfl
@[simp] theorem headerBytes_length (h : Header) : (headerBytes h).length = 4 := rfl

/-- What a stream that starts with a whole header and a whole body decodes to. -/
theorem decode_whole (h : Header) (body rest : List Byte) (len : body.length = bodySize h) :
    decode (headerBytes h ++ body ++ rest) =
      match malformation h, readCommand h (body ++ rest) with
      | some why, _ => .malformed why (headerWord h) (commandSize h)
      | none, some i => .command i (commandSize h)
      | none, none => .malformed .reservedOpcode (headerWord h) (commandSize h) := by
  have hl : hasAtLeast (bodySize h) (body ++ rest) = true := (hasAtLeast_iff _ _).mpr (by simp [len])
  simp only [decode, List.append_assoc, splitHeader_headerBytes, hl, if_true]
  all_goals cases malformation h <;> cases readCommand h (body ++ rest) <;> rfl

/-- A stream that decodes to anything complete starts with a whole header and a whole body. -/
theorem decode_complete {stream : List Byte} (h : decode stream ≠ .incomplete) :
    ∃ hdr body rest, stream = headerBytes hdr ++ body ++ rest ∧ body.length = bodySize hdr := by
  unfold decode at h
  split at h
  · exact absurd rfl h
  · rename_i hdr body e
    split at h
    · rename_i hl
      have hl' := (hasAtLeast_iff _ _).mp hl
      refine ⟨hdr, body.take (bodySize hdr), body.drop (bodySize hdr), ?_, ?_⟩
      · rw [List.append_assoc, List.take_append_drop]
        exact splitHeader_some e
      · simpa using hl'
    · exact absurd rfl h

end Sys2Proof.Laws
end

