-- ==== Sys2Proof/Laws/Maps.lean ====
section
/-! SUPPORT. The two finite maps and the queue: read after write, what a write leaves alone, and
that every operation keeps the canonical form (20_memory.md R91 to R98). -/

namespace Sys2Proof.Laws

open Sys2Proof.Machine

/-! ## The codec map -/

theorem codecAt_mapCodec_same (pt : Byte) (c : Codec) (m : List (Byte × Codec)) :
    codecAt pt (mapCodec pt c m) = some c := by
  induction m with
  | nil => simp [mapCodec, codecAt]
  | cons e rest ih =>
    obtain ⟨k, d⟩ := e
    by_cases h1 : pt < k
    · simp [mapCodec, h1, codecAt]
    · by_cases h2 : pt = k
      · simp [mapCodec, h2, codecAt]
      · simp [mapCodec, h1, h2, codecAt, ih]

theorem codecAt_mapCodec_other {pt q : Byte} (h : q ≠ pt) (c : Codec) (m : List (Byte × Codec)) :
    codecAt q (mapCodec pt c m) = codecAt q m := by
  induction m with
  | nil => simp [mapCodec, codecAt, h]
  | cons e rest ih =>
    obtain ⟨k, d⟩ := e
    by_cases h1 : pt < k
    · simp [mapCodec, h1, codecAt, h]
    · by_cases h2 : pt = k
      · subst h2
        simp [mapCodec, codecAt, h]
      · simp [mapCodec, h1, h2, codecAt, ih]

/-- Every key of a written map is the written one or an old one. -/
theorem mem_mapCodec {pt : Byte} {c : Codec} {m : List (Byte × Codec)} {e : Byte × Codec}
    (h : e ∈ mapCodec pt c m) : e = (pt, c) ∨ e ∈ m := by
  induction m with
  | nil => simpa [mapCodec] using h
  | cons x rest ih =>
    obtain ⟨k, d⟩ := x
    unfold mapCodec at h
    split at h
    · simpa using h
    · split at h
      · rcases List.mem_cons.mp h with h | h
        · exact .inl h
        · exact .inr (List.mem_cons_of_mem _ h)
      · rcases List.mem_cons.mp h with h | h
        · exact .inr (by simp [h])
        · rcases ih h with h | h
          · exact .inl h
          · exact .inr (List.mem_cons_of_mem _ h)

theorem codecMapWf_mapCodec {m : List (Byte × Codec)} (h : codecMapWf m = true) (pt : Byte) (c : Codec) :
    codecMapWf (mapCodec pt c m) = true := by
  simp only [codecMapWf, decide_eq_true_eq] at h ⊢
  induction m with
  | nil => simp [mapCodec]
  | cons x rest ih =>
    obtain ⟨k, d⟩ := x
    obtain ⟨hk, hrest⟩ := List.pairwise_cons.mp h
    unfold mapCodec
    split
    · rename_i hlt
      refine List.pairwise_cons.mpr ⟨fun e he => ?_, h⟩
      rcases List.mem_cons.mp he with he | he
      · simpa [he] using hlt
      · exact BitVec.lt_trans hlt (hk e he)
    · split
      · rename_i _ heq
        subst heq
        exact List.pairwise_cons.mpr ⟨hk, hrest⟩
      · rename_i hlt hne
        refine List.pairwise_cons.mpr ⟨fun e he => ?_, ih hrest⟩
        rcases mem_mapCodec he with he | he
        · subst he
          simp only [BitVec.lt_def, BitVec.toNat_eq] at *
          omega
        · exact hk e he

/-! ## The jitter buffer's map -/

theorem jbLookup_key {ts : U32} {m : List RtpFrame} {f : RtpFrame} (h : jbLookup ts m = some f) :
    f.rtpTimestamp = ts ∧ f ∈ m := by
  induction m with
  | nil => simp [jbLookup] at h
  | cons g rest ih =>
    unfold jbLookup at h
    split at h
    · rename_i hk
      cases h
      exact ⟨hk, List.mem_cons_self ..⟩
    · exact ⟨(ih h).1, List.mem_cons_of_mem _ (ih h).2⟩

theorem jbLookup_none_iff (ts : U32) (m : List RtpFrame) :
    jbLookup ts m = none ↔ ∀ f ∈ m, f.rtpTimestamp ≠ ts := by
  induction m with
  | nil => simp [jbLookup]
  | cons g rest ih =>
    by_cases hk : g.rtpTimestamp = ts
    · simp [jbLookup, hk]
    · simp [jbLookup, hk, ih]

theorem jbLookup_jbInsert_same {f : RtpFrame} {m : List RtpFrame} (h : jbLookup f.rtpTimestamp m = none) :
    jbLookup f.rtpTimestamp (jbInsert f m) = some f := by
  induction m with
  | nil => simp [jbInsert, jbLookup]
  | cons g rest ih =>
    have hne : g.rtpTimestamp ≠ f.rtpTimestamp := (jbLookup_none_iff _ _).mp h g (List.mem_cons_self ..)
    have hrest : jbLookup f.rtpTimestamp rest = none := by simpa [jbLookup, hne] using h
    unfold jbInsert
    split
    · simp [jbLookup]
    · split
      · rename_i _ heq
        exact absurd heq.symm hne
      · simp [jbLookup, hne, ih hrest]

theorem jbLookup_jbInsert_other {f : RtpFrame} {k : U32} (hk : f.rtpTimestamp ≠ k) (m : List RtpFrame) :
    jbLookup k (jbInsert f m) = jbLookup k m := by
  induction m with
  | nil => simp [jbInsert, jbLookup, hk]
  | cons g rest ih =>
    unfold jbInsert
    split
    · simp [jbLookup, hk]
    · split
      · rfl
      · simp [jbLookup, ih]

theorem jbInsert_length {f : RtpFrame} {m : List RtpFrame} (h : jbLookup f.rtpTimestamp m = none) :
    (jbInsert f m).length = m.length + 1 := by
  induction m with
  | nil => simp [jbInsert]
  | cons g rest ih =>
    have hne : g.rtpTimestamp ≠ f.rtpTimestamp := (jbLookup_none_iff _ _).mp h g (List.mem_cons_self ..)
    have hrest : jbLookup f.rtpTimestamp rest = none := by simpa [jbLookup, hne] using h
    unfold jbInsert
    split
    · simp
    · split
      · rename_i _ heq
        exact absurd heq.symm hne
      · simp [ih hrest]

theorem mem_jbInsert {f g : RtpFrame} {m : List RtpFrame} (h : g ∈ jbInsert f m) : g = f ∨ g ∈ m := by
  induction m with
  | nil => simpa [jbInsert] using h
  | cons x rest ih =>
    unfold jbInsert at h
    split at h
    · simpa using h
    · split at h
      · exact .inr h
      · rcases List.mem_cons.mp h with h | h
        · exact .inr (by simp [h])
        · rcases ih h with h | h
          · exact .inl h
          · exact .inr (List.mem_cons_of_mem _ h)

theorem jbMapWf_jbInsert {m : List RtpFrame} (h : jbMapWf m = true) (f : RtpFrame) :
    jbMapWf (jbInsert f m) = true := by
  simp only [jbMapWf, decide_eq_true_eq] at h ⊢
  induction m with
  | nil => simp [jbInsert]
  | cons g rest ih =>
    obtain ⟨hg, hrest⟩ := List.pairwise_cons.mp h
    unfold jbInsert
    split
    · rename_i hlt
      refine List.pairwise_cons.mpr ⟨fun e he => ?_, h⟩
      rcases List.mem_cons.mp he with he | he
      · simpa [he] using hlt
      · exact BitVec.lt_trans hlt (hg e he)
    · split
      · exact h
      · rename_i hlt hne
        refine List.pairwise_cons.mpr ⟨fun e he => ?_, ih hrest⟩
        rcases mem_jbInsert he with he | he
        · subst he
          simp only [BitVec.lt_def, BitVec.toNat_eq] at *
          omega
        · exact hg e he

theorem jbMapWf_filter {m : List RtpFrame} (h : jbMapWf m = true) (q : RtpFrame → Bool) :
    jbMapWf (m.filter q) = true := by
  simp only [jbMapWf, decide_eq_true_eq] at h ⊢
  exact h.filter q

theorem jbMapWf_jbRemove {m : List RtpFrame} (h : jbMapWf m = true) (ts : U32) :
    jbMapWf (jbRemove ts m) = true := jbMapWf_filter h _

theorem jbMapWf_purged {m : List RtpFrame} (h : jbMapWf m = true) (expected : U32) :
    jbMapWf (purged expected m) = true := jbMapWf_filter h _

/-- Removal takes exactly one key out. -/
theorem jbLookup_jbRemove (ts k : U32) (m : List RtpFrame) :
    jbLookup k (jbRemove ts m) = if k = ts then none else jbLookup k m := by
  induction m with
  | nil => simp [jbRemove, jbLookup]
  | cons g rest ih =>
    unfold jbRemove at ih ⊢
    rw [List.filter_cons]
    by_cases h1 : g.rtpTimestamp = ts
    · rw [if_neg (by simp [h1]), ih]
      by_cases h2 : k = ts
      · rw [if_pos h2, if_pos h2]
      · have h3 : g.rtpTimestamp ≠ k := fun e => h2 (e.symm.trans h1)
        rw [if_neg h2, if_neg h2, jbLookup, if_neg h3]
    · rw [if_pos (by simp [h1])]
      by_cases h2 : g.rtpTimestamp = k
      · have h3 : k ≠ ts := fun e => h1 (h2.trans e)
        rw [if_neg h3, jbLookup, jbLookup, if_pos h2, if_pos h2]
      · rw [jbLookup, jbLookup, if_neg h2, if_neg h2, ih]

theorem mem_jbRemove {ts : U32} {m : List RtpFrame} {f : RtpFrame} :
    f ∈ jbRemove ts m ↔ f ∈ m ∧ f.rtpTimestamp ≠ ts := by
  simp [jbRemove]

/-- The frames a purge keeps are those not serially before the expected timestamp. -/
theorem mem_purged {expected : U32} {m : List RtpFrame} {f : RtpFrame} :
    f ∈ purged expected m ↔ f ∈ m ∧ serialBefore f.rtpTimestamp expected = false := by
  simp [purged]

/-! ## The queue -/

theorem fifoPush_length {cap : Nat} {q : List Frame} (h : q.length ≤ cap) (hc : 1 ≤ cap) (f : Frame) :
    (fifoPush cap q f).length ≤ cap := by
  unfold fifoPush
  split <;> simp <;> omega

theorem mem_fifoPush {cap : Nat} {q : List Frame} {f g : Frame} (h : g ∈ fifoPush cap q f) :
    g = f ∨ g ∈ q := by
  unfold fifoPush at h
  split at h
  · rcases List.mem_append.mp h with h | h
    · exact .inr (List.mem_of_mem_drop h)
    · exact .inl (by simpa using h)
  · rcases List.mem_append.mp h with h | h
    · exact .inr h
    · exact .inl (by simpa using h)

end Sys2Proof.Laws
end

