-- ==== Sys2Proof/Laws/PerInstr.lean ====
section
/-! SUPPORT. What holds of every instruction as syntax: the header its encoding starts with is not
malformed, and gives the length the encoding has (30_encoding.md R122, R127 to R129). -/

namespace Sys2Proof.Laws

/-- The encoding of a well-formed instruction starts with a header that is not malformed (R128), and
its length is the one that header gives (R129). -/
def EncodedHeader.Statement (i : Instr) : Prop :=
  WellFormed i → ∃ h body, encode i = headerBytes h ++ body ∧ malformation h = none
    ∧ (encode i).length = commandSize h

theorem EncodedHeader.cfgCodec (pt codec : Byte) (rate : BitVec 24) :
    EncodedHeader.Statement (.cfgCodec pt codec rate) :=
  fun _ => ⟨_, _, rfl, by simp [malformation, isReserved, isF0], rfl⟩

theorem EncodedHeader.rtpIn (pt : Byte) (ts : U32) (payload : List Byte) :
    EncodedHeader.Statement (.rtpIn pt ts payload) := by
  intro h
  have h' : payload.length ≤ 65535 := h
  refine ⟨_, _, List.append_assoc .., by simp [malformation, isReserved, isF0], ?_⟩
  simp [encode, commandSize, bodySize, argSize]
  omega

theorem EncodedHeader.ingPull : EncodedHeader.Statement .ingPull :=
  fun _ => ⟨_, [], (List.append_nil _).symm, by decide, rfl⟩

theorem EncodedHeader.egrEnq (payload : List Byte) : EncodedHeader.Statement (.egrEnq payload) := by
  intro h
  have h' : payload.length ≤ 65535 := h
  refine ⟨_, _, rfl, by simp [malformation, isReserved, isF0], ?_⟩
  simp [encode, commandSize, bodySize, argSize]
  omega

theorem EncodedHeader.egrTick : EncodedHeader.Statement .egrTick :=
  fun _ => ⟨_, [], (List.append_nil _).symm, by decide, rfl⟩

theorem EncodedHeader.fadeReset : EncodedHeader.Statement .fadeReset :=
  fun _ => ⟨_, [], (List.append_nil _).symm, by decide, rfl⟩

theorem EncodedHeader.egrClear : EncodedHeader.Statement .egrClear :=
  fun _ => ⟨_, [], (List.append_nil _).symm, by decide, rfl⟩

theorem EncodedHeader.callReset : EncodedHeader.Statement .callReset :=
  fun _ => ⟨_, [], (List.append_nil _).symm, by decide, rfl⟩

end Sys2Proof.Laws
end

