-- ==== Sys2Proof/Laws/Stages.lean ====
section
/-! SUPPORT. One lemma for each shared operation that says once everything it can do, and the lengths
of what the stages put out. -/

namespace Sys2Proof.Laws

open Sys2Proof.Machine

/-! ## Counters and timestamps -/

/-- A saturating counter counts up to `2^32 - 1` (D34). -/
theorem satInc_toNat (n : U32) : (satInc n).toNat = min (n.toNat + 1) (2 ^ 32 - 1) := by
  unfold satInc
  split
  · rename_i h
    subst h
    decide
  · rename_i h
    have h1 : n.toNat ≠ 2 ^ 32 - 1 := fun e => h (BitVec.eq_of_toNat_eq e)
    have := n.isLt
    rw [BitVec.toNat_add]
    simp
    omega

/-- An incremented counter becomes a limit exactly when it was one below it, and the limit is a u32. -/
theorem becomes_satInc (n : U32) (limit : Nat) :
    becomes n (satInc n) limit = true ↔ n.toNat + 1 = limit ∧ limit < 2 ^ 32 := by
  have hs := satInc_toNat n
  have hn := n.isLt
  simp only [becomes, Bool.and_eq_true, decide_eq_true_eq, ne_eq, ← BitVec.toNat_inj]
  omega

theorem serialBefore_eq_false (a b : U32) : serialBefore a b = false ↔ (a - b).toNat < 2 ^ 31 := by
  simp [serialBefore]

theorem serialBefore_self (a : U32) : serialBefore a a = false := by
  simp [serialBefore]

/-- A timestamp is before the one a small increment later. -/
theorem serialBefore_add {a inc : U32} (h0 : inc ≠ 0#32) (h : inc.toNat < 2 ^ 31) :
    serialBefore a (a + inc) = true := by
  have h1 : inc.toNat ≠ 0 := fun e => h0 (BitVec.eq_of_toNat_eq e)
  have h2 := inc.isLt
  simp only [serialBefore, decide_eq_true_eq, BitVec.toNat_sub, BitVec.toNat_add]
  have := a.isLt
  omega

theorem rtpIncrement_pos (c : Codec) : 0 < (rtpIncrement c).toNat ∧ (rtpIncrement c).toNat < 2 ^ 31 := by
  cases c <;> decide

theorem frameLen_pos (r : Rate) : 0 < frameLen r := by
  cases r <;> decide

/-! ## Lengths -/

@[simp] theorem mapAccum_length {σ α β : Type} (f : σ → α → β × σ) (st : σ) (l : List α) :
    (mapAccum f st l).1.length = l.length := by
  induction l generalizing st with
  | nil => rfl
  | cons x xs ih => simp [mapAccum, ih]

@[simp] theorem shortCircuit_length (inp : Frame) (rs : ResamplerState) (n : Nat) :
    (shortCircuit inp rs n).1.length = n := by
  simp [shortCircuit]

@[simp] theorem fast2x_length (s : Frame) (rs : ResamplerState) (n : Nat) :
    (fast2x s rs n).1.length = n := by
  simp [fast2x]

@[simp] theorem interpolate_length (s : Frame) (step : F64) (rs : ResamplerState) (n : Nat) :
    (interpolate s step rs n).1.length = n := by
  simp [interpolate]

@[simp] theorem antiAlias_length (p : Params) (src dst : Rate) (inp : Frame) (rs : ResamplerState) :
    (antiAlias p src dst inp rs).1.length = inp.length := by
  unfold antiAlias
  split <;> simp

/-- A write of a finite value to an f32 element stores that value. -/
@[simp] theorem keepFinite_of_finite {element : F32Element} {operands : List F32} {v : F32}
    (h : f32Finite v = true) : keepFinite element operands v = v := if_pos h

/-- R57: every write to an f32 element leaves it finite. -/
@[simp] theorem keepFinite_finite (element : F32Element) (operands : List F32) (v : F32) :
    f32Finite (keepFinite element operands v) = true := by
  unfold keepFinite
  split
  · assumption
  · generalize Config.finiteWrite element operands v = w
    obtain ⟨negative, mag, hm⟩ := w
    cases negative <;>
      simp only [f32Finite, magOf, withSign, binary32, BitVec.toNat_ofNat, decide_eq_true_eq,
        if_true, Bool.false_eq_true, if_false] <;> omega

/-- R315: the two pairs of each ratio share one coefficient set, at every cutoff. -/
theorem iirCoeffs_same_ratio (p : Params) :
    iirCoeffs p .r16000 .r8000 = iirCoeffs p .r48000 .r24000
    ∧ iirCoeffs p .r24000 .r8000 = iirCoeffs p .r48000 .r16000 := by
  constructor <;> rfl

@[simp] theorem dcAndPreemphasis_length (p : Params) (d : IngressDspState) (x : Frame) :
    (dcAndPreemphasis p d x).1.length = x.length := by
  simp [dcAndPreemphasis]

@[simp] theorem applyGainAndLimit_length (p : Params) (d : IngressDspState) (y : List F32) :
    (applyGainAndLimit p d y).length = y.length := by
  simp [applyGainAndLimit]

@[simp] theorem mapFrom_length {α β : Type} (f : Nat → α → β) (n : Nat) (l : List α) :
    (mapFrom f n l).length = l.length := by
  induction l generalizing n with
  | nil => rfl
  | cons x xs ih => simp [mapFrom, ih]

@[simp] theorem fadeIn_length (p : Params) (e : EgressDspState) (x : List F32) :
    (fadeIn p e x).length = x.length := by
  unfold fadeIn
  split <;> simp

@[simp] theorem crossfade_length (p : Params) (e : EgressDspState) (x : List F32) :
    (crossfade p e x).length = x.length := by
  unfold crossfade
  split <;> simp

/-- The egress chain keeps a frame's length (R390). -/
@[simp] theorem egressDsp_length (p : Params) (e : EgressDspState) (f : Frame) :
    (egressDsp p e f).1.length = f.length := by
  simp [egressDsp, fadedFrame]

@[simp] theorem rampedSilence_length (p : Params) (e : EgressDspState) (n : Nat) :
    (rampedSilence p e n).length = n := by
  simp [rampedSilence]

@[simp] theorem interpolatedFrame_length (p : Params) (count : U32) (f : Frame) :
    (interpolatedFrame p count f).length = f.length := by
  simp [interpolatedFrame]

/-- The tail keeps its length (R396). -/
theorem noteEmitted_tail_length {p : Params} {e : EgressDspState} (h : e.tail.length = p.xfadeLen)
    (f : Frame) (real : Bool) : (noteEmitted p f real e).tail.length = p.xfadeLen := by
  simp [noteEmitted, lastSamples, h]

theorem pcmSamples_length (bytes : List Byte) : (pcmSamples bytes).length = (bytes.length + 1) / 2 := by
  match bytes with
  | [] => rfl
  | [_] => simp [pcmSamples]
  | _ :: _ :: rest =>
    simp only [pcmSamples, List.length_cons, pcmSamples_length rest]
    omega

@[simp] theorem chunkFrames_length (n count : Nat) (bytes : List Byte) :
    (chunkFrames n count bytes).length = count := by
  induction count generalizing bytes with
  | zero => rfl
  | succ c ih => simp [chunkFrames, ih]

/-- Every frame cut from enough bytes is whole. -/
theorem chunkFrames_whole {n count : Nat} {bytes : List Byte} (h : 2 * n * count ≤ bytes.length) :
    ∀ f ∈ chunkFrames n count bytes, f.length = n := by
  induction count generalizing bytes with
  | zero => simp [chunkFrames]
  | succ c ih =>
    intro f hf
    have h2 : 2 * n * (c + 1) = 2 * n * c + 2 * n := by ring
    rcases List.mem_cons.mp hf with rfl | hf
    · rw [pcmSamples_length, List.length_take]
      omega
    · exact ih (by rw [List.length_drop]; omega) f hf

/-- The padded payload is a whole number of frames (R462). -/
theorem padPayload_length {b : Nat} (h : 0 < b) (payload : List Byte) :
    (padPayload b payload).length = b * ((payload.length + b - 1) / b) := by
  simp only [padPayload, List.length_append, List.length_replicate]
  have h1 := Nat.div_add_mod payload.length b
  have h2 := Nat.mod_lt payload.length h
  rw [Nat.mul_comm] at h1
  by_cases h3 : payload.length % b = 0
  · have h4 : (payload.length + b - 1) / b = payload.length / b := by
      rw [Nat.div_eq_iff h]
      constructor <;> omega
    rw [h4, h3, Nat.sub_zero, Nat.mod_self, Nat.mul_comm]
    omega
  · have h4 : (payload.length + b - 1) / b = payload.length / b + 1 := by
      rw [Nat.div_eq_iff h, Nat.add_mul, Nat.one_mul]
      constructor <;> omega
    rw [h4, Nat.mod_eq_of_lt (by omega), Nat.mul_comm, Nat.add_mul, Nat.one_mul]
    omega

/-! ## The jitter buffer -/

/-- Everything a pull of the jitter buffer can do (R425 to R429). -/
theorem jbPull_cases (inc : U32) (s : State) :
    (s.isSynchronized = false ∧ jbPull inc s = (.nothing, s))
    ∨ (∃ f, s.isSynchronized = true ∧ jbLookup s.nextExpected s.jbMap = some f
        ∧ jbPull inc s = (.frame f, drain s.nextExpected inc s))
    ∨ (s.isSynchronized = true ∧ jbLookup s.nextExpected s.jbMap = none
        ∧ (satInc s.missingCount).toNat ≤ s.params.jbPlcMax
        ∧ jbPull inc s =
          (.conceal, advanceTo (s.nextExpected + inc) { s with missingCount := satInc s.missingCount }))
    ∨ (s.isSynchronized = true ∧ jbLookup s.nextExpected s.jbMap = none
        ∧ s.params.jbPlcMax < (satInc s.missingCount).toNat
        ∧ s.jbMap.length < s.params.jbPrimeDepth
        ∧ jbPull inc s =
          (.nothing, { s with missingCount := satInc s.missingCount, isSynchronized := false }))
    ∨ (s.isSynchronized = true ∧ jbLookup s.nextExpected s.jbMap = none
        ∧ s.params.jbPlcMax < (satInc s.missingCount).toNat
        ∧ s.params.jbPrimeDepth ≤ s.jbMap.length
        ∧ jbPull inc s = resync s.nextExpected inc { s with missingCount := satInc s.missingCount }) := by
  unfold jbPull
  split
  · rename_i hs
    split
    · rename_i f hf
      exact .inr (.inl ⟨f, hs, hf, rfl⟩)
    · rename_i hf
      unfold pullMissing
      by_cases h1 : (satInc s.missingCount).toNat ≤ s.params.jbPlcMax
      · refine .inr (.inr (.inl ⟨hs, hf, h1, ?_⟩))
        simp [h1, miss]
      · by_cases h2 : s.params.jbPrimeDepth ≤ s.jbMap.length
        · refine .inr (.inr (.inr (.inr ⟨hs, hf, by omega, h2, ?_⟩)))
          simp [h1, beyondPlc, h2]
        · refine .inr (.inr (.inr (.inl ⟨hs, hf, by omega, by omega, ?_⟩)))
          simp [h1, beyondPlc, h2]
  · rename_i hs
    exact .inl ⟨by simpa using hs, rfl⟩

/-- Everything an insert can do (R423). -/
theorem jbInsertFrame_cases (f : RtpFrame) (s : State) :
    ((isLate f.rtpTimestamp s = true ∨ jbHasKey f.rtpTimestamp s.jbMap = true) ∧ jbInsertFrame f s = s)
    ∨ (s.params.jbCap ≤ s.jbMap.length
        ∧ jbInsertFrame f s = raiseWarning .jbOverflow f.rtpTimestamp s)
    ∨ (isLate f.rtpTimestamp s = false ∧ jbLookup f.rtpTimestamp s.jbMap = none
        ∧ s.jbMap.length < s.params.jbCap
        ∧ jbInsertFrame f s = syncCheck { s with jbMap := jbInsert f s.jbMap }) := by
  unfold jbInsertFrame
  by_cases h1 : isLate f.rtpTimestamp s = true
  · exact .inl ⟨.inl h1, by simp [h1]⟩
  · by_cases h2 : jbHasKey f.rtpTimestamp s.jbMap = true
    · exact .inl ⟨.inr h2, by simp [h2]⟩
    · by_cases h3 : s.params.jbCap ≤ s.jbMap.length
      · exact .inr (.inl ⟨h3, by simp [h1, h2, h3]⟩)
      · refine .inr (.inr ⟨by simpa using h1, ?_, by omega, by simp [h1, h2, h3]⟩)
        simpa [jbHasKey] using h2

/-! ## The codec stages -/

/-- Everything an answer of the Opus decoder can write (R281, R282). -/
theorem opusDecodeAnswer_writes (r : OpusDecResult) (s : State) :
    ∃ n es, (opusDecodeAnswer r s).2 = { s with opusDecFail := n, events := s.events ++ es } := by
  cases r with
  | fail =>
    by_cases h : becomes s.opusDecFail (satInc s.opusDecFail) s.params.opusFailLimit = true
    · exact ⟨satInc s.opusDecFail, [.warning .opusDecodeFail (satInc s.opusDecFail), .callError .decoder (satInc s.opusDecFail)],
        by simp [opusDecodeAnswer, opusDecodeFail, callErrorAt, raiseWarning, emit, h]⟩
    · exact ⟨satInc s.opusDecFail, [.warning .opusDecodeFail (satInc s.opusDecFail)],
        by simp [opusDecodeAnswer, opusDecodeFail, callErrorAt, raiseWarning, emit, h]⟩
  | ok samples stereo => exact ⟨0#32, [], by simp [opusDecodeAnswer]⟩

/-- Everything an answer of the Opus encoder can write (R283, R284). -/
theorem opusEncodeAnswer_writes (r : OpusEncResult) (s : State) :
    ∃ n es, (opusEncodeAnswer r s).2 = { s with opusEncFail := n, events := s.events ++ es } := by
  cases r with
  | fail =>
    by_cases h : becomes s.opusEncFail (satInc s.opusEncFail) s.params.opusFailLimit = true
    · exact ⟨satInc s.opusEncFail, [.warning .opusEncodeFail (satInc s.opusEncFail), .callError .encoder (satInc s.opusEncFail)],
        by simp [opusEncodeAnswer, opusEncodeFail, callErrorAt, raiseWarning, emit, h]⟩
    · exact ⟨satInc s.opusEncFail, [.warning .opusEncodeFail (satInc s.opusEncFail)],
        by simp [opusEncodeAnswer, opusEncodeFail, callErrorAt, raiseWarning, emit, h]⟩
  | ok payload => exact ⟨0#32, [], by simp [opusEncodeAnswer]⟩

/-- Everything the decode stage can write: the decoder states and the events (R211). -/
theorem decodeRtp_writes (session : Codec) (f : RtpFrame) (s : State) :
    ∃ g o n es, (decodeRtp session f s).2 =
      { s with g722Dec := g, opusDec := o, opusDecFail := n, events := s.events ++ es } := by
  have hc : ∀ s : State, ∃ es, checkLength f s = { s with events := s.events ++ es } := by
    intro s
    unfold checkLength
    split
    · exact ⟨[], by simp⟩
    · exact ⟨[_], rfl⟩
  unfold decodeRtp
  split
  · exact ⟨s.g722Dec, s.opusDec, s.opusDecFail, [_], rfl⟩
  · obtain ⟨es, h⟩ := hc s
    exact ⟨s.g722Dec, s.opusDec, s.opusDecFail, es, by simp [h]⟩
  · obtain ⟨es, h⟩ := hc s
    exact ⟨s.g722Dec, s.opusDec, s.opusDecFail, es, by simp [h]⟩
  · obtain ⟨es, h⟩ := hc s
    exact ⟨(g722Decode s.g722Dec f.payload).2, s.opusDec, s.opusDecFail, es, by simp [h]⟩
  · obtain ⟨n, es, h⟩ := opusDecodeAnswer_writes (opusDecode s.opusDec f.payload).2
      { s with opusDec := (opusDecode s.opusDec f.payload).1 }
    exact ⟨s.g722Dec, _, n, es, h⟩

/-- Everything the encode stage can write: the encoder states and, for a failure, the events (R252). -/
theorem encodeFrame_writes (c : Codec) (f : Frame) (s : State) :
    ∃ g o n es, (encodeFrame c f s).2 =
      { s with g722Enc := g, opusEnc := o, opusEncFail := n, events := s.events ++ es } := by
  unfold encodeFrame
  split
  · exact ⟨s.g722Enc, s.opusEnc, s.opusEncFail, [], by simp⟩
  · exact ⟨s.g722Enc, s.opusEnc, s.opusEncFail, [], by simp⟩
  · exact ⟨(g722Encode s.g722Enc f).2, s.opusEnc, s.opusEncFail, [], by simp⟩
  · obtain ⟨n, es, h⟩ := opusEncodeAnswer_writes (opusEncode s.opusEnc f).2
      { s with opusEnc := (opusEncode s.opusEnc f).1 }
    exact ⟨s.g722Enc, _, n, es, h⟩

/-- Everything the emission of a frame can write: the bookkeeping of R396, the encoder states and the
events (R472). -/
theorem emitEncoded_writes (c : Codec) (f : Frame) (real : Bool) (s : State) :
    ∃ g o n es, emitEncoded c f real s =
      { s with
        edsp := noteEmitted s.params f real s.edsp
        g722Enc := g
        opusEnc := o
        opusEncFail := n
        events := s.events ++ es } := by
  unfold emitEncoded
  obtain ⟨g, o, n, es, h⟩ :=
    encodeFrame_writes c f { s with edsp := noteEmitted s.params f real s.edsp }
  dsimp only
  split
  · exact ⟨g, o, n, es, h⟩
  · rename_i payload _
    refine ⟨g, o, n, es ++ [.encFrameReady c (rtpIncrement c) payload], ?_⟩
    rw [h]
    simp [emit]

/-- Every encoder's payload length (R254, R256, R265, R283): a byte a sample for G.711, a byte a pair for
G.722. -/
theorem g722Encode_length (g : G722State) (f : Frame) : (g722Encode g f).1.length = (f.length + 1) / 2 := by
  match f with
  | [] => rfl
  | [_] => simp [g722Encode]
  | x0 :: x1 :: rest =>
    simp only [g722Encode, List.length_cons, g722Encode_length _ rest]
    omega

/-! ## Reset -/

theorem codecMapWf_powerOn (p : Params) : codecMapWf (State.powerOn p).codecMap = true := rfl

theorem jbMapWf_powerOn (p : Params) : jbMapWf (State.powerOn p).jbMap = true := rfl

end Sys2Proof.Laws
end

