-- ==== Sys2Proof/Laws/State.lean ====
section
/-! SUPPORT. What each shared update of the state does to each field: one lemma a field, true by
definition, so that no later proof unfolds a record update. -/

namespace Sys2Proof.Laws

open Sys2Proof.Machine

/-! ## `emit` -/

@[simp] theorem emit_params (e : Event) (s : State) : (emit e s).params = s.params := rfl
@[simp] theorem emit_input (e : Event) (s : State) : (emit e s).input = s.input := rfl
@[simp] theorem emit_codecMap (e : Event) (s : State) : (emit e s).codecMap = s.codecMap := rfl
@[simp] theorem emit_sessionCodec (e : Event) (s : State) : (emit e s).sessionCodec = s.sessionCodec := rfl
@[simp] theorem emit_jbMap (e : Event) (s : State) : (emit e s).jbMap = s.jbMap := rfl
@[simp] theorem emit_nextExpected (e : Event) (s : State) : (emit e s).nextExpected = s.nextExpected := rfl
@[simp] theorem emit_isSynchronized (e : Event) (s : State) : (emit e s).isSynchronized = s.isSynchronized := rfl
@[simp] theorem emit_everSynced (e : Event) (s : State) : (emit e s).everSynced = s.everSynced := rfl
@[simp] theorem emit_missingCount (e : Event) (s : State) : (emit e s).missingCount = s.missingCount := rfl
@[simp] theorem emit_lastDecoded (e : Event) (s : State) : (emit e s).lastDecoded = s.lastDecoded := rfl
@[simp] theorem emit_lastDecodedRate (e : Event) (s : State) : (emit e s).lastDecodedRate = s.lastDecodedRate := rfl
@[simp] theorem emit_g722Dec (e : Event) (s : State) : (emit e s).g722Dec = s.g722Dec := rfl
@[simp] theorem emit_g722Enc (e : Event) (s : State) : (emit e s).g722Enc = s.g722Enc := rfl
@[simp] theorem emit_opusDec (e : Event) (s : State) : (emit e s).opusDec = s.opusDec := rfl
@[simp] theorem emit_opusEnc (e : Event) (s : State) : (emit e s).opusEnc = s.opusEnc := rfl
@[simp] theorem emit_opusDecFail (e : Event) (s : State) : (emit e s).opusDecFail = s.opusDecFail := rfl
@[simp] theorem emit_opusEncFail (e : Event) (s : State) : (emit e s).opusEncFail = s.opusEncFail := rfl
@[simp] theorem emit_idsp (e : Event) (s : State) : (emit e s).idsp = s.idsp := rfl
@[simp] theorem emit_irs (e : Event) (s : State) : (emit e s).irs = s.irs := rfl
@[simp] theorem emit_ers (e : Event) (s : State) : (emit e s).ers = s.ers := rfl
@[simp] theorem emit_queue (e : Event) (s : State) : (emit e s).queue = s.queue := rfl
@[simp] theorem emit_primed (e : Event) (s : State) : (emit e s).primed = s.primed := rfl
@[simp] theorem emit_underrunCount (e : Event) (s : State) : (emit e s).underrunCount = s.underrunCount := rfl
@[simp] theorem emit_tickBusy (e : Event) (s : State) : (emit e s).tickBusy = s.tickBusy := rfl
@[simp] theorem emit_edsp (e : Event) (s : State) : (emit e s).edsp = s.edsp := rfl
@[simp] theorem emit_events (e : Event) (s : State) : (emit e s).events = s.events ++ [e] := rfl

/-! ## `raiseWarning` -/

@[simp] theorem raiseWarning_params (c : WarningCode) (n : U32) (s : State) : (raiseWarning c n s).params = s.params := rfl
@[simp] theorem raiseWarning_input (c : WarningCode) (n : U32) (s : State) : (raiseWarning c n s).input = s.input := rfl
@[simp] theorem raiseWarning_codecMap (c : WarningCode) (n : U32) (s : State) : (raiseWarning c n s).codecMap = s.codecMap := rfl
@[simp] theorem raiseWarning_sessionCodec (c : WarningCode) (n : U32) (s : State) : (raiseWarning c n s).sessionCodec = s.sessionCodec := rfl
@[simp] theorem raiseWarning_jbMap (c : WarningCode) (n : U32) (s : State) : (raiseWarning c n s).jbMap = s.jbMap := rfl
@[simp] theorem raiseWarning_nextExpected (c : WarningCode) (n : U32) (s : State) : (raiseWarning c n s).nextExpected = s.nextExpected := rfl
@[simp] theorem raiseWarning_isSynchronized (c : WarningCode) (n : U32) (s : State) : (raiseWarning c n s).isSynchronized = s.isSynchronized := rfl
@[simp] theorem raiseWarning_everSynced (c : WarningCode) (n : U32) (s : State) : (raiseWarning c n s).everSynced = s.everSynced := rfl
@[simp] theorem raiseWarning_missingCount (c : WarningCode) (n : U32) (s : State) : (raiseWarning c n s).missingCount = s.missingCount := rfl
@[simp] theorem raiseWarning_lastDecoded (c : WarningCode) (n : U32) (s : State) : (raiseWarning c n s).lastDecoded = s.lastDecoded := rfl
@[simp] theorem raiseWarning_lastDecodedRate (c : WarningCode) (n : U32) (s : State) : (raiseWarning c n s).lastDecodedRate = s.lastDecodedRate := rfl
@[simp] theorem raiseWarning_g722Dec (c : WarningCode) (n : U32) (s : State) : (raiseWarning c n s).g722Dec = s.g722Dec := rfl
@[simp] theorem raiseWarning_g722Enc (c : WarningCode) (n : U32) (s : State) : (raiseWarning c n s).g722Enc = s.g722Enc := rfl
@[simp] theorem raiseWarning_opusDec (c : WarningCode) (n : U32) (s : State) : (raiseWarning c n s).opusDec = s.opusDec := rfl
@[simp] theorem raiseWarning_opusEnc (c : WarningCode) (n : U32) (s : State) : (raiseWarning c n s).opusEnc = s.opusEnc := rfl
@[simp] theorem raiseWarning_opusDecFail (c : WarningCode) (n : U32) (s : State) : (raiseWarning c n s).opusDecFail = s.opusDecFail := rfl
@[simp] theorem raiseWarning_opusEncFail (c : WarningCode) (n : U32) (s : State) : (raiseWarning c n s).opusEncFail = s.opusEncFail := rfl
@[simp] theorem raiseWarning_idsp (c : WarningCode) (n : U32) (s : State) : (raiseWarning c n s).idsp = s.idsp := rfl
@[simp] theorem raiseWarning_irs (c : WarningCode) (n : U32) (s : State) : (raiseWarning c n s).irs = s.irs := rfl
@[simp] theorem raiseWarning_ers (c : WarningCode) (n : U32) (s : State) : (raiseWarning c n s).ers = s.ers := rfl
@[simp] theorem raiseWarning_queue (c : WarningCode) (n : U32) (s : State) : (raiseWarning c n s).queue = s.queue := rfl
@[simp] theorem raiseWarning_primed (c : WarningCode) (n : U32) (s : State) : (raiseWarning c n s).primed = s.primed := rfl
@[simp] theorem raiseWarning_underrunCount (c : WarningCode) (n : U32) (s : State) : (raiseWarning c n s).underrunCount = s.underrunCount := rfl
@[simp] theorem raiseWarning_tickBusy (c : WarningCode) (n : U32) (s : State) : (raiseWarning c n s).tickBusy = s.tickBusy := rfl
@[simp] theorem raiseWarning_edsp (c : WarningCode) (n : U32) (s : State) : (raiseWarning c n s).edsp = s.edsp := rfl
@[simp] theorem raiseWarning_events (c : WarningCode) (n : U32) (s : State) : (raiseWarning c n s).events = s.events ++ [.warning c n] := rfl

/-! ## `rejectMalformed` -/

@[simp] theorem rejectMalformed_params (h : U32) (s : State) : (rejectMalformed h s).params = s.params := rfl
@[simp] theorem rejectMalformed_input (h : U32) (s : State) : (rejectMalformed h s).input = s.input := rfl
@[simp] theorem rejectMalformed_codecMap (h : U32) (s : State) : (rejectMalformed h s).codecMap = s.codecMap := rfl
@[simp] theorem rejectMalformed_sessionCodec (h : U32) (s : State) : (rejectMalformed h s).sessionCodec = s.sessionCodec := rfl
@[simp] theorem rejectMalformed_jbMap (h : U32) (s : State) : (rejectMalformed h s).jbMap = s.jbMap := rfl
@[simp] theorem rejectMalformed_nextExpected (h : U32) (s : State) : (rejectMalformed h s).nextExpected = s.nextExpected := rfl
@[simp] theorem rejectMalformed_isSynchronized (h : U32) (s : State) : (rejectMalformed h s).isSynchronized = s.isSynchronized := rfl
@[simp] theorem rejectMalformed_everSynced (h : U32) (s : State) : (rejectMalformed h s).everSynced = s.everSynced := rfl
@[simp] theorem rejectMalformed_missingCount (h : U32) (s : State) : (rejectMalformed h s).missingCount = s.missingCount := rfl
@[simp] theorem rejectMalformed_lastDecoded (h : U32) (s : State) : (rejectMalformed h s).lastDecoded = s.lastDecoded := rfl
@[simp] theorem rejectMalformed_lastDecodedRate (h : U32) (s : State) : (rejectMalformed h s).lastDecodedRate = s.lastDecodedRate := rfl
@[simp] theorem rejectMalformed_g722Dec (h : U32) (s : State) : (rejectMalformed h s).g722Dec = s.g722Dec := rfl
@[simp] theorem rejectMalformed_g722Enc (h : U32) (s : State) : (rejectMalformed h s).g722Enc = s.g722Enc := rfl
@[simp] theorem rejectMalformed_opusDec (h : U32) (s : State) : (rejectMalformed h s).opusDec = s.opusDec := rfl
@[simp] theorem rejectMalformed_opusEnc (h : U32) (s : State) : (rejectMalformed h s).opusEnc = s.opusEnc := rfl
@[simp] theorem rejectMalformed_opusDecFail (h : U32) (s : State) : (rejectMalformed h s).opusDecFail = s.opusDecFail := rfl
@[simp] theorem rejectMalformed_opusEncFail (h : U32) (s : State) : (rejectMalformed h s).opusEncFail = s.opusEncFail := rfl
@[simp] theorem rejectMalformed_idsp (h : U32) (s : State) : (rejectMalformed h s).idsp = s.idsp := rfl
@[simp] theorem rejectMalformed_irs (h : U32) (s : State) : (rejectMalformed h s).irs = s.irs := rfl
@[simp] theorem rejectMalformed_ers (h : U32) (s : State) : (rejectMalformed h s).ers = s.ers := rfl
@[simp] theorem rejectMalformed_queue (h : U32) (s : State) : (rejectMalformed h s).queue = s.queue := rfl
@[simp] theorem rejectMalformed_primed (h : U32) (s : State) : (rejectMalformed h s).primed = s.primed := rfl
@[simp] theorem rejectMalformed_underrunCount (h : U32) (s : State) : (rejectMalformed h s).underrunCount = s.underrunCount := rfl
@[simp] theorem rejectMalformed_tickBusy (h : U32) (s : State) : (rejectMalformed h s).tickBusy = s.tickBusy := rfl
@[simp] theorem rejectMalformed_edsp (h : U32) (s : State) : (rejectMalformed h s).edsp = s.edsp := rfl
@[simp] theorem rejectMalformed_events (h : U32) (s : State) : (rejectMalformed h s).events = s.events ++ [.warning .badCommand h] := rfl

/-! ## `deliver` -/

@[simp] theorem deliver_params (b : List Byte) (s : State) : (deliver b s).params = s.params := rfl
@[simp] theorem deliver_input (b : List Byte) (s : State) : (deliver b s).input = s.input ++ b := rfl
@[simp] theorem deliver_codecMap (b : List Byte) (s : State) : (deliver b s).codecMap = s.codecMap := rfl
@[simp] theorem deliver_sessionCodec (b : List Byte) (s : State) : (deliver b s).sessionCodec = s.sessionCodec := rfl
@[simp] theorem deliver_jbMap (b : List Byte) (s : State) : (deliver b s).jbMap = s.jbMap := rfl
@[simp] theorem deliver_nextExpected (b : List Byte) (s : State) : (deliver b s).nextExpected = s.nextExpected := rfl
@[simp] theorem deliver_isSynchronized (b : List Byte) (s : State) : (deliver b s).isSynchronized = s.isSynchronized := rfl
@[simp] theorem deliver_everSynced (b : List Byte) (s : State) : (deliver b s).everSynced = s.everSynced := rfl
@[simp] theorem deliver_missingCount (b : List Byte) (s : State) : (deliver b s).missingCount = s.missingCount := rfl
@[simp] theorem deliver_lastDecoded (b : List Byte) (s : State) : (deliver b s).lastDecoded = s.lastDecoded := rfl
@[simp] theorem deliver_lastDecodedRate (b : List Byte) (s : State) : (deliver b s).lastDecodedRate = s.lastDecodedRate := rfl
@[simp] theorem deliver_g722Dec (b : List Byte) (s : State) : (deliver b s).g722Dec = s.g722Dec := rfl
@[simp] theorem deliver_g722Enc (b : List Byte) (s : State) : (deliver b s).g722Enc = s.g722Enc := rfl
@[simp] theorem deliver_opusDec (b : List Byte) (s : State) : (deliver b s).opusDec = s.opusDec := rfl
@[simp] theorem deliver_opusEnc (b : List Byte) (s : State) : (deliver b s).opusEnc = s.opusEnc := rfl
@[simp] theorem deliver_opusDecFail (b : List Byte) (s : State) : (deliver b s).opusDecFail = s.opusDecFail := rfl
@[simp] theorem deliver_opusEncFail (b : List Byte) (s : State) : (deliver b s).opusEncFail = s.opusEncFail := rfl
@[simp] theorem deliver_idsp (b : List Byte) (s : State) : (deliver b s).idsp = s.idsp := rfl
@[simp] theorem deliver_irs (b : List Byte) (s : State) : (deliver b s).irs = s.irs := rfl
@[simp] theorem deliver_ers (b : List Byte) (s : State) : (deliver b s).ers = s.ers := rfl
@[simp] theorem deliver_queue (b : List Byte) (s : State) : (deliver b s).queue = s.queue := rfl
@[simp] theorem deliver_primed (b : List Byte) (s : State) : (deliver b s).primed = s.primed := rfl
@[simp] theorem deliver_underrunCount (b : List Byte) (s : State) : (deliver b s).underrunCount = s.underrunCount := rfl
@[simp] theorem deliver_tickBusy (b : List Byte) (s : State) : (deliver b s).tickBusy = s.tickBusy := rfl
@[simp] theorem deliver_edsp (b : List Byte) (s : State) : (deliver b s).edsp = s.edsp := rfl
@[simp] theorem deliver_events (b : List Byte) (s : State) : (deliver b s).events = s.events := rfl

/-! ## `consume` -/

@[simp] theorem consume_params (n : Nat) (s : State) : (consume n s).params = s.params := rfl
@[simp] theorem consume_input (n : Nat) (s : State) : (consume n s).input = s.input.drop n := rfl
@[simp] theorem consume_codecMap (n : Nat) (s : State) : (consume n s).codecMap = s.codecMap := rfl
@[simp] theorem consume_sessionCodec (n : Nat) (s : State) : (consume n s).sessionCodec = s.sessionCodec := rfl
@[simp] theorem consume_jbMap (n : Nat) (s : State) : (consume n s).jbMap = s.jbMap := rfl
@[simp] theorem consume_nextExpected (n : Nat) (s : State) : (consume n s).nextExpected = s.nextExpected := rfl
@[simp] theorem consume_isSynchronized (n : Nat) (s : State) : (consume n s).isSynchronized = s.isSynchronized := rfl
@[simp] theorem consume_everSynced (n : Nat) (s : State) : (consume n s).everSynced = s.everSynced := rfl
@[simp] theorem consume_missingCount (n : Nat) (s : State) : (consume n s).missingCount = s.missingCount := rfl
@[simp] theorem consume_lastDecoded (n : Nat) (s : State) : (consume n s).lastDecoded = s.lastDecoded := rfl
@[simp] theorem consume_lastDecodedRate (n : Nat) (s : State) : (consume n s).lastDecodedRate = s.lastDecodedRate := rfl
@[simp] theorem consume_g722Dec (n : Nat) (s : State) : (consume n s).g722Dec = s.g722Dec := rfl
@[simp] theorem consume_g722Enc (n : Nat) (s : State) : (consume n s).g722Enc = s.g722Enc := rfl
@[simp] theorem consume_opusDec (n : Nat) (s : State) : (consume n s).opusDec = s.opusDec := rfl
@[simp] theorem consume_opusEnc (n : Nat) (s : State) : (consume n s).opusEnc = s.opusEnc := rfl
@[simp] theorem consume_opusDecFail (n : Nat) (s : State) : (consume n s).opusDecFail = s.opusDecFail := rfl
@[simp] theorem consume_opusEncFail (n : Nat) (s : State) : (consume n s).opusEncFail = s.opusEncFail := rfl
@[simp] theorem consume_idsp (n : Nat) (s : State) : (consume n s).idsp = s.idsp := rfl
@[simp] theorem consume_irs (n : Nat) (s : State) : (consume n s).irs = s.irs := rfl
@[simp] theorem consume_ers (n : Nat) (s : State) : (consume n s).ers = s.ers := rfl
@[simp] theorem consume_queue (n : Nat) (s : State) : (consume n s).queue = s.queue := rfl
@[simp] theorem consume_primed (n : Nat) (s : State) : (consume n s).primed = s.primed := rfl
@[simp] theorem consume_underrunCount (n : Nat) (s : State) : (consume n s).underrunCount = s.underrunCount := rfl
@[simp] theorem consume_tickBusy (n : Nat) (s : State) : (consume n s).tickBusy = s.tickBusy := rfl
@[simp] theorem consume_edsp (n : Nat) (s : State) : (consume n s).edsp = s.edsp := rfl
@[simp] theorem consume_events (n : Nat) (s : State) : (consume n s).events = s.events := rfl

/-! ## `advanceTo` -/

@[simp] theorem advanceTo_params (k : U32) (s : State) : (advanceTo k s).params = s.params := rfl
@[simp] theorem advanceTo_input (k : U32) (s : State) : (advanceTo k s).input = s.input := rfl
@[simp] theorem advanceTo_codecMap (k : U32) (s : State) : (advanceTo k s).codecMap = s.codecMap := rfl
@[simp] theorem advanceTo_sessionCodec (k : U32) (s : State) : (advanceTo k s).sessionCodec = s.sessionCodec := rfl
@[simp] theorem advanceTo_jbMap (k : U32) (s : State) : (advanceTo k s).jbMap = purged k s.jbMap := rfl
@[simp] theorem advanceTo_nextExpected (k : U32) (s : State) : (advanceTo k s).nextExpected = k := rfl
@[simp] theorem advanceTo_isSynchronized (k : U32) (s : State) : (advanceTo k s).isSynchronized = s.isSynchronized := rfl
@[simp] theorem advanceTo_everSynced (k : U32) (s : State) : (advanceTo k s).everSynced = s.everSynced := rfl
@[simp] theorem advanceTo_missingCount (k : U32) (s : State) : (advanceTo k s).missingCount = s.missingCount := rfl
@[simp] theorem advanceTo_lastDecoded (k : U32) (s : State) : (advanceTo k s).lastDecoded = s.lastDecoded := rfl
@[simp] theorem advanceTo_lastDecodedRate (k : U32) (s : State) : (advanceTo k s).lastDecodedRate = s.lastDecodedRate := rfl
@[simp] theorem advanceTo_g722Dec (k : U32) (s : State) : (advanceTo k s).g722Dec = s.g722Dec := rfl
@[simp] theorem advanceTo_g722Enc (k : U32) (s : State) : (advanceTo k s).g722Enc = s.g722Enc := rfl
@[simp] theorem advanceTo_opusDec (k : U32) (s : State) : (advanceTo k s).opusDec = s.opusDec := rfl
@[simp] theorem advanceTo_opusEnc (k : U32) (s : State) : (advanceTo k s).opusEnc = s.opusEnc := rfl
@[simp] theorem advanceTo_opusDecFail (k : U32) (s : State) : (advanceTo k s).opusDecFail = s.opusDecFail := rfl
@[simp] theorem advanceTo_opusEncFail (k : U32) (s : State) : (advanceTo k s).opusEncFail = s.opusEncFail := rfl
@[simp] theorem advanceTo_idsp (k : U32) (s : State) : (advanceTo k s).idsp = s.idsp := rfl
@[simp] theorem advanceTo_irs (k : U32) (s : State) : (advanceTo k s).irs = s.irs := rfl
@[simp] theorem advanceTo_ers (k : U32) (s : State) : (advanceTo k s).ers = s.ers := rfl
@[simp] theorem advanceTo_queue (k : U32) (s : State) : (advanceTo k s).queue = s.queue := rfl
@[simp] theorem advanceTo_primed (k : U32) (s : State) : (advanceTo k s).primed = s.primed := rfl
@[simp] theorem advanceTo_underrunCount (k : U32) (s : State) : (advanceTo k s).underrunCount = s.underrunCount := rfl
@[simp] theorem advanceTo_tickBusy (k : U32) (s : State) : (advanceTo k s).tickBusy = s.tickBusy := rfl
@[simp] theorem advanceTo_edsp (k : U32) (s : State) : (advanceTo k s).edsp = s.edsp := rfl
@[simp] theorem advanceTo_events (k : U32) (s : State) : (advanceTo k s).events = s.events := rfl

/-! ## `acceptCodec` -/

@[simp] theorem acceptCodec_params (pt : Byte) (c : Codec) (s : State) : (acceptCodec pt c s).params = s.params := rfl
@[simp] theorem acceptCodec_input (pt : Byte) (c : Codec) (s : State) : (acceptCodec pt c s).input = s.input := rfl
@[simp] theorem acceptCodec_codecMap (pt : Byte) (c : Codec) (s : State) : (acceptCodec pt c s).codecMap = mapCodec pt c s.codecMap := rfl
@[simp] theorem acceptCodec_sessionCodec (pt : Byte) (c : Codec) (s : State) : (acceptCodec pt c s).sessionCodec = some c := rfl
@[simp] theorem acceptCodec_jbMap (pt : Byte) (c : Codec) (s : State) : (acceptCodec pt c s).jbMap = s.jbMap := rfl
@[simp] theorem acceptCodec_nextExpected (pt : Byte) (c : Codec) (s : State) : (acceptCodec pt c s).nextExpected = s.nextExpected := rfl
@[simp] theorem acceptCodec_isSynchronized (pt : Byte) (c : Codec) (s : State) : (acceptCodec pt c s).isSynchronized = s.isSynchronized := rfl
@[simp] theorem acceptCodec_everSynced (pt : Byte) (c : Codec) (s : State) : (acceptCodec pt c s).everSynced = s.everSynced := rfl
@[simp] theorem acceptCodec_missingCount (pt : Byte) (c : Codec) (s : State) : (acceptCodec pt c s).missingCount = s.missingCount := rfl
@[simp] theorem acceptCodec_lastDecoded (pt : Byte) (c : Codec) (s : State) : (acceptCodec pt c s).lastDecoded = s.lastDecoded := rfl
@[simp] theorem acceptCodec_lastDecodedRate (pt : Byte) (c : Codec) (s : State) : (acceptCodec pt c s).lastDecodedRate = s.lastDecodedRate := rfl
@[simp] theorem acceptCodec_g722Dec (pt : Byte) (c : Codec) (s : State) : (acceptCodec pt c s).g722Dec = s.g722Dec := rfl
@[simp] theorem acceptCodec_g722Enc (pt : Byte) (c : Codec) (s : State) : (acceptCodec pt c s).g722Enc = s.g722Enc := rfl
@[simp] theorem acceptCodec_opusDec (pt : Byte) (c : Codec) (s : State) : (acceptCodec pt c s).opusDec = s.opusDec := rfl
@[simp] theorem acceptCodec_opusEnc (pt : Byte) (c : Codec) (s : State) : (acceptCodec pt c s).opusEnc = s.opusEnc := rfl
@[simp] theorem acceptCodec_opusDecFail (pt : Byte) (c : Codec) (s : State) : (acceptCodec pt c s).opusDecFail = s.opusDecFail := rfl
@[simp] theorem acceptCodec_opusEncFail (pt : Byte) (c : Codec) (s : State) : (acceptCodec pt c s).opusEncFail = s.opusEncFail := rfl
@[simp] theorem acceptCodec_idsp (pt : Byte) (c : Codec) (s : State) : (acceptCodec pt c s).idsp = s.idsp := rfl
@[simp] theorem acceptCodec_irs (pt : Byte) (c : Codec) (s : State) : (acceptCodec pt c s).irs = s.irs := rfl
@[simp] theorem acceptCodec_ers (pt : Byte) (c : Codec) (s : State) : (acceptCodec pt c s).ers = s.ers := rfl
@[simp] theorem acceptCodec_queue (pt : Byte) (c : Codec) (s : State) : (acceptCodec pt c s).queue = s.queue := rfl
@[simp] theorem acceptCodec_primed (pt : Byte) (c : Codec) (s : State) : (acceptCodec pt c s).primed = s.primed := rfl
@[simp] theorem acceptCodec_underrunCount (pt : Byte) (c : Codec) (s : State) : (acceptCodec pt c s).underrunCount = s.underrunCount := rfl
@[simp] theorem acceptCodec_tickBusy (pt : Byte) (c : Codec) (s : State) : (acceptCodec pt c s).tickBusy = s.tickBusy := rfl
@[simp] theorem acceptCodec_edsp (pt : Byte) (c : Codec) (s : State) : (acceptCodec pt c s).edsp = s.edsp := rfl
@[simp] theorem acceptCodec_events (pt : Byte) (c : Codec) (s : State) : (acceptCodec pt c s).events = s.events := rfl

/-! ## `enqueuePcm` -/

@[simp] theorem enqueuePcm_params (b : List Byte) (s : State) : (enqueuePcm b s).params = s.params := rfl
@[simp] theorem enqueuePcm_input (b : List Byte) (s : State) : (enqueuePcm b s).input = s.input := rfl
@[simp] theorem enqueuePcm_codecMap (b : List Byte) (s : State) : (enqueuePcm b s).codecMap = s.codecMap := rfl
@[simp] theorem enqueuePcm_sessionCodec (b : List Byte) (s : State) : (enqueuePcm b s).sessionCodec = s.sessionCodec := rfl
@[simp] theorem enqueuePcm_jbMap (b : List Byte) (s : State) : (enqueuePcm b s).jbMap = s.jbMap := rfl
@[simp] theorem enqueuePcm_nextExpected (b : List Byte) (s : State) : (enqueuePcm b s).nextExpected = s.nextExpected := rfl
@[simp] theorem enqueuePcm_isSynchronized (b : List Byte) (s : State) : (enqueuePcm b s).isSynchronized = s.isSynchronized := rfl
@[simp] theorem enqueuePcm_everSynced (b : List Byte) (s : State) : (enqueuePcm b s).everSynced = s.everSynced := rfl
@[simp] theorem enqueuePcm_missingCount (b : List Byte) (s : State) : (enqueuePcm b s).missingCount = s.missingCount := rfl
@[simp] theorem enqueuePcm_lastDecoded (b : List Byte) (s : State) : (enqueuePcm b s).lastDecoded = s.lastDecoded := rfl
@[simp] theorem enqueuePcm_lastDecodedRate (b : List Byte) (s : State) : (enqueuePcm b s).lastDecodedRate = s.lastDecodedRate := rfl
@[simp] theorem enqueuePcm_g722Dec (b : List Byte) (s : State) : (enqueuePcm b s).g722Dec = s.g722Dec := rfl
@[simp] theorem enqueuePcm_g722Enc (b : List Byte) (s : State) : (enqueuePcm b s).g722Enc = s.g722Enc := rfl
@[simp] theorem enqueuePcm_opusDec (b : List Byte) (s : State) : (enqueuePcm b s).opusDec = s.opusDec := rfl
@[simp] theorem enqueuePcm_opusEnc (b : List Byte) (s : State) : (enqueuePcm b s).opusEnc = s.opusEnc := rfl
@[simp] theorem enqueuePcm_opusDecFail (b : List Byte) (s : State) : (enqueuePcm b s).opusDecFail = s.opusDecFail := rfl
@[simp] theorem enqueuePcm_opusEncFail (b : List Byte) (s : State) : (enqueuePcm b s).opusEncFail = s.opusEncFail := rfl
@[simp] theorem enqueuePcm_idsp (b : List Byte) (s : State) : (enqueuePcm b s).idsp = s.idsp := rfl
@[simp] theorem enqueuePcm_irs (b : List Byte) (s : State) : (enqueuePcm b s).irs = s.irs := rfl
@[simp] theorem enqueuePcm_ers (b : List Byte) (s : State) : (enqueuePcm b s).ers = s.ers := rfl
@[simp] theorem enqueuePcm_queue (b : List Byte) (s : State) : (enqueuePcm b s).queue = (payloadFrames (frameLen s.params.targetRate) b).foldl (fifoPush s.params.egrQueueCap) s.queue := rfl
@[simp] theorem enqueuePcm_primed (b : List Byte) (s : State) : (enqueuePcm b s).primed = s.primed := rfl
@[simp] theorem enqueuePcm_underrunCount (b : List Byte) (s : State) : (enqueuePcm b s).underrunCount = s.underrunCount := rfl
@[simp] theorem enqueuePcm_tickBusy (b : List Byte) (s : State) : (enqueuePcm b s).tickBusy = s.tickBusy := rfl
@[simp] theorem enqueuePcm_edsp (b : List Byte) (s : State) : (enqueuePcm b s).edsp = s.edsp := rfl
@[simp] theorem enqueuePcm_events (b : List Byte) (s : State) : (enqueuePcm b s).events = s.events := rfl

/-! ## `resetState` -/

@[simp] theorem resetState_params (s : State) : (resetState s).params = s.params := rfl
@[simp] theorem resetState_input (s : State) : (resetState s).input = s.input := rfl
@[simp] theorem resetState_codecMap (s : State) : (resetState s).codecMap = [] := rfl
@[simp] theorem resetState_sessionCodec (s : State) : (resetState s).sessionCodec = none := rfl
@[simp] theorem resetState_jbMap (s : State) : (resetState s).jbMap = [] := rfl
@[simp] theorem resetState_nextExpected (s : State) : (resetState s).nextExpected = 0#32 := rfl
@[simp] theorem resetState_isSynchronized (s : State) : (resetState s).isSynchronized = false := rfl
@[simp] theorem resetState_everSynced (s : State) : (resetState s).everSynced = false := rfl
@[simp] theorem resetState_missingCount (s : State) : (resetState s).missingCount = 0#32 := rfl
@[simp] theorem resetState_lastDecoded (s : State) : (resetState s).lastDecoded = [] := rfl
@[simp] theorem resetState_lastDecodedRate (s : State) : (resetState s).lastDecodedRate = .r8000 := rfl
@[simp] theorem resetState_g722Dec (s : State) : (resetState s).g722Dec = ⟨0#16, 0#16⟩ := rfl
@[simp] theorem resetState_g722Enc (s : State) : (resetState s).g722Enc = ⟨0#16, 0#16⟩ := rfl
@[simp] theorem resetState_opusDec (s : State) : (resetState s).opusDec = Config.opusDecInit := rfl
@[simp] theorem resetState_opusEnc (s : State) : (resetState s).opusEnc = Config.opusEncInit := rfl
@[simp] theorem resetState_opusDecFail (s : State) : (resetState s).opusDecFail = 0#32 := rfl
@[simp] theorem resetState_opusEncFail (s : State) : (resetState s).opusEncFail = 0#32 := rfl
@[simp] theorem resetState_idsp (s : State) : (resetState s).idsp = IngressDspState.reset s.params := rfl
@[simp] theorem resetState_irs (s : State) : (resetState s).irs = ResamplerState.reset := rfl
@[simp] theorem resetState_ers (s : State) : (resetState s).ers = ResamplerState.reset := rfl
@[simp] theorem resetState_queue (s : State) : (resetState s).queue = [] := rfl
@[simp] theorem resetState_primed (s : State) : (resetState s).primed = false := rfl
@[simp] theorem resetState_underrunCount (s : State) : (resetState s).underrunCount = 0#32 := rfl
@[simp] theorem resetState_tickBusy (s : State) : (resetState s).tickBusy = false := rfl
@[simp] theorem resetState_edsp (s : State) : (resetState s).edsp = EgressDspState.reset s.params := rfl
@[simp] theorem resetState_events (s : State) : (resetState s).events = s.events := rfl

/-! ## `noteEmitted` -/

@[simp] theorem noteEmitted_limiterGain (p : Params) (f : Frame) (r : Bool) (e : EgressDspState) :
    (noteEmitted p f r e).limiterGain = e.limiterGain := rfl
@[simp] theorem noteEmitted_needsFadeIn (p : Params) (f : Frame) (r : Bool) (e : EgressDspState) :
    (noteEmitted p f r e).needsFadeIn = e.needsFadeIn := rfl
@[simp] theorem noteEmitted_isFirstPacket (p : Params) (f : Frame) (r : Bool) (e : EgressDspState) :
    (noteEmitted p f r e).isFirstPacket = e.isFirstPacket := rfl
@[simp] theorem noteEmitted_lastFullFrame (p : Params) (f : Frame) (r : Bool) (e : EgressDspState) :
    (noteEmitted p f r e).lastFullFrame = e.lastFullFrame := rfl
@[simp] theorem noteEmitted_lastFrameWasSilence (p : Params) (f : Frame) (r : Bool) (e : EgressDspState) :
    (noteEmitted p f r e).lastFrameWasSilence = !r := rfl
@[simp] theorem noteEmitted_lastOutputSample (p : Params) (f : Frame) (r : Bool) (e : EgressDspState) :
    (noteEmitted p f r e).lastOutputSample = f.getLast?.getD e.lastOutputSample := rfl
@[simp] theorem noteEmitted_tail (p : Params) (f : Frame) (r : Bool) (e : EgressDspState) :
    (noteEmitted p f r e).tail = lastSamples p.xfadeLen (e.tail ++ f) := rfl

end Sys2Proof.Laws
end

