-- ==== Sys2Proof/Machine/Assembler.lean ====
section
/-! DEFINITION. The assembler's lines and the pseudo-instructions (30_encoding.md R132, R133), over
lines already split into their operands: which bytes of the command stream each stands for, and
which operands are assembly errors. The lexical form of a line is no part of the machine (log 13,
DESIGN CHOICE, safe). -/

namespace Sys2Proof.Machine

/-- A codec operand: a name or a number (R132). -/
inductive AsmCodec where
  | name (c : Codec)
  | number (n : Nat)
  deriving DecidableEq, Repr

/-- A bytes operand (R132). -/
inductive AsmBytes where
  /-- `hex"…"` -/
  | hex (bytes : List Byte)
  /-- `<byte> x <count>` -/
  | repeated (b count : Nat)
  /-- `pcm[<s0>, <s1>, …]` -/
  | pcm (samples : List Int)
  /-- `pcm[<s>] x <count>` -/
  | pcmRepeated (sample : Int) (count : Nat)
  deriving DecidableEq, Repr

/-- A line of the assembler: a command, a pseudo-instruction or raw bytes (R132, R133). -/
inductive AsmLine where
  | cfgCodec (pt : Nat) (codec : AsmCodec) (rate : Nat)
  | rtpIn (pt ts : Nat) (bytes : AsmBytes)
  | ingPull
  | egrEnq (bytes : AsmBytes)
  | egrTick
  | fadeReset
  | egrClear
  | callReset
  | raw (bytes : List Byte)
  | callStart (pt : Nat) (codec : AsmCodec) (rate : Nat)
  | enqSilence (n : Nat)
  | ticks (n : Nat)
  | pulls (n : Nat)
  deriving DecidableEq, Repr

/-- The PCM16 LE bytes of samples in range (R132). -/
def asmPcm (samples : List Int) : Option (List Byte) :=
  if samples.all (fun v => decide (-32768 ≤ v ∧ v ≤ 32767)) then
    some (pcmBytes (samples.map (BitVec.ofInt 16)))
  else none

/-- The bytes of an operand, where they fit the `len` field (R132). -/
def asmBytes (b : AsmBytes) : Option (List Byte) :=
  let bytes :=
    match b with
    | .hex bs => some bs
    | .repeated v count => if v < 256 then some (List.replicate count (BitVec.ofNat 8 v)) else none
    | .pcm samples => asmPcm samples
    | .pcmRepeated v count => asmPcm (List.replicate count v)
  bytes.filter fun bs => decide (bs.length ≤ maxPayload)

/-- A bytes operand of `RTP_IN`: the `pcm` forms are for `EGR_ENQ` (R132). -/
def asmRtpBytes (b : AsmBytes) : Option (List Byte) :=
  match b with
  | .hex _ => asmBytes b
  | .repeated _ _ => asmBytes b
  | .pcm _ => none
  | .pcmRepeated _ _ => none

/-- The id of a codec operand (R132). -/
def asmCodecId (c : AsmCodec) : Option Byte :=
  match c with
  | .name c => some (codecId c)
  | .number n => if n < 256 then some (BitVec.ofNat 8 n) else none

/-- A `CFG_CODEC` with operands in range (R132). -/
def asmCfgCodec (pt : Nat) (codec : AsmCodec) (rate : Nat) : Option (List Instr) :=
  match asmCodecId codec with
  | some id =>
    if pt < 256 ∧ rate < 2 ^ 24 then some [.cfgCodec (BitVec.ofNat 8 pt) id (BitVec.ofNat 24 rate)] else none
  | none => none

/-- The commands a line stands for (R132, R133); `none` is an assembly error. A line of raw bytes
stands for none: see `assemble`. -/
def expandLine (p : Params) (line : AsmLine) : Option (List Instr) :=
  match line with
  | .cfgCodec pt codec rate => asmCfgCodec pt codec rate
  | .rtpIn pt ts bytes =>
    match asmRtpBytes bytes with
    | some bs =>
      if pt < 256 ∧ ts < 2 ^ 32 then some [.rtpIn (BitVec.ofNat 8 pt) (BitVec.ofNat 32 ts) bs] else none
    | none => none
  | .ingPull => some [.ingPull]
  | .egrEnq bytes => (asmBytes bytes).map fun bs => [.egrEnq bs]
  | .egrTick => some [.egrTick]
  | .fadeReset => some [.fadeReset]
  | .egrClear => some [.egrClear]
  | .callReset => some [.callReset]
  | .raw _ => some []
  | .callStart pt codec rate => (asmCfgCodec pt codec rate).map fun is => .callReset :: is
  | .enqSilence n =>
    if n ≤ 65535 / (2 * frameLen p.targetRate) then
      some [.egrEnq (List.replicate (2 * n * frameLen p.targetRate) 0#8)]
    else none
  | .ticks n => some (List.replicate n .egrTick)
  | .pulls n => some (List.replicate n .ingPull)

/-- The bytes a line adds to the command stream (R132). -/
def assemble (p : Params) (line : AsmLine) : Option (List Byte) :=
  match line with
  | .raw bytes => some bytes
  | _ => (expandLine p line).map fun is => is.flatMap encode

end Sys2Proof.Machine
end

