-- ==== Sys2Proof/Tests/Slice0.lean ====
section
/-! SUPPORT. The model's own tests: expected results are the vectors of 95_test_vectors.md and the
encodings of 30_encoding.md, each named in a comment; then, for every statement with hypotheses, a
state and operands that meet them. -/

namespace Sys2Proof.Tests

open Sys2Proof Sys2Proof.Machine

set_option Elab.async false

/-! ## Helpers -/

/-- Samples of integers. -/
def samples (l : List Int) : Frame := l.map (BitVec.ofInt 16)

/-- A block in a call with this session codec mapped at payload type 0. -/
def inCall (c : Codec) : State := { State.reset with codecMap := [(0, c)], sessionCodec := some c }

/-- A stored frame of one byte. -/
def stored (ts : U32) : RtpFrame := ⟨0, [0xFF], ts⟩

/-- A PCMU call that drains, expecting this timestamp, with these timestamps stored. -/
def draining (expected : U32) (keys : List U32) : State :=
  { inCall .pcmu with
    jbMap := keys.map stored, nextExpected := expected, isSynchronized := true, everSynced := true }

/-! ## WellFormed (R121, R125, R126): a payload longer than the `len` field is refused -/

theorem test_wellFormed_rtpIn : ¬WellFormed (.rtpIn 0 0 (List.replicate 65536 0)) := by
  simp only [WellFormed, List.length_replicate, maxPayload]
  omega

theorem test_wellFormed_egrEnq : ¬WellFormed (.egrEnq (List.replicate 65536 0)) := by
  simp only [WellFormed, List.length_replicate, maxPayload]
  omega

theorem test_wellFormed_rtpIn_longest : WellFormed (.rtpIn 0 0 (List.replicate 65535 0)) := by
  simp only [WellFormed, List.length_replicate, maxPayload]
  omega

theorem test_wellFormed_agrees :
    wellFormed (.rtpIn 0 0 (List.replicate 65536 0)) = false
    ∧ wellFormed (.egrEnq (List.replicate 65536 0)) = false
    ∧ wellFormed (.egrEnq (List.replicate 65535 0)) = true := by
  simp only [wellFormed, List.length_replicate, maxPayload]
  decide

/-! ## Decode: one word of every constructor, written out from R121 to R127 (R154, T1 to T8) -/

theorem test_decode_cfgCodec :
    decode [0x01, 0x6F, 0x00, 0x00, 0x04, 0x80, 0xBB, 0x00] = .command (.cfgCodec 111 4 48000) 8 := by
  decide

theorem test_decode_rtpIn :
    decode [0x02, 0x00, 0x02, 0x00, 0xA0, 0x00, 0x00, 0x00, 0xFF, 0xFF]
      = .command (.rtpIn 0 160 [0xFF, 0xFF]) 10 := by
  decide

theorem test_decode_ingPull : decode [0x03, 0x00, 0x00, 0x00] = .command .ingPull 4 := by decide

theorem test_decode_egrEnq :
    decode [0x04, 0x00, 0x02, 0x00, 0x10, 0x27] = .command (.egrEnq [0x10, 0x27]) 6 := by
  decide

theorem test_decode_egrTick : decode [0x05, 0x00, 0x00, 0x00] = .command .egrTick 4 := by decide

theorem test_decode_fadeReset : decode [0x06, 0x00, 0x00, 0x00] = .command .fadeReset 4 := by decide

theorem test_decode_egrClear : decode [0x07, 0x00, 0x00, 0x00] = .command .egrClear 4 := by decide

theorem test_decode_callReset : decode [0x08, 0x00, 0x00, 0x00] = .command .callReset 4 := by decide

/-- T9, T10, T11, T11a, T11b, T11c. -/
theorem test_decode_malformed :
    decode [0x09, 0x00, 0x00, 0x00] = .malformed .reservedOpcode 0x00000009 4
    ∧ decode [0x00, 0x00, 0x00, 0x00] = .malformed .reservedOpcode 0x00000000 4
    ∧ decode [0x05, 0x01, 0x00, 0x00] = .malformed .nonzeroArg8 0x00000105 4
    ∧ decode [0xFF, 0x00, 0x02, 0x00, 0xAA, 0xBB] = .malformed .reservedOpcode 0x000200FF 6
    ∧ decode [0x01, 0x00, 0x01, 0x00, 0x01, 0x40, 0x1F, 0x00, 0xEE]
        = .malformed .nonzeroLen 0x00010001 9
    ∧ decode [0x04, 0x01, 0x02, 0x00, 0x10, 0x27] = .malformed .nonzeroArg8 0x00020104 6 := by
  decide

/-- T11f. -/
theorem test_decode_incomplete : decode [0x05, 0x00, 0x00] = .incomplete := by decide

/-- An `RTP_IN` header and argument word whose operands are all different (R125). -/
theorem test_decodeTableWord : decodeTableWord 64 0x4433221100020702
    = some (.rtpIn 7 0x44332211 [0, 0]) := by
  decide

/-- T11a: the malformed command is reported and skipped, and the tick behind it is still there. -/
theorem test_step_skips_malformed :
    step { State.reset with input := [0xFF, 0x00, 0x02, 0x00, 0xAA, 0xBB, 0x05, 0x00, 0x00, 0x00] }
      = .next { State.reset with
          input := [0x05, 0x00, 0x00, 0x00], events := [.warning .badCommand 0x000200FF] } := by
  rfl

/-! ## The byte form of events (T11g to T11l) -/

theorem test_encodeEvent :
    encodeEvent .queueDrained = [0x83, 0x00, 0x00, 0x00]
    ∧ encodeEvent (.jbResync 800 1600)
        = [0x86, 0x00, 0x04, 0x00, 0x20, 0x03, 0x00, 0x00, 0x40, 0x06, 0x00, 0x00]
    ∧ (encodeEvent (.encFrameReady .g722 320 (List.replicate 160 0))).take 8
        = [0x82, 0x03, 0xA0, 0x00, 0x40, 0x01, 0x00, 0x00]
    ∧ (encodeEvent (.pcmFrameReady (List.replicate 320 0x1234))).take 6
        = [0x81, 0x00, 0x80, 0x02, 0x34, 0x12]
    ∧ encodeEvent (.warning .jbOverflow 10240) = [0x84, 0x07, 0x00, 0x00, 0x00, 0x28, 0x00, 0x00]
    ∧ encodeEvent (.callError .decoder 10) = [0x85, 0x01, 0x00, 0x00, 0x0A, 0x00, 0x00, 0x00] := by
  decide +kernel

/-! ## The commands -/

/-- The example of R201. -/
theorem test_cfgCodec_maps :
    exec (.cfgCodec 0 1 8000) State.reset
      = .next { State.reset with codecMap := [(0, .pcmu)], sessionCodec := some .pcmu } := by
  rfl

/-- T11d. -/
theorem test_cfgCodec_refuses_id_7 :
    exec (.cfgCodec 9 7 16000) State.reset
      = .next { State.reset with events := [.warning .badCommand 0x003E8007] } := by
  rfl

/-- T63: the third frame synchronises on the serially earliest key, across the wrap. -/
theorem test_rtpIn_synchronises_across_the_wrap :
    (afterCommand (.rtpIn 0 0xFFFFFEC0 [0xFF])
      { inCall .pcmu with jbMap := [stored 0, stored 0xFFFFFF60] }).nextExpected = 0xFFFFFEC0 := by
  decide +kernel

/-- T66: a full buffer drops the arriving frame. -/
theorem test_rtpIn_overflow :
    (afterCommand (.rtpIn 0 10240 [0xFF])
      { draining 0 [0, 160, 320] with params := { jbCap := 3 } }).events
      = [.warning .jbOverflow 10240] := by
  decide +kernel

/-- T61, pull 3: the jump, and the frame drained by the same pull. -/
theorem test_ingPull_resynchronises :
    let t := afterCommand .ingPull { draining 800 [1600, 1760, 1920] with missingCount := 2 }
    t.events.head? = some (.jbResync 800 1600) ∧ t.nextExpected = 1760 ∧ t.missingCount = 0
    ∧ t.jbMap.length = 2 ∧ t.events.getLast? = some (.pcmFrameReady (List.replicate 320 0)) := by
  decide +kernel

/-- T64 and T69: a miss replays the last decoded frame attenuated, and purges the stale key 170. -/
theorem test_ingPull_conceals :
    let t := afterCommand .ingPull { draining 160 [170, 320] with lastDecoded := samples [1008, -1000] }
    t.lastDecoded = samples [927, -920] ∧ t.nextExpected = 320 ∧ t.missingCount = 1
    ∧ t.jbMap = [stored 320] := by
  decide +kernel

/-- T80. -/
theorem test_egrEnq_pads :
    (afterCommand (.egrEnq [0x10, 0x27]) State.reset).queue = [samples [10000] ++ zeros 319] := by
  decide +kernel

/-- T80a, with a cap of 5. -/
theorem test_egrEnq_drops_the_oldest :
    (afterCommand (.egrEnq [0x06])
      { State.reset with
        params := { egrQueueCap := 5, targetRate := .r8000 }
        queue := [[1], [2], [3], [4], [5]] }).queue
      = [[2], [3], [4], [5], samples [6] ++ zeros 159] := by
  decide +kernel

/-- Program C: priming silence in G.722. -/
theorem test_egrTick_primes :
    (afterCommand .egrTick (inCall .g722)).events
      = [.encFrameReady .g722 320 (List.replicate 80 [0x43, 0x84]).flatten] := by
  decide +kernel

/-- Program B, tick 4: the first empty tick replays 1000s at 0.75, in A-law. -/
theorem test_egrTick_interpolates :
    let t := afterCommand .egrTick
      { inCall .pcma with
        primed := true, edsp := { State.reset.edsp with lastFullFrame := List.replicate 160 1000 } }
    t.events = [.encFrameReady .pcma 160 (List.replicate 160 0xF2)] ∧ t.underrunCount = 1
    ∧ t.edsp.lastOutputSample = 750 ∧ t.edsp.tail = List.replicate 32 750
    ∧ t.edsp.lastFrameWasSilence = true := by
  decide +kernel

/-- The example of R206. -/
theorem test_fadeReset :
    (afterCommand .fadeReset
      { State.reset with edsp := { State.reset.edsp with needsFadeIn := false } }).edsp.needsFadeIn
      = true := by
  rfl

/-- T84. -/
theorem test_egrClear :
    exec .egrClear { State.reset with queue := [[1], [2]], primed := true, underrunCount := 3 }
      = .next { State.reset with primed := true, underrunCount := 3 } := by
  rfl

/-- The example of R208: everything is reset but the events. -/
theorem test_callReset :
    exec .callReset { draining 800 [960] with events := [.queueDrained] }
      = .next { State.reset with events := [.queueDrained] } := by
  rfl

/-! ## G.711 (T12, T13) -/

theorem test_g711_encode :
    (samples [0, -1, 8, -8, 31, 32, 100, -1000, 5000, 32767, -32768]).map mulawEncode
      = [0xFF, 0x7F, 0xFE, 0x7E, 0xFB, 0xFB, 0xF2, 0x4E, 0xAB, 0x80, 0x00]
    ∧ (samples [0, -1, 8, -8, 31, 32, 100, -1000, 5000, 32767, -32768]).map alawEncode
      = [0xD5, 0x55, 0xD5, 0x55, 0xD4, 0xD7, 0xD3, 0x7A, 0x86, 0xAA, 0x2A] := by
  decide +kernel

theorem test_g711_decode :
    ([0x00, 0x7F, 0x80, 0xFF, 0xFE, 0x7E, 0x8F, 0x0F] : List Byte).map mulawDecode
      = samples [-32124, 0, 32124, 0, 8, -8, 16764, -16764]
    ∧ ([0xD5, 0x55, 0xAA, 0x2A, 0xD4, 0x54, 0x80, 0x00] : List Byte).map alawDecode
      = samples [8, -8, 32256, -32256, 24, -24, 5504, -5504] := by
  decide +kernel

/-! ## G.722 (T20, T21, T22, T25) and the Opus downmix (T26, T27) -/

theorem test_quant :
    (quant 0 qlTable, quant 0 qhTable, quant (-1024) qlTable, quant (-2048) qlTable) = (3, 1, 1, 0) := by
  decide +kernel

theorem test_g722_encode :
    g722Encode ⟨0, 0⟩ (samples [0, 0, 1000, 1000, 3000, -3000, -20000, 20000, 100, -100])
      = ([0x43, 0x86, 0xC1, 0x04, 0x83], ⟨0xFFE0, 64⟩) := by
  decide +kernel

theorem test_g722_decode :
    (g722Decode ⟨0, 0⟩ [0x43, 0x86, 0xC1, 0x04, 0x83]).1
      = samples [-96, 32, 992, 992, 992, -1056, 0, 0, 32, -96]
    ∧ (g722Decode ⟨0, 0⟩ [0x7B]).1 = samples [-96, 32] := by
  decide +kernel

theorem test_downmix :
    downmix (samples [1001, 1000, -3, -4, 3, -4]) = samples [1000, -3, 0]
    ∧ downmix (samples [5, 6, 7]) = samples [5] := by
  decide +kernel

/-! ## The resampler (T30 to T34, T37) -/

theorem test_convert_copy :
    convert {} (samples [5, 6, 7]) .r8000 .r8000 ResamplerState.reset 5
      = (samples [5, 6, 7, 7, 7], { ResamplerState.reset with lastInputSample := 7 }) := by
  decide +kernel

theorem test_convert_double :
    (convert {} (samples [0, 100, 200, -300]) .r8000 .r16000 ResamplerState.reset 8).1
      = samples [0, 50, 100, 150, 200, -50, -300, -300] := by
  decide +kernel

theorem test_convert_triple :
    (convert {} (samples [0, 300, 600, 900]) .r8000 .r24000 ResamplerState.reset 12).1
      = samples [0, 0, 0, 0, 100, 200, 300, 400, 500, 600, 700, 800] := by
  decide +kernel

theorem test_convert_three_halves :
    (convert {} (samples [1800, 2100, 2400, 2700, 3000, 3300]) .r16000 .r24000
      { ResamplerState.reset with lastInputSample := 1500 } 9).1
      = samples [1500, 1700, 1900, 2100, 2300, 2500, 2700, 2900, 3100] := by
  decide +kernel

/-- T34: `iir_state` is 752.1339111328125 and 70.44407653808594. -/
theorem test_convert_filters :
    convert {} (List.replicate 8 1000) .r16000 .r8000 ResamplerState.reset 4
      = (samples [0, 791, 1055, 989], ⟨0, 1002, 0x443C0892, 0x428CE35E⟩) := by
  decide +kernel

/-- R314 gives the table of R316 (T37). -/
theorem test_design_is_the_table :
    designIir defaultCutoff 16000 8000
      = ⟨0x3E7E4D20, 0x3EFE4D20, 0x3E7E4D20, 0xBE3CA28B, 0x3E35D70A⟩
    ∧ designIir defaultCutoff 48000 16000
      = ⟨0x3E0640C4, 0x3E8640C4, 0x3E0640C4, 0xBF3F6F1D, 0x3E8B5FC2⟩
    ∧ designIir defaultCutoff 24000 16000
      = ⟨0x3EC85D2A, 0x3F485D2A, 0x3EC85D2A, 0x3EBD32B1, 0x3E4883EA⟩
    ∧ designIir defaultCutoff 48000 8000
      = ⟨0x3D28F978, 0x3DA8F978, 0x3D28F978, 0xBFACAAFA, 0x3F039451⟩ := by
  decide +kernel

/-- R314 in the order it is written, just above the cutoff 0.75 from 24000 to 16000: K is 1 + 2^-52, so a1
is positive. -/
theorem test_design_keeps_the_order :
    f32Lt f32Zero (designIir 0x3FE8000000000001 24000 16000).a1 = true := by
  decide +kernel

/-! ## The ingress chain (T41 to T43) -/

/-- T41: `y` is 995.0, 24.875, -1965.2493896484375. -/
theorem test_dcAndPreemphasis :
    (dcAndPreemphasis {} (IngressDspState.reset {}) (samples [1000, 1000, -1000])).1
      = [0x4478C000, 0x41C70000, 0xC4F5A7FB] := by
  decide +kernel

/-- T42, the third frame: 2458 and 1.0211377143859863, from 2620 and 1.0106446743011475. -/
theorem test_agcUpdate :
    let d := agcUpdate {}
      { IngressDspState.reset {} with rmsEstimate := f32OfInt 2620, agcGain := 0x3F815CCE } (f32OfInt 1000)
    d.rmsEstimate = f32OfInt 2458 ∧ d.agcGain = 0x3F82B4A4 := by
  decide +kernel

/-- T43: the gate opens on the frame's RMS and the frame is passed. -/
theorem test_ingressDsp :
    ingressDsp {} (IngressDspState.reset {}) (samples [1000, 1000, 1000, 1000])
      = (samples [1000, 25, 25, 25],
         ⟨0x419ECDC9, 0x44750992, 0x452BDCBD, 0x3F809514, true, 0⟩) := by
  decide +kernel

/-! ## The egress chain (T50, T52 to T55a) -/

/-- T50, on the frame's first samples: the fade-in starts at 0 and rises by 125. -/
theorem test_egressDsp_fades_in :
    (egressDsp {} (EgressDspState.reset {}) (List.replicate 4 10000)).1 = samples [0, 125, 250, 375] := by
  decide +kernel

/-- T52: 24001 is 24001 after rounding; 26772.703125, 28569.564453125, 29942.34375 and 30000. -/
theorem test_knee :
    ([0x46BB8000, 0x46D2F000, 0x46EA6000, 0x471C4000, 0x4E6E6B28] : List F32).map (limitSample {} f32One)
      = [0x46BB8000, 0x46D12968, 0x46DF3321, 0x46E9ECB0, 0x46EA6000]
    ∧ f32ToI16 (limitSample {} f32One 0x46BB8200) = 24001 := by
  decide +kernel

/-- T53 and T53a: 0.957763671875, and 0.9208331108093262 to 0.9216247797012329. -/
theorem test_limiterUpdate :
    limiterUpdate {} f32One (f32OfInt 32768) = 0x3F753000
    ∧ limiterUpdate {} 0x3F6BBBB8 f32Zero = 0x3F6BEF9A := by
  decide +kernel

/-- T54: a tail of 8000s into zeros. -/
theorem test_crossfade :
    (([0, 1, 2, 3, 30, 31, 32] : List Nat).map fun n =>
      f32ToI16 (blendSample 32 (List.replicate 32 8000) n f32Zero))
      = samples [7758, 7515, 7273, 7030, 485, 242, 0] := by
  decide +kernel

/-- T55 and T55a. -/
theorem test_rampedSilence :
    (([0, 1, 29, 30, 31, 32] : List Nat).map (silenceSample 32 16000)) = samples [15500, 15000, 1000, 500, 0, 0]
    ∧ (([0, 1, 2, 30] : List Nat).map (silenceSample 32 2000)) = samples [1938, 1875, 1812, 62] := by
  decide +kernel

/-- W6. -/
theorem test_concealSample :
    (samples [1000, -1000, 32767, -32768, 13, 1]).map (concealSample {})
      = samples [920, -920, 30146, -30147, 12, 1] := by
  decide +kernel

/-- R285 and R471 at the largest constants: a saturated count reports once, when it becomes the limit. -/
theorem test_saturated_count_reports_once :
    let p : Params := { opusFailLimit := 0xFFFFFFFF, underrunInterp := 0xFFFFFFFE, jitterPrimingMode := false }
    let failing := fun n : U32 => (opusEncodeFail { State.powerOn p with opusEncFail := n }).events.length
    let empty := fun n : U32 => (noteDrained n { State.powerOn p with underrunCount := satInc n }).events.length
    (failing 0xFFFFFFFE, failing 0xFFFFFFFF, empty 0xFFFFFFFE, empty 0xFFFFFFFF) = (2, 1, 1, 0) := by
  decide +kernel

/-! ## The assembler (R132, R133) -/

theorem test_assemble :
    assemble {} (.callStart 8 (.name .pcma) 8000)
      = some [0x08, 0x00, 0x00, 0x00, 0x01, 0x08, 0x00, 0x00, 0x02, 0x40, 0x1F, 0x00]
    ∧ assemble {} (.egrEnq (.pcm [10000])) = some [0x04, 0x00, 0x02, 0x00, 0x10, 0x27]
    ∧ assemble {} (.cfgCodec 256 (.number 1) 0) = none
    ∧ assemble {} (.enqSilence 103) = none := by
  decide +kernel

/-! ## Witnesses: a state and operands that meet the hypotheses of each statement, one for each clause
at a boundary of its range -/

/-- The default constants are legal. -/
theorem witness_legalParams : legalParams {} = true := by decide +kernel

/-- A resampler's invariant holds after reset. -/
theorem witness_resamplerInv : ResamplerInv ResamplerState.reset where
  z1 := by decide +kernel
  z2 := by decide +kernel
  phaseNotNegative := by decide +kernel
  phaseBelowOne := by decide +kernel

/-- The invariant holds of the machine after reset. -/
theorem witness_inv : Inv {} State.reset where
  constants := rfl
  codecMap := rfl
  jitterBuffer :=
    { canonical := rfl
      bounded := by decide
      payloads := by simp [State.reset, State.powerOn]
      synced := by simp [State.reset, State.powerOn]
      filling := by decide
      notBehind := by simp [State.reset, State.powerOn] }
  egress :=
    { wholeFrames := by simp [State.reset, State.powerOn]
      bounded := by decide
      tail := by decide
      idle := rfl }
  numeric :=
    { dcEstimate := by decide +kernel
      preemphasisPrev := by decide +kernel
      rmsEstimate := by decide +kernel
      agcGain := by decide +kernel
      limiterGain := by decide +kernel
      ingressResampler := witness_resamplerInv
      egressResampler := witness_resamplerInv }

theorem witness_DecodeInvertsEncode :
    WellFormed (.rtpIn 0 160 [0xFF, 0xFF]) ∧ WellFormed (.egrEnq (List.replicate 65535 0)) := by
  simp only [WellFormed, List.length_replicate, maxPayload, List.length_cons, List.length_nil]
  omega

theorem witness_EncodeInvertsDecode :
    decode [0x04, 0x00, 0x02, 0x00, 0x10, 0x27, 0x05] = .command (.egrEnq [0x10, 0x27]) 6 := by
  decide

/-- The header of an `EGR_ENQ` of two bytes, with a byte behind it. -/
theorem witness_CompleteCommandIsExecuted :
    let s := { State.reset with input := [0x04, 0x00, 0x02, 0x00, 0x10, 0x27, 0x05] }
    let op : Byte := 0x04
    let arg8 : Byte := 0
    let len : BitVec 16 := 2
    let body : List Byte := [0x10, 0x27]
    s.input = [op, arg8, len.extractLsb' 0 8, len.extractLsb' 8 8] ++ body ++ [0x05]
    ∧ body.length = (if op = 0x01#8 ∨ op = 0x02#8 then 4 else 0) + len.toNat
    ∧ ¬(op = 0x00#8 ∨ 9 ≤ op.toNat
      ∨ (op ∈ [0x03#8, 0x05#8, 0x06#8, 0x07#8, 0x08#8] ∧ (arg8 ≠ 0#8 ∨ len ≠ 0#16))
      ∨ (op = 0x01#8 ∧ len ≠ 0#16) ∨ (op = 0x04#8 ∧ arg8 ≠ 0#8)) := by
  refine ⟨rfl, by decide, by decide⟩

/-- Opcodes 0, 9 and 255, a nonzero arg8 or len of an F0 opcode, and T11b and T11c. -/
theorem witness_MalformedCommandIsReportedAndSkipped :
    ∀ x ∈ ([(0x00, 0, 0), (0x09, 0, 0), (0xFF, 0, 2), (0x03, 1, 0), (0x08, 0, 1), (0x01, 0, 1),
        (0x04, 1, 2)] : List (Byte × Byte × BitVec 16)),
      let op := x.1
      let arg8 := x.2.1
      let len := x.2.2
      let body : List Byte := List.replicate ((if op = 0x01#8 then 4 else 0) + len.toNat) 0
      let s := { State.reset with
        input := [op, arg8, len.extractLsb' 0 8, len.extractLsb' 8 8] ++ body ++ [0x05] }
      s.input = [op, arg8, len.extractLsb' 0 8, len.extractLsb' 8 8] ++ body ++ [0x05]
      ∧ body.length = (if op = 0x01#8 ∨ op = 0x02#8 then 4 else 0) + len.toNat
      ∧ (op = 0x00#8 ∨ 9 ≤ op.toNat
        ∨ (op ∈ [0x03#8, 0x05#8, 0x06#8, 0x07#8, 0x08#8] ∧ (arg8 ≠ 0#8 ∨ len ≠ 0#16))
        ∨ (op = 0x01#8 ∧ len ≠ 0#16) ∨ (op = 0x04#8 ∧ arg8 ≠ 0#8)) := by
  simp only [List.forall_mem_cons]
  refine ⟨?_, ?_, ?_, ?_, ?_, ?_, ?_, by simp⟩ <;> decide

/-- Three bytes of a header, and an `RTP_IN` that lacks its last payload byte. -/
theorem witness_IncompleteCommandWaits :
    { State.reset with input := [0x05, 0x00, 0x00] }.input.length < 4
    ∧ let op : Byte := 0x02
      let len : BitVec 16 := 2
      let body : List Byte := [0xA0, 0, 0, 0, 0xFF]
      { State.reset with input := [0x02, 0x00, 0x02, 0x00, 0xA0, 0, 0, 0, 0xFF] }.input
        = [op, 0, len.extractLsb' 0 8, len.extractLsb' 8 8] ++ body
      ∧ body.length < (if op = 0x01#8 ∨ op = 0x02#8 then 4 else 0) + len.toNat := by
  decide

theorem witness_LaterBytesDoNotMatter :
    decode { State.reset with input := [0x05, 0x00, 0x00, 0x00] }.input ≠ .incomplete := by
  decide

theorem witness_StepRunsTheDecodedCommand :
    decode { State.reset with input := [0x05, 0x00, 0x00, 0x00] }.input = .command .egrTick 4 := by
  decide

theorem witness_RunExecutesTheCommandsInOrder :
    let is : List Instr := [.cfgCodec 0 1 8000, .egrTick, .callReset]
    (∀ i ∈ is, WellFormed i) ∧ { State.reset with input := is.flatMap encode }.input = is.flatMap encode := by
  simp [WellFormed]

theorem witness_EventBytesDetermineTheEvents :
    (∀ e ∈ [Event.queueDrained, .pcmFrameReady [1, 2]], EventFits e)
    ∧ encodeEvents [Event.queueDrained, .pcmFrameReady [1, 2]]
      = encodeEvents [Event.queueDrained, .pcmFrameReady [1, 2]] := by
  simp [EventFits, maxPayload]

/-- Ids 1 and 4 are codecs; 0, 5 and 255 are not. -/
theorem witness_CfgCodecMapsThePayloadType :
    (1#8 = codecId .pcmu ∧ 4#8 = codecId .opus)
    ∧ ((0#8).toNat = 0 ∨ 5 ≤ (0#8).toNat) ∧ ((5#8).toNat = 0 ∨ 5 ≤ (5#8).toNat)
    ∧ ((255#8).toNat = 0 ∨ 5 ≤ (255#8).toNat) := by
  decide

/-- No codec; late by exactly half the timestamp space; a duplicate; a full buffer; and the last
timestamp that is not late, with room for one frame. -/
theorem witness_RtpInFollowsTheInsertChecks :
    State.reset.sessionCodec = none
    ∧ ((draining 0 [0]).sessionCodec ≠ none ∧ (draining 0 [0]).everSynced = true
      ∧ 2 ^ 31 ≤ (0x80000000#32 - (draining 0 [0]).nextExpected).toNat)
    ∧ ((draining 0 [0]).sessionCodec ≠ none ∧ ∃ f ∈ (draining 0 [0]).jbMap, f.rtpTimestamp = 0#32)
    ∧ (let s := { draining 0 [0, 160, 320] with params := { jbCap := 3 } }
       s.sessionCodec ≠ none ∧ ¬(s.everSynced = true ∧ 2 ^ 31 ≤ (480#32 - s.nextExpected).toNat)
       ∧ (¬∃ f ∈ s.jbMap, f.rtpTimestamp = 480#32) ∧ s.params.jbCap ≤ s.jbMap.length)
    ∧ (let s := { draining 0 [0, 160, 320] with params := { jbCap := 4 } }
       s.sessionCodec ≠ none ∧ ¬(s.everSynced = true ∧ 2 ^ 31 ≤ (0x7FFFFFFF#32 - s.nextExpected).toNat)
       ∧ (¬∃ f ∈ s.jbMap, f.rtpTimestamp = 0x7FFFFFFF#32) ∧ s.jbMap.length < s.params.jbCap) := by
  decide

/-- Draining; Filling below the depth; and Filling with the depth just reached (T60). -/
theorem witness_SyncCheckStartsDraining :
    ((draining 0 [0, 160, 320]).isSynchronized = true)
    ∧ (let s := { draining 0 [0, 160] with isSynchronized := false }
       s.jbMap.length < s.params.jbPrimeDepth)
    ∧ (let s := { draining 800 [3200, 3360, 3520] with isSynchronized := false }
       s.isSynchronized = false ∧ s.params.jbPrimeDepth ≤ s.jbMap.length
       ∧ lowest s.everSynced s.nextExpected s.jbMap = some 3200) := by
  decide

/-- T63 has an earliest key, T68 has none. -/
theorem witness_LowestKeyIsTheSpecsChoice :
    ([stored 0, stored 0xFFFFFEC0, stored 0xFFFFFF60] ≠ [])
    ∧ (∀ j ∈ [stored 0, stored 0xFFFFFEC0, stored 0xFFFFFF60],
        (j.rtpTimestamp - 0xFFFFFEC0#32).toNat < 2 ^ 31)
    ∧ ¬∃ f ∈ [stored 0, stored 0x60000000, stored 0xC0000000],
        ∀ j ∈ [stored 0, stored 0x60000000, stored 0xC0000000],
          (j.rtpTimestamp - f.rtpTimestamp).toNat < 2 ^ 31 := by
  decide

theorem witness_PullWithoutFrameDoesNothing :
    State.reset.sessionCodec = none ∧ (inCall .pcmu).isSynchronized = false := by
  decide

theorem witness_PullDrainsTheExpectedFrame :
    let s := draining 0 [0, 160]
    s.sessionCodec = some .pcmu ∧ s.isSynchronized = true
    ∧ jbLookup s.nextExpected s.jbMap = some (stored 0) := by
  decide

/-- The last count that is concealed, 2. -/
theorem witness_PullConcealsAMiss :
    let s := { draining 160 [320] with missingCount := 1 }
    s.sessionCodec = some .pcmu ∧ s.isSynchronized = true ∧ jbLookup s.nextExpected s.jbMap = none
    ∧ (2#32).toNat = min (s.missingCount.toNat + 1) (2 ^ 32 - 1) ∧ (2#32).toNat ≤ s.params.jbPlcMax := by
  decide

/-- The first count beyond, 3, with 2 frames stored and with 3; and the saturated count. -/
theorem witness_PullBeyondPlcRefillsOrResynchronises :
    (let s := { draining 800 [1600, 1760] with missingCount := 2 }
     s.sessionCodec = some .pcmu ∧ s.isSynchronized = true ∧ jbLookup s.nextExpected s.jbMap = none
     ∧ (3#32).toNat = min (s.missingCount.toNat + 1) (2 ^ 32 - 1) ∧ s.params.jbPlcMax < (3#32).toNat
     ∧ s.jbMap.length < s.params.jbPrimeDepth)
    ∧ (let s := { draining 800 [1600, 1760, 1920] with missingCount := 0xFFFFFFFF }
     s.sessionCodec = some .pcmu ∧ s.isSynchronized = true ∧ jbLookup s.nextExpected s.jbMap = none
     ∧ (0xFFFFFFFF#32).toNat = min (s.missingCount.toNat + 1) (2 ^ 32 - 1)
     ∧ s.params.jbPlcMax < (0xFFFFFFFF#32).toNat
     ∧ s.params.jbPrimeDepth ≤ s.jbMap.length ∧ s.jbMap ≠ []) := by
  decide

theorem witness_PullEmitsOneFrameLast : (draining 0 [0]).sessionCodec = some .pcmu := by rfl

/-- The jitter buffer's invariant in a call that drains. -/
theorem witness_jbInv : JbInv (draining 0 [0, 160]) where
  canonical := by decide
  bounded := by decide
  payloads := by decide
  synced := by decide
  filling := by decide
  notBehind := by decide

/-- Two pulls that drain the keys 0 and 160, in that order. -/
theorem witness_DrainedTimestampsIncrease :
    legalParams (draining 0 [0, 160]).params = true ∧ (draining 0 [0, 160]).everSynced = true
    ∧ (∀ i ∈ [Instr.ingPull, .ingPull], WellFormed i ∧ i ≠ .callReset)
    ∧ timestampSpan [.ingPull, .ingPull] (draining 0 [0, 160]) < 2 ^ 31
    ∧ (pullOutcomes [.ingPull, .ingPull] (draining 0 [0, 160])).filterMap drainedTimestamp = [0, 160] := by
  refine ⟨witness_legalParams, rfl, by simp [WellFormed], by decide +kernel, by decide +kernel⟩

/-- Two consecutive concealments, JB_PLC_MAX of them. -/
theorem witness_ConcealmentIsBounded :
    legalParams (draining 160 []).params = true
    ∧ (∀ i ∈ [Instr.ingPull, .ingPull, .ingPull], i ≠ .callReset)
    ∧ List.replicate 2 .conceal <:+: pullOutcomes [.ingPull, .ingPull, .ingPull] (draining 160 []) := by
  refine ⟨witness_legalParams, by decide, [], [.nothing], ?_⟩
  decide +kernel

/-- A queue at its cap. -/
theorem witness_EgrEnqQueuesWholeFrames :
    let s := { State.reset with params := { egrQueueCap := 5 }, queue := [[], [], [], [], []] }
    1 ≤ s.params.egrQueueCap ∧ s.queue.length ≤ s.params.egrQueueCap := by
  decide

theorem witness_TickIsSkippedWhenBusyOrWithoutCodec :
    { inCall .pcmu with tickBusy := true }.tickBusy = true ∧ State.reset.sessionCodec = none := by
  decide

/-- One frame short of the threshold, in both classes. -/
theorem witness_PrimingTickSendsRampedSilence :
    (let s := { inCall .pcma with queue := [[], []] }
     s.tickBusy = false ∧ s.sessionCodec = some .pcma ∧ s.primed = false
     ∧ s.queue.length < (if Codec.pcma = .pcmu ∨ Codec.pcma = .pcma then s.params.egrPrimeNb
       else s.params.egrPrimeWb))
    ∧ (let s := { inCall .g722 with queue := [[], [], [], []] }
     s.tickBusy = false ∧ s.sessionCodec = some .g722 ∧ s.primed = false
     ∧ s.queue.length < (if Codec.g722 = .pcmu ∨ Codec.g722 = .pcma then s.params.egrPrimeNb
       else s.params.egrPrimeWb)) := by
  decide

/-- Primed with one frame, and not primed with the threshold just reached. -/
theorem witness_SteadyTickPlaysTheOldestFrame :
    (let s := { inCall .g722 with primed := true, queue := [zeros 320] }
     s.tickBusy = false ∧ s.sessionCodec = some .g722 ∧ s.queue = zeros 320 :: [] ∧ s.primed = true)
    ∧ (let s := { inCall .pcmu with queue := [zeros 320, [], []] }
     s.tickBusy = false ∧ s.sessionCodec = some .pcmu ∧ s.queue = zeros 320 :: [[], []]
     ∧ (if Codec.pcmu = .pcmu ∨ Codec.pcmu = .pcma then s.params.egrPrimeNb else s.params.egrPrimeWb)
       ≤ s.queue.length) := by
  decide +kernel

/-- The last interpolated count, 3. -/
theorem witness_BriefUnderrunReplaysTheLastFrame :
    let s := { inCall .pcmu with
      primed := true, underrunCount := 2, edsp := { State.reset.edsp with lastFullFrame := zeros 160 } }
    s.tickBusy = false ∧ s.sessionCodec = some .pcmu ∧ s.primed = true ∧ s.queue = []
    ∧ (3#32).toNat = min (s.underrunCount.toNat + 1) (2 ^ 32 - 1)
    ∧ (3#32).toNat ≤ s.params.underrunInterp
    ∧ s.edsp.lastFullFrame.length = frameLen (nativeRate .pcmu) := by
  decide +kernel

/-- The first count beyond, 4; and a held frame of another length. -/
theorem witness_SustainedUnderrunDrains :
    (let s := { inCall .pcmu with primed := true, underrunCount := 3 }
     s.tickBusy = false ∧ s.sessionCodec = some .pcmu ∧ s.primed = true ∧ s.queue = []
     ∧ (4#32).toNat = min (s.underrunCount.toNat + 1) (2 ^ 32 - 1)
     ∧ s.params.underrunInterp < (4#32).toNat)
    ∧ (let s := { inCall .pcmu with primed := true }
     s.tickBusy = false ∧ s.sessionCodec = some .pcmu ∧ s.primed = true ∧ s.queue = []
     ∧ (1#32).toNat = min (s.underrunCount.toNat + 1) (2 ^ 32 - 1)
     ∧ s.edsp.lastFullFrame.length ≠ frameLen (nativeRate .pcmu)) := by
  decide

theorem witness_TickSendsOneWholeFrame :
    (inCall .opus).tickBusy = false ∧ (inCall .opus).sessionCodec = some .opus := by
  decide

theorem witness_ResetIsPowerOn : State.reset.params = {} ∧ State.reset.input = [] := by decide

/-- A repeated `CFG_CODEC`, and a frame whose timestamp is stored. -/
theorem witness_RepeatedCommandsAreIdempotent :
    exec (.cfgCodec 0 (codecId .pcmu) 0) State.reset = .next (inCall .pcmu)
    ∧ exec (.rtpIn 0 0 [1]) (draining 0 [0]) = .next (draining 0 [0])
    ∧ (∃ f ∈ (draining 0 [0]).jbMap, f.rtpTimestamp = 0#32) ∧ (draining 0 [0]).sessionCodec ≠ none := by
  refine ⟨rfl, rfl, by decide, by decide⟩

theorem witness_PowerOnMeetsTheInvariant : legalParams { targetRate := .r24000, jbCap := 3 } = true := by
  decide +kernel

/-- A step of a tick from reset. -/
theorem witness_EveryStepKeepsTheInvariant :
    legalParams {} = true ∧ Inv {} State.reset ∧ step State.reset = .next State.reset :=
  ⟨witness_legalParams, witness_inv, rfl⟩

/-- The default ceiling is 30000, and the kept samples may lie on it. -/
theorem witness_EgressNeverExceedsTheCeiling :
    let s := { State.reset with edsp := { State.reset.edsp with
      lastOutputSample := 30000, tail := [30000, BitVec.ofInt 16 (-30000)], lastFullFrame := [30000] } }
    legalParams s.params = true ∧ CeilingInv s ∧ decode s.input = .incomplete
    ∧ (egressDsp s.params s.edsp [32767]).1.length = 1
    ∧ (interpolatedFrame s.params 1 s.edsp.lastFullFrame).length = 1
    ∧ (rampedSilence s.params s.edsp 1).length = 1 := by
  refine ⟨witness_legalParams, ⟨?_, ?_, ?_⟩, ?_⟩
  · unfold WithinCeiling
    decide +kernel
  · simp only [List.forall_mem_cons, WithinCeiling]
    refine ⟨?_, ?_, by simp⟩ <;> decide +kernel
  · simp only [List.forall_mem_cons, WithinCeiling]
    refine ⟨?_, by simp⟩
    decide +kernel
  · decide +kernel

theorem witness_CommandsOnlyAppendEvents :
    exec (.rtpIn 0 7 []) State.reset = .next { State.reset with events := [.warning .noCodec 7] } := by
  rfl

/-- Every clause: neither pull, nor tick, nor `CFG_CODEC`. -/
theorem witness_EachDirectionWritesItsOwnState :
    exec .egrClear { State.reset with queue := [[1]] } = .next State.reset
    ∧ exec .ingPull State.reset = .next State.reset ∧ exec .egrTick State.reset = .next State.reset := by
  refine ⟨rfl, rfl, rfl⟩

theorem witness_TickIgnoresTheIngressSide : SameEgress State.reset { State.reset with nextExpected := 7 } :=
  ⟨rfl, rfl, rfl, rfl, rfl, rfl, rfl, rfl, rfl, rfl, rfl⟩

theorem witness_PullIgnoresTheEgressSide : SameIngress State.reset { State.reset with primed := true } :=
  ⟨rfl, rfl, rfl, rfl, rfl, rfl, rfl, rfl, rfl, rfl, rfl, rfl, rfl, rfl, rfl⟩

theorem witness_FlagsAreWrittenOnlyByTheListedCommands :
    exec .callReset { State.reset with primed := true } = .next State.reset
    ∧ readFlag .primed State.reset ≠ readFlag .primed { State.reset with primed := true } := by
  refine ⟨rfl, by decide⟩

/-- The first and the last odd and even pairs. -/
theorem witness_G722DecoderTracksTheEncoder :
    0 < ((samples [5]).length + 1) / 2 ∧ 1 < ((samples [5, 6, 7]).length + 1) / 2 := by
  decide

/-- The clip bounds themselves and the first samples beyond. -/
theorem witness_G711RoundTripsWithinItsBounds :
    (32124#16).toInt.natAbs ≤ 32124 ∧ 32124 < (32125#16).toInt.natAbs
    ∧ (32256#16).toInt.natAbs ≤ 32256 ∧ 32124 < (0x8000#16).toInt.natAbs := by
  decide

theorem witness_IngressOutputIsWithinItsCeiling :
    legalParams {} = true ∧ (1000#16) ∈ (ingressDsp {} (IngressDspState.reset {}) (samples [1000, 1000, 1000, 1000])).1 :=
  ⟨witness_legalParams, by decide +kernel⟩

/-- A silent frame leaves the gate closed. -/
theorem witness_ClosedGateMutesAndFreezesTheAgc :
    (ingressDsp {} (IngressDspState.reset {}) (samples [0, 0])).2.gateOpen = false := by
  decide +kernel

/-- The gate opens on T43's frame; AGC_STEP at 1 and just below; a gain at both ends of its interval; and a frame
RMS of 0 and of 2^100. -/
theorem witness_OpenGateMovesTheAgcWithinItsBounds :
    legalParams { agcStep := f32One } = true ∧ legalParams { agcStep := 0x3F7FFFFF } = true
    ∧ f32Lt 0x3F7FFFFF f32One = true
    ∧ (ingressDsp {} (IngressDspState.reset {}) (samples [1000, 1000, 1000, 1000])).2.gateOpen = true
    ∧ (f32Finite 0x3F000000 && f32AtMost (f32Min ({} : Params).agcMin f32One) 0x3F000000) = true
    ∧ (f32Finite 0x40800000 && f32AtMost 0x40800000 (f32Max ({} : Params).agcMax f32One)) = true
    ∧ f32NotNegative (IngressDspState.reset {}).rmsEstimate = true
    ∧ f32NotNegative 0x71800000 = true ∧ f32AtMost 0x71800000 0x71800000 = true
    ∧ f32NotNegative f32Zero = true := by
  decide +kernel

/-- An RMS equal to GATE_CLOSE does not count, one equal to GATE_OPEN does not open. -/
theorem witness_GateClosesOnlyAfterTheHold :
    legalParams {} = true
    ∧ (let d := { IngressDspState.reset {} with gateOpen := true }
       d.gateOpen = true ∧ d.gateHoldCounter = 0#32)
    ∧ (∀ q ∈ List.replicate 9 f32Zero, f32Lt q ({} : Params).gateClose = true)
    ∧ (List.replicate 9 f32Zero).length < ({} : Params).gateHold
    ∧ (∀ q ∈ List.replicate 10 f32Zero, f32Lt q ({} : Params).gateClose = true)
    ∧ (List.replicate 10 f32Zero).length = ({} : Params).gateHold
    ∧ f32Lt 0x42C80000 ({} : Params).gateClose = false
    ∧ (IngressDspState.reset {}).gateOpen = false ∧ f32Lt ({} : Params).gateOpen 0x43480000 = false
    ∧ f32Lt ({} : Params).gateOpen 0x43480001 = true := by
  have silent : f32Lt f32Zero ({} : Params).gateClose = true := by decide +kernel
  refine ⟨witness_legalParams, ⟨rfl, rfl⟩, ?_, by decide, ?_, by decide, ?_⟩
  · exact fun q h => List.eq_of_mem_replicate h ▸ silent
  · exact fun q h => List.eq_of_mem_replicate h ▸ silent
  · decide +kernel

/-- The gain at both ends of its range. -/
theorem witness_LimiterGainStaysInTheUnitRange :
    legalParams {} = true ∧ f32Lt f32Zero f32One = true ∧ f32Lt f32One f32One = false
    ∧ f32Lt f32Zero 1#32 = true ∧ f32Lt f32One 1#32 = false := by
  refine ⟨witness_legalParams, ?_⟩
  decide +kernel

theorem witness_TanhIsMonotoneUpToOne :
    (0#32).toNat ≤ (0x7F7FFFFF#32).toNat ∧ (0x7F7FFFFF#32).toNat < 0x7F800000
    ∧ (0x39800000#32).toNat ≤ (0x39800001#32).toNat ∧ (0x41800000#32).toNat < 0x7F800000 := by
  decide

/-- The first silent sample of the default ramp, and a last sample of 0. -/
theorem witness_RampedSilenceFallsToZero :
    legalParams {} = true ∧ 31 < 160 ∧ ({} : Params).silRampLen ≤ 31 + 1
    ∧ (EgressDspState.reset {}).lastOutputSample = 0#16 := by
  refine ⟨witness_legalParams, ?_⟩
  decide

theorem witness_UnderrunFadeFalls :
    legalParams {} = true ∧ (0#32).toNat ≤ (0xFFFFFFFF#32).toNat ∧ 4 ≤ (4#16).toInt.natAbs
    ∧ 4 ≤ (0x8000#16).toInt.natAbs := by
  refine ⟨witness_legalParams, ?_⟩
  decide

/-- Phase 0, the largest phase below 1, and a full frame. -/
theorem witness_PhaseStaysInTheUnitInterval :
    f64Lt 0#64 f64Zero = false ∧ f64Lt 0#64 f64One = true
    ∧ f64Lt 0x3FEFFFFFFFFFFFFF#64 f64Zero = false ∧ f64Lt 0x3FEFFFFFFFFFFFFF#64 f64One = true
    ∧ (zeros 320).length = frameLen .r16000 ∧ ResamplerState.reset.fractionalPhase = 0#64 := by
  decide +kernel

theorem witness_RoundingIsToNearestEven : (binary64 = binary32 ∨ binary64 = binary64) ∧ 0 < 1 ∧ 0 ≤ binary64.inf := by
  decide

/-- The root of 2 and its two neighbours. -/
theorem witness_SquareRootIsCorrectlyRounded :
    0 < 0x4000000000000000 ∧ 0x4000000000000000 < binary64.inf
    ∧ sqrtPattern binary64 0x4000000000000000 = some 0x3FF6A09E667F3BCD
    ∧ 0x3FF6A09E667F3BCC < binary64.inf
    ∧ magUnits binary64 0x3FF6A09E667F3BCC < magUnits binary64 0x3FF6A09E667F3BCD
    ∧ magUnits binary64 0x3FF6A09E667F3BCD < magUnits binary64 0x3FF6A09E667F3BCE := by
  decide +kernel

end Sys2Proof.Tests
end

section
/-! SUPPORT. Facts about the formats' magnitudes and about rounding (00_scope.md R12, R13, R20): the
values of the patterns rise strictly, and a rounding takes one of the two patterns around the fraction. -/

namespace Sys2Proof.Laws

open Sys2Proof.Machine

/-! ## The values of the patterns -/

/-- A pattern read as `m` units of `2 ^ s`, in the normal form of its binade; the first pattern of the
next binade, `m = 2 ^ (mant + 1)`, may be read so too. -/
theorem magUnits_binade (f : FloatFormat) {s m : Nat} (hm : m ≤ 2 ^ (f.mant + 1))
    (hs : s = 0 ∨ 2 ^ f.mant ≤ m) : magUnits f (s * 2 ^ f.mant + m) = m * 2 ^ s := by
  have hpos : 0 < 2 ^ f.mant := Nat.two_pow_pos _
  rw [pow_succ] at hm
  unfold magUnits
  rw [Nat.shiftRight_eq_div_pow]
  rcases lt_or_ge m (2 ^ f.mant) with hlow | hhigh
  · obtain rfl : s = 0 := by omega
    simp [Nat.div_eq_of_lt hlow]
  · rcases Nat.lt_or_eq_of_le hm with hin | htop
    · have hsplit : s * 2 ^ f.mant + m = (m - 2 ^ f.mant) + 2 ^ f.mant * (s + 1) := by
        rw [Nat.mul_comm, Nat.mul_succ]
        omega
      have hfrac : m - 2 ^ f.mant < 2 ^ f.mant := by omega
      rw [hsplit, Nat.add_mul_div_left _ _ hpos, Nat.add_mul_mod_self_left, Nat.div_eq_of_lt hfrac,
        Nat.mod_eq_of_lt hfrac, if_neg (by omega), Nat.shiftLeft_eq, Nat.add_sub_cancel' hhigh]
      simp
    · have hsplit : s * 2 ^ f.mant + m = 2 ^ f.mant * (s + 2) := by
        rw [htop]
        ring
      rw [hsplit, Nat.mul_div_cancel_left _ hpos, Nat.mul_mod_right, if_neg (by omega),
        Nat.shiftLeft_eq, htop, show s + 2 - 1 = s + 1 by omega]
      ring

/-- Every pattern has the normal form of its binade. -/
theorem exists_binade (f : FloatFormat) (p : Nat) :
    ∃ s m, p = s * 2 ^ f.mant + m ∧ m < 2 ^ (f.mant + 1) ∧ (s = 0 ∨ 2 ^ f.mant ≤ m) := by
  have hpos : 0 < 2 ^ f.mant := Nat.two_pow_pos _
  have hdiv := Nat.div_add_mod' p (2 ^ f.mant)
  have hmod := Nat.mod_lt p hpos
  rw [pow_succ]
  cases he : p / 2 ^ f.mant with
  | zero =>
    rw [he] at hdiv
    exact ⟨0, p, by omega, by omega, .inl rfl⟩
  | succ s =>
    rw [he, Nat.succ_mul] at hdiv
    exact ⟨s, 2 ^ f.mant + p % 2 ^ f.mant, by omega, by omega, .inr (by omega)⟩

theorem magUnits_lt_succ (f : FloatFormat) (p : Nat) : magUnits f p < magUnits f (p + 1) := by
  obtain ⟨s, m, rfl, hm, hs⟩ := exists_binade f p
  rw [Nat.add_assoc, magUnits_binade f hm.le hs, magUnits_binade f hm (by omega)]
  exact Nat.mul_lt_mul_of_pos_right (Nat.lt_succ_self m) (Nat.two_pow_pos s)

theorem magUnits_strictMono (f : FloatFormat) : StrictMono (magUnits f) :=
  strictMono_nat_of_lt_succ (magUnits_lt_succ f)

@[simp] theorem magUnits_zero (f : FloatFormat) : magUnits f 0 = 0 := by
  simp [magUnits]

/-- Only the subnormals and the first binade have odd values. -/
theorem magUnits_lt_of_odd (f : FloatFormat) {p : Nat} (h : magUnits f p % 2 = 1) :
    magUnits f p < 2 ^ (f.mant + 1) := by
  obtain ⟨s, m, rfl, hm, hs⟩ := exists_binade f p
  rw [magUnits_binade f hm.le hs] at h ⊢
  cases s with
  | zero => simpa using hm
  | succ s =>
    rw [pow_succ, ← Nat.mul_assoc, Nat.mul_mod_left] at h
    cases h

/-- A number of at most `mant + 1` bits, times a power of two that is large enough, is the value of a
pattern in the binade of its leading bit. -/
theorem exists_magUnits_eq (f : FloatFormat) {n e : Nat} (h0 : n ≠ 0) (hn : n.log2 ≤ f.mant)
    (he : f.mant ≤ e) :
    ∃ q, magUnits f q = n * 2 ^ e ∧ q < (e + n.log2 - f.mant + 2) * 2 ^ f.mant := by
  have hlow : 2 ^ f.mant ≤ n * 2 ^ (f.mant - n.log2) := by
    calc 2 ^ f.mant = 2 ^ n.log2 * 2 ^ (f.mant - n.log2) := by rw [← pow_add, Nat.add_sub_cancel' hn]
      _ ≤ n * 2 ^ (f.mant - n.log2) := Nat.mul_le_mul_right _ (Nat.log2_self_le h0)
  have hhigh : n * 2 ^ (f.mant - n.log2) < 2 ^ (f.mant + 1) := by
    calc n * 2 ^ (f.mant - n.log2) < 2 ^ (n.log2 + 1) * 2 ^ (f.mant - n.log2) :=
          Nat.mul_lt_mul_of_pos_right Nat.lt_log2_self (Nat.two_pow_pos _)
      _ = 2 ^ (f.mant + 1) := by rw [← pow_add]; congr 1; omega
  refine ⟨(e + n.log2 - f.mant) * 2 ^ f.mant + n * 2 ^ (f.mant - n.log2), ?_, ?_⟩
  · rw [magUnits_binade f hhigh.le (.inr hlow), Nat.mul_assoc, ← pow_add]
    congr 2
    omega
  · rw [pow_succ] at hhigh
    rw [Nat.add_mul]
    omega

/-! ## Rounding -/

/-- `num / den` units, between the values of `p` and of `p + 1`, go up: they are beyond the midpoint, or
on it with `p` odd. -/
def RoundsUp (f : FloatFormat) (num den p : Nat) : Prop :=
  den * magUnits f p + den * magUnits f (p + 1) < 2 * num
    ∨ (den * magUnits f p + den * magUnits f (p + 1) = 2 * num ∧ p % 2 = 1)

/-- `num / den` units lie from the value of `p` on and below that of `p + 1`. -/
def Brackets (f : FloatFormat) (num den p : Nat) : Prop :=
  den * magUnits f p ≤ num ∧ num < den * magUnits f (p + 1)

/-- `nearestEven` takes the quotient or its successor, by the side of the midpoint. -/
theorem nearestEven_eq (num den : Nat) :
    nearestEven num den =
      if den * (num / den) + den * (num / den + 1) < 2 * num
          ∨ (den * (num / den) + den * (num / den + 1) = 2 * num ∧ num / den % 2 = 1) then
        num / den + 1
      else num / den := by
  have hdiv := Nat.div_add_mod num den
  rw [Nat.mul_succ]
  unfold nearestEven
  split <;> split <;> omega

/-- The fraction's quotient by its last place is a normal significand, or that of a subnormal. -/
theorem quotient_binade (f : FloatFormat) (q : Nat) :
    q / 2 ^ ulpShift f q < 2 ^ (f.mant + 1) ∧ (ulpShift f q = 0 ∨ 2 ^ f.mant ≤ q / 2 ^ ulpShift f q) := by
  unfold ulpShift
  constructor
  · rw [Nat.div_lt_iff_lt_mul (Nat.two_pow_pos _), ← pow_add]
    exact lt_of_lt_of_le Nat.lt_log2_self (Nat.pow_le_pow_right (by decide) (by omega))
  · rcases Nat.eq_zero_or_pos (q.log2 - f.mant) with h | h
    · exact .inl h
    · have h0 : q ≠ 0 := by
        rintro rfl
        simp at h
      rw [Nat.le_div_iff_mul_le (Nat.two_pow_pos _), ← pow_add, Nat.add_sub_cancel' (by omega)]
      exact .inr (Nat.log2_self_le h0)

/-- What rounding does (R13): it takes one of the two patterns around the fraction, but never one beyond
infinity's. -/
theorem roundMag_brackets {f : FloatFormat} (hf : 1 ≤ f.mant) (num : Nat) {den : Nat} (hden : 0 < den) :
    ∃ p, Brackets f num den p
      ∧ (RoundsUp f num den p ∧ roundMag f num den = min (p + 1) f.inf
        ∨ ¬RoundsUp f num den p ∧ roundMag f num den = min p f.inf) := by
  obtain ⟨hm, hs⟩ := quotient_binade f (num / den)
  unfold roundMag
  generalize ulpShift f (num / den) = s at hm hs ⊢
  rw [Nat.div_div_eq_div_mul, ← Nat.shiftLeft_eq] at hm hs
  have hvalue := magUnits_binade f hm.le hs
  have hnext := magUnits_binade f (Nat.succ_le_of_lt hm) (hs.imp_right (·.trans (Nat.le_succ _)))
  have hscale : ∀ k, den * (k * 2 ^ s) = den <<< s * k := fun k => by
    rw [Nat.shiftLeft_eq]
    ring
  have hparity : (s * 2 ^ f.mant + num / (den <<< s)) % 2 = num / (den <<< s) % 2 := by
    obtain ⟨t, ht⟩ := Nat.exists_eq_add_of_le hf
    rw [ht, pow_add, pow_one, Nat.mul_left_comm]
    omega
  have hpos : 0 < den <<< s := by
    rw [Nat.shiftLeft_eq]
    exact Nat.mul_pos hden (Nat.two_pow_pos s)
  refine ⟨s * 2 ^ f.mant + num / (den <<< s), ⟨?_, ?_⟩, ?_⟩
  · rw [hvalue, hscale]
    exact Nat.mul_div_le num _
  · rw [Nat.add_assoc, hnext, hscale]
    exact Nat.lt_mul_div_succ num hpos
  · unfold RoundsUp
    rw [hparity, Nat.add_assoc, hvalue, hnext, hscale, hscale, nearestEven_eq]
    split_ifs with hup
    · exact .inl ⟨hup, rfl⟩
    · exact .inr ⟨hup, rfl⟩

theorem roundMag_le_inf (f : FloatFormat) (num den : Nat) : roundMag f num den ≤ f.inf :=
  min_le_right _ _

/-- The larger of two fractions, here by their cross products, is not bracketed lower. -/
theorem Brackets.mono {f : FloatFormat} {num den p num' den' p' : Nat} (h : Brackets f num den p)
    (h' : Brackets f num' den' p') (hden : 0 < den) (hle : num * den' ≤ num' * den) : p ≤ p' := by
  by_contra hlt
  have hvalues : magUnits f (p' + 1) ≤ magUnits f p := (magUnits_strictMono f).monotone (by omega)
  have : num' * den < num' * den := by
    calc num' * den < den' * magUnits f (p' + 1) * den := Nat.mul_lt_mul_of_pos_right h'.2 hden
      _ ≤ den' * magUnits f p * den := Nat.mul_le_mul_right _ (Nat.mul_le_mul_left _ hvalues)
      _ = den * magUnits f p * den' := by ring
      _ ≤ num * den' := Nat.mul_le_mul_right _ h.1
      _ ≤ num' * den := hle
  exact lt_irrefl _ this

/-- Between the same patterns, a fraction goes up where a smaller one does. -/
theorem RoundsUp.mono {f : FloatFormat} {num den num' den' p : Nat} (h : RoundsUp f num den p)
    (hden : 0 < den) (hden' : 0 < den') (hle : num * den' ≤ num' * den) : RoundsUp f num' den' p := by
  unfold RoundsUp at *
  rw [← Nat.mul_add] at h ⊢
  generalize magUnits f p + magUnits f (p + 1) = mid at h ⊢
  have hmid : den * (den' * mid) ≤ den * (2 * num') := by
    calc den * (den' * mid) = den * mid * den' := by ring
      _ ≤ 2 * num * den' := Nat.mul_le_mul_right _ (by omega)
      _ ≤ den * (2 * num') := by nlinarith
  rcases Nat.lt_or_eq_of_le (Nat.le_of_mul_le_mul_left hmid hden) with hlt | heq
  · exact .inl hlt
  · refine .inr ⟨heq, ?_⟩
    rcases h with hlt | ⟨-, hodd⟩
    · have hge : 2 * num * den' ≤ den * mid * den' := by
        calc 2 * num * den' ≤ den * (2 * num') := by nlinarith
          _ = den * mid * den' := by rw [← heq]; ring
      exact absurd (Nat.mul_lt_mul_of_pos_right hlt hden') (Nat.not_lt.mpr hge)
    · exact hodd

/-- Rounding is monotone in the fraction. -/
theorem roundMag_mono {f : FloatFormat} (hf : 1 ≤ f.mant) {num den num' den' : Nat} (hden : 0 < den)
    (hden' : 0 < den') (hle : num * den' ≤ num' * den) : roundMag f num den ≤ roundMag f num' den' := by
  obtain ⟨p, hp, hround⟩ := roundMag_brackets hf num hden
  obtain ⟨p', hp', hround'⟩ := roundMag_brackets hf num' hden'
  rcases Nat.lt_or_eq_of_le (hp.mono hp' hden hle) with hlt | rfl
  · omega
  · rcases hround' with ⟨-, hup'⟩ | ⟨hdown', hdown⟩
    · omega
    · rw [(hround.resolve_left fun h => hdown' (h.1.mono hden hden' hle)).2, hdown]

/-- A value that the format has is rounded to its own pattern. -/
theorem roundMag_exact {f : FloatFormat} (hf : 1 ≤ f.mant) {q : Nat} (hq : q ≤ f.inf) :
    roundMag f (magUnits f q) 1 = q := by
  have hstep := magUnits_lt_succ f q
  have hself : Brackets f (magUnits f q) 1 q := ⟨by omega, by omega⟩
  obtain ⟨p, hp, hround⟩ := roundMag_brackets hf (magUnits f q) Nat.one_pos
  obtain rfl : p = q := le_antisymm (hp.mono hself Nat.one_pos le_rfl) (hself.mono hp Nat.one_pos le_rfl)
  have hdown : ¬RoundsUp f (magUnits f p) 1 p := by
    unfold RoundsUp
    omega
  rw [(hround.resolve_left fun h => hdown h.1).2, Nat.min_eq_left hq]

end Sys2Proof.Laws
end

section
/-! Settles O57: rounding is to nearest, ties to even. -/

namespace Sys2Proof.Laws

open Sys2Proof.Machine

/-- The pattern that a fraction is rounded to is nearer than any other, or as near and even. -/
theorem roundMag_nearest {f : FloatFormat} (hf : 1 ≤ f.mant) (num : Nat) {den : Nat} (hden : 0 < den)
    {q : Nat} (hq : q ≤ f.inf) :
    let error := fun q : Nat => ((num : Int) - den * magUnits f q).natAbs
    error (roundMag f num den) < error q
      ∨ (error (roundMag f num den) = error q ∧ (q = roundMag f num den ∨ roundMag f num den % 2 = 0)) := by
  obtain ⟨p, ⟨hlow, hhigh⟩, hround⟩ := roundMag_brackets hf num hden
  have hlt : ∀ {a b}, a < b → den * magUnits f a < den * magUnits f b := fun h =>
    Nat.mul_lt_mul_of_pos_left (magUnits_strictMono f h) hden
  have hstep := hlt (Nat.lt_succ_self p)
  simp only [← Nat.cast_mul]
  rcases le_or_gt f.inf p with hover | hfinite
  · have hinf : roundMag f num den = f.inf := by omega
    rw [hinf]
    rcases Nat.lt_or_eq_of_le hq with hbelow | rfl
    · have := hlt hbelow
      have := Nat.mul_le_mul_left den ((magUnits_strictMono f).monotone hover)
      omega
    · exact .inr ⟨rfl, .inl rfl⟩
  · rw [Nat.min_eq_left (by omega), Nat.min_eq_left (by omega)] at hround
    have hside : q < p ∨ q = p ∨ q = p + 1 ∨ p + 1 < q := by omega
    unfold RoundsUp at hround
    rcases hround with ⟨hup, hr⟩ | ⟨hdown, hr⟩ <;> rw [hr]
    · rcases hside with h | rfl | rfl | h
      · have := hlt h
        omega
      · omega
      · exact .inr ⟨rfl, .inl rfl⟩
      · have := hlt h
        omega
    · rcases hside with h | rfl | rfl | h
      · have := hlt h
        omega
      · exact .inr ⟨rfl, .inl rfl⟩
      · omega
      · have := hlt h
        omega

/-- Settles O57, by the two patterns around the fraction: no other pattern is nearer than both. -/
theorem roundingIsToNearestEven : Obligations.RoundingIsToNearestEven := by
  unfold Obligations.RoundingIsToNearestEven
  intro f num den hformat hden
  have hf : 1 ≤ f.mant := by rcases hformat with rfl | rfl <;> decide
  exact ⟨roundMag_le_inf f num den, fun q hq => roundMag_nearest hf num hden hq⟩

end Sys2Proof.Laws
end

section
/-! Settles O58: the square root. -/

namespace Sys2Proof.Laws

open Sys2Proof.Machine

/-! ## The integer square root -/

/-- A Newton step stays at or above the integer root. -/
theorem sqrt_le_newton (n : Nat) {x : Nat} (hx : 0 < x) : n.sqrt ≤ (x + n / x) / 2 := by
  have hroot := Nat.sqrt_le n
  have hquot : n < x * (n / x + 1) := Nat.lt_mul_div_succ n hx
  by_contra hlt
  have hsum : x + (n / x + 1) ≤ 2 * n.sqrt := by omega
  have hmean := four_mul_le_sq_add x (n / x + 1)
  have hsquare := Nat.pow_le_pow_left hsum 2
  nlinarith only [hroot, hquot, hmean, hsquare]

/-- Above the integer root, a Newton step at least halves the distance to it. -/
theorem newton_le {n x : Nat} (hx : n.sqrt < x) : (x + n / x) / 2 ≤ (x + n.sqrt) / 2 := by
  have hquot : n / x ≤ n.sqrt := by
    rw [← Nat.lt_succ_iff, Nat.div_lt_iff_lt_mul (by omega)]
    exact (Nat.lt_succ_sqrt n).trans_le (Nat.mul_le_mul_left _ hx)
  omega

/-- With fuel for the binary logarithm of the distance, the iteration ends at the integer root. -/
theorem sqrtIter_eq {n : Nat} (hn : 0 < n) (fuel : Nat) {x : Nat} (hlow : n.sqrt ≤ x)
    (hhigh : x < n.sqrt + 2 ^ fuel) : sqrtIter n fuel x = n.sqrt := by
  have hroot : 0 < n.sqrt := Nat.sqrt_pos.mpr hn
  induction fuel generalizing x with
  | zero =>
    simp only [sqrtIter]
    omega
  | succ fuel ih =>
    have hstep := sqrt_le_newton n (hroot.trans_le hlow)
    rw [pow_succ] at hhigh
    rcases Nat.lt_or_eq_of_le hlow with habove | hdone
    · have hhalf := newton_le habove
      rw [sqrtIter, if_pos (by omega)]
      exact ih hstep (by omega)
    · rw [sqrtIter, if_neg (by omega), hdone]

theorem isqrt_eq_sqrt (n : Nat) : isqrt n = n.sqrt := by
  unfold isqrt
  split
  · simp [*]
  · rename_i h0
    have hn : n < (2 ^ (n.log2 / 2 + 1)) * 2 ^ (n.log2 / 2 + 1) := by
      rw [← pow_add]
      exact Nat.lt_log2_self.trans_le (Nat.pow_le_pow_right (by decide) (by omega))
    refine sqrtIter_eq (Nat.pos_of_ne_zero h0) _ (Nat.sqrt_lt.mpr hn).le ?_
    exact (Nat.pow_lt_pow_right (by decide) (by omega)).trans_le (Nat.le_add_left _ _)

/-! ## The rounded root -/

/-- Twice the integer root, plus one where it is inexact: what the square root rounds, over 2. -/
def doubledRoot (n : Nat) : Nat := 2 * n.sqrt + if n.sqrt * n.sqrt = n then 0 else 1

theorem sqrtPattern_finite {a : Nat} (h0 : 0 < a) (ha : a < binary64.inf) :
    sqrtPattern binary64 a
      = some (roundMag binary64 (doubledRoot (magUnits binary64 a * 2 ^ binary64.unit)) 2) := by
  have hmag : magOf binary64 a = a := Nat.mod_eq_of_lt (ha.trans (by decide))
  have hsign : signOf binary64 a = false := Nat.testBit_lt_two_pow (ha.trans (by decide))
  simp only [sqrtPattern, isNan, isZero, isInf, hmag, hsign, ha.ne, ha.not_gt, h0.ne', isqrt_eq_sqrt,
    decide_false, Bool.false_eq_true, if_false, doubledRoot]

/-- A whole number of half units other than the one odd candidate lies on the same side of the exact
root as of its stand-in. -/
theorem sq_le_of_le_doubledRoot {n t : Nat} (h : t ≤ doubledRoot n) (hodd : t ≠ 2 * n.sqrt + 1) :
    t ^ 2 ≤ 4 * n := by
  have ht : t ≤ 2 * n.sqrt := by
    unfold doubledRoot at h
    split at h <;> omega
  have := Nat.sqrt_le n
  nlinarith

/-- The other side of `sq_le_of_le_doubledRoot`. -/
theorem le_sq_of_doubledRoot_le {n t : Nat} (h : doubledRoot n ≤ t) (hodd : t ≠ 2 * n.sqrt + 1) :
    4 * n ≤ t ^ 2 := by
  unfold doubledRoot at h
  split at h
  · rename_i hexact
    nlinarith
  · have ht : 2 * (n.sqrt + 1) ≤ t := by omega
    have := Nat.lt_succ_sqrt n
    rw [Nat.succ_eq_add_one] at this
    nlinarith

/-- A positive multiple of a large square has a large root. -/
theorem two_pow_le_sqrt {m j k : Nat} (hm : 0 < m) (hj : j ≤ k) : 2 ^ j ≤ (m * 2 ^ (2 * k)).sqrt := by
  have hpow : (2 ^ j) ^ 2 ≤ 2 ^ (2 * k) := by
    rw [← pow_mul, Nat.mul_comm j]
    exact Nat.pow_le_pow_right (by decide) (Nat.mul_le_mul_left 2 hj)
  exact Nat.le_sqrt'.mpr (hpow.trans (Nat.le_mul_of_pos_left _ hm))

/-- Some finite pattern has the value `2 ^ 54`, which no odd value reaches. -/
theorem magUnits_two_pow_54 : magUnits binary64 (2 * 2 ^ 52 + 2 ^ 52) = 2 ^ 54 := by
  decide

/-- No pattern's value is nearer to half the doubled root than that of its rounding. -/
theorem doubledRoot_error_le (n : Nat) {q : Nat} (hq : q ≤ binary64.inf) :
    ((doubledRoot n : Int) - 2 * magUnits binary64 (roundMag binary64 (doubledRoot n) 2)).natAbs
      ≤ ((doubledRoot n : Int) - 2 * magUnits binary64 q).natAbs := by
  rcases roundMag_nearest (by decide) (doubledRoot n) Nat.two_pos hq with h | h
  · exact h.le
  · exact h.1.le

/-- No midpoint between the rounded root and another value is the odd candidate: one of the two values
would be odd, so small, and the value `2 ^ 54` would be nearer to the root than the result. -/
theorem midpoint_ne_odd {n : Nat} (hn : 2 ^ 54 ≤ n.sqrt) (q : Nat) :
    magUnits binary64 q + magUnits binary64 (roundMag binary64 (doubledRoot n) 2) ≠ 2 * n.sqrt + 1 := by
  intro hsum
  have hroot : 2 * n.sqrt ≤ doubledRoot n ∧ doubledRoot n ≤ 2 * n.sqrt + 1 := by
    unfold doubledRoot
    split <;> omega
  have hnear := doubledRoot_error_le n (q := 2 * 2 ^ 52 + 2 ^ 52) (by decide)
  rw [magUnits_two_pow_54] at hnear
  have hq := magUnits_lt_of_odd binary64 (p := q)
  have hr := magUnits_lt_of_odd binary64 (p := roundMag binary64 (doubledRoot n) 2)
  simp only [show binary64.mant = 52 from rfl] at hq hr
  omega

/-- A large root is on the rounded root's side of the midpoint to any other pattern's value. -/
theorem sqrt_midpoints {n q : Nat} (hn : 2 ^ 54 ≤ n.sqrt) (hq : q ≤ binary64.inf) :
    let r := roundMag binary64 (doubledRoot n) 2
    (magUnits binary64 q < magUnits binary64 r → (magUnits binary64 q + magUnits binary64 r) ^ 2 ≤ 4 * n)
      ∧ (magUnits binary64 r < magUnits binary64 q →
        4 * n ≤ (magUnits binary64 q + magUnits binary64 r) ^ 2) := by
  have hodd := midpoint_ne_odd hn q
  have hnear := doubledRoot_error_le n hq
  exact ⟨fun _ => sq_le_of_le_doubledRoot (by omega) hodd, fun _ => le_sq_of_doubledRoot_le (by omega) hodd⟩

/-- Settles O58: the doubled integer root, rounded over 2, stands in for the exact root, which is on the
same side of every midpoint. -/
theorem squareRootIsCorrectlyRounded : Obligations.SquareRootIsCorrectlyRounded := by
  unfold Obligations.SquareRootIsCorrectlyRounded
  intro a r h0 ha hr n q hq
  have hn : n = magUnits binary64 a * 2 ^ binary64.unit :=
    congrArg (magUnits binary64 a * 2 ^ ·) (show 1074 = binary64.unit from rfl)
  clear_value n
  obtain rfl := Option.some.inj ((sqrtPattern_finite h0 ha).symm.trans hr)
  have hpos : 0 < magUnits binary64 a := magUnits_zero binary64 ▸ magUnits_strictMono binary64 h0
  have hlarge : 2 ^ 54 ≤ n.sqrt := by
    rw [hn, show binary64.unit = 2 * 537 from rfl]
    exact two_pow_le_sqrt hpos (by decide)
  rw [← hn]
  exact sqrt_midpoints hlarge hq.le

end Sys2Proof.Laws
end

section
/-! Settles O59: the conversions of samples. -/

namespace Sys2Proof.Laws

open Sys2Proof.Machine

/-! ## Patterns with a sign -/

theorem signOf_withSign {f : FloatFormat} {mag : Nat} (h : mag < 2 ^ f.sign) (negative : Bool) :
    signOf f (withSign f negative mag) = negative := by
  cases negative <;> simp [signOf, withSign, Nat.testBit_two_pow_add_eq, Nat.testBit_lt_two_pow h]

theorem magOf_withSign {f : FloatFormat} {mag : Nat} (h : mag < 2 ^ f.sign) (negative : Bool) :
    magOf f (withSign f negative mag) = mag := by
  cases negative <;> simp [magOf, withSign, Nat.mod_eq_of_lt h]

theorem withSign_lt {f : FloatFormat} {mag : Nat} (h : mag < 2 ^ f.sign) (negative : Bool) :
    withSign f negative mag < 2 ^ (f.sign + 1) := by
  rw [pow_succ]
  unfold withSign
  split <;> omega

/-! ## Integers that a format holds -/

/-- What a format needs to hold every integer of 16 bits. -/
structure HoldsInt16 (f : FloatFormat) : Prop where
  mant : 15 ≤ f.mant
  unit : f.mant ≤ f.unit
  range : (f.unit + 15 - f.mant + 2) * 2 ^ f.mant ≤ f.inf
  sign : f.inf < 2 ^ f.sign

theorem holdsInt16_binary32 : HoldsInt16 binary32 := by
  constructor <;> decide

theorem holdsInt16_binary64 : HoldsInt16 binary64 := by
  constructor <;> decide

/-- A whole number times the divisor has itself for its nearest integer. -/
theorem nearestEven_mul {k den : Nat} (h : 0 < den) : nearestEven (k * den) den = k := by
  simp [nearestEven, h.ne, h.ne']

section
variable {f : FloatFormat} (hf : HoldsInt16 f) {n : Int} (hn : n.natAbs < 2 ^ 16)
include hf hn

/-- The pattern of an integer of 16 bits is its sign and the finite pattern of exactly its value. -/
theorem exists_ofIntPattern :
    ∃ q, q < f.inf ∧ magUnits f q = n.natAbs * 2 ^ f.unit
      ∧ ofIntPattern f n = withSign f (decide (n < 0)) q := by
  have hmant := hf.mant
  have hrange := hf.range
  suffices ∃ q, q < f.inf ∧ magUnits f q = n.natAbs * 2 ^ f.unit by
    obtain ⟨q, hq, hvalue⟩ := this
    refine ⟨q, hq, hvalue, ?_⟩
    rw [ofIntPattern, ← hvalue, roundMag_exact (by omega) hq.le]
  rcases eq_or_ne n.natAbs 0 with h0 | h0
  · have : 0 < (f.unit + 15 - f.mant + 2) * 2 ^ f.mant := by positivity
    exact ⟨0, by omega, by simp [h0]⟩
  · have hlog : n.natAbs.log2 < 16 := (Nat.log2_lt h0).mpr hn
    obtain ⟨q, hvalue, hq⟩ := exists_magUnits_eq f h0 (by omega) hf.unit
    refine ⟨q, hq.trans_le (le_trans ?_ hrange), hvalue⟩
    exact Nat.mul_le_mul_right _ (by omega)

theorem unitsOf_ofIntPattern : unitsOf f (ofIntPattern f n) = n * 2 ^ f.unit := by
  obtain ⟨q, hq, hvalue, hpattern⟩ := exists_ofIntPattern hf hn
  have hq' := hq.trans hf.sign
  rw [unitsOf, hpattern, signOf_withSign hq', magOf_withSign hq', hvalue]
  rcases lt_or_ge n 0 with hneg | hpos
  · simp [hneg, abs_of_neg hneg]
  · simp [hpos.not_gt, abs_of_nonneg hpos]

theorem toNearestInt_ofIntPattern : toNearestInt f (ofIntPattern f n) = n := by
  obtain ⟨q, hq, hvalue, hpattern⟩ := exists_ofIntPattern hf hn
  have hq' := hq.trans hf.sign
  rw [toNearestInt, isNan, hpattern, signOf_withSign hq', magOf_withSign hq', hvalue,
    nearestEven_mul (Nat.two_pow_pos _), decide_eq_false hq.not_gt]
  rcases lt_or_ge n 0 with hneg | hpos
  · simp [hneg, abs_of_neg hneg]
  · simp [hpos.not_gt, abs_of_nonneg hpos]

theorem ofIntPattern_lt : ofIntPattern f n < 2 ^ (f.sign + 1) := by
  obtain ⟨q, hq, -, hpattern⟩ := exists_ofIntPattern hf hn
  rw [hpattern]
  exact withSign_lt (hq.trans hf.sign) _
end

theorem f32OfInt_toNat {n : Int} (hn : n.natAbs < 2 ^ 16) : (f32OfInt n).toNat = ofIntPattern binary32 n :=
  Nat.mod_eq_of_lt (ofIntPattern_lt holdsInt16_binary32 hn)

theorem f64OfInt_toNat {n : Int} (hn : n.natAbs < 2 ^ 16) : (f64OfInt n).toNat = ofIntPattern binary64 n :=
  Nat.mod_eq_of_lt (ofIntPattern_lt holdsInt16_binary64 hn)

theorem sample_natAbs_lt (s : Sample) : s.toInt.natAbs < 2 ^ 16 := by
  have := s.le_toInt
  have := s.toInt_lt
  omega

theorem sat16_toInt (s : Sample) : sat16 s.toInt = s := by
  have := s.le_toInt
  have := s.toInt_lt
  rw [sat16, min_eq_left (by omega), max_eq_right (by omega), BitVec.ofInt_toInt]

/-- Settles O59: a sample times 1.0 is the exact value of a finite pattern in either format. -/
theorem sampleConversionsAreExact : Obligations.SampleConversionsAreExact := by
  unfold Obligations.SampleConversionsAreExact
  intro s
  have hs := sample_natAbs_lt s
  rw [f32ToI16, f64ToI16, f32OfSample, f32OfInt_toNat hs, f64OfInt_toNat hs,
    toNearestInt_ofIntPattern holdsInt16_binary32 hs, toNearestInt_ofIntPattern holdsInt16_binary64 hs]
  exact ⟨sat16_toInt s, sat16_toInt s, unitsOf_ofIntPattern holdsInt16_binary32 hs,
    unitsOf_ofIntPattern holdsInt16_binary64 hs⟩

end Sys2Proof.Laws
end

section
/-! Settles O52: TANH32. -/

namespace Sys2Proof.Laws

open Sys2Proof.Machine

/-! ## The exponential in fixed point -/

theorem fixMul_mono {a b a' b' : Nat} (ha : a ≤ a') (hb : b ≤ b') : fixMul a b ≤ fixMul a' b' :=
  Nat.div_le_div_right (Nat.mul_le_mul ha hb)

theorem expTerms_mono {x x' term term' : Nat} (hx : x ≤ x') (hterm : term ≤ term') (fuel k : Nat) :
    expTerms x fuel k term ≤ expTerms x' fuel k term' := by
  induction fuel generalizing k term term' with
  | zero => exact le_rfl
  | succ fuel ih => exact Nat.add_le_add hterm (ih (Nat.div_le_div_right (fixMul_mono hterm hx)) _)

theorem squareTimes_mono (n : Nat) {y y' : Nat} (h : y ≤ y') : squareTimes n y ≤ squareTimes n y' := by
  induction n generalizing y y' with
  | zero => exact h
  | succ n ih => exact ih (fixMul_mono h h)

theorem fixOne_le_squareTimes (n : Nat) {y : Nat} (h : fixOne ≤ y) : fixOne ≤ squareTimes n y := by
  induction n generalizing y with
  | zero => exact h
  | succ n ih =>
    have hone : fixMul fixOne fixOne = fixOne := Nat.mul_div_cancel _ (Nat.two_pow_pos _)
    exact ih (hone ▸ fixMul_mono h h)

theorem fixExp_mono : Monotone fixExp := fun _ _ h =>
  squareTimes_mono 8 (expTerms_mono (Nat.div_le_div_right h) le_rfl 48 0)

theorem fixOne_le_fixExp (x : Nat) : fixOne ≤ fixExp x :=
  fixOne_le_squareTimes 8 (Nat.le_add_right _ _)

/-! ## The reference -/

/-- The exponential of twice a magnitude pattern's value. -/
def expTwice (u : Nat) : Nat := fixExp (magUnits binary32 u * 2 * fixOne / 2 ^ 149)

/-- The reference between its two ranges of a closed form. -/
def tanhKnee (u : Nat) : Nat :=
  min (roundMag binary32 ((expTwice u - fixOne) * 2 ^ 149) (expTwice u + fixOne)) 0x3F800000

theorem tanhMag_eq (u : Nat) :
    tanhMag u =
      if u ≤ 0x39800000 then u else if 0x41800000 ≤ u then 0x3F800000 else tanhKnee u := rfl

theorem expTwice_mono : Monotone expTwice := fun _ _ h =>
  fixExp_mono (Nat.div_le_div_right (Nat.mul_le_mul_right _ (Nat.mul_le_mul_right _
    ((magUnits_strictMono binary32).monotone h))))

theorem fixOne_le_expTwice (u : Nat) : fixOne ≤ expTwice u := fixOne_le_fixExp _

/-- `(e - 1) / (e + 1)` rises with `e`. -/
theorem tanhKnee_mono : Monotone tanhKnee := by
  intro u v h
  have hone : 0 < fixOne := Nat.two_pow_pos _
  obtain ⟨a, ha⟩ := Nat.exists_eq_add_of_le (fixOne_le_expTwice u)
  obtain ⟨b, hb⟩ := Nat.exists_eq_add_of_le (fixOne_le_expTwice v)
  have hab : expTwice u ≤ expTwice v := expTwice_mono h
  unfold tanhKnee
  rw [ha, hb] at hab ⊢
  refine min_le_min_right _ (roundMag_mono (by decide) (by omega) (by omega) ?_)
  rw [Nat.add_sub_cancel_left, Nat.add_sub_cancel_left]
  generalize 2 ^ 149 = unit
  have hle : a * unit * fixOne ≤ b * unit * fixOne :=
    Nat.mul_le_mul_right _ (Nat.mul_le_mul_right _ (by omega))
  nlinarith

/-- At the seam of the two lower ranges the formula gives the argument itself. -/
theorem tanhKnee_seam : tanhKnee 0x39800000 = 0x39800000 := by
  decide +kernel

theorem tanhMag_le_one (u : Nat) : tanhMag u ≤ 0x3F800000 := by
  rw [tanhMag_eq]
  split
  · omega
  · split
    · exact le_rfl
    · exact min_le_right _ _

theorem tanhMag_mono : Monotone tanhMag := by
  intro u v h
  rcases le_or_gt 0x41800000 v with hhigh | hv
  · rw [tanhMag_eq v, if_neg (by omega), if_pos hhigh]
    exact tanhMag_le_one u
  · rcases le_or_gt v 0x39800000 with hlow | hknee
    · rw [tanhMag_eq, tanhMag_eq, if_pos (h.trans hlow), if_pos hlow]
      exact h
    · rw [tanhMag_eq v, if_neg hknee.not_ge, if_neg hv.not_ge, tanhMag_eq]
      split
      · have := tanhKnee_mono hknee.le
        rw [tanhKnee_seam] at this
        omega
      · rw [if_neg (by omega)]
        exact tanhKnee_mono h

/-! ## The free function, and both -/

theorem runningMax_mono (g : Nat → Nat) : Monotone (runningMax g) :=
  monotone_nat_of_le_succ fun _ => le_max_left _ _

theorem runningMax_le_one (g : Nat → Nat) (u : Nat) : runningMax g u ≤ 0x3F800000 := by
  induction u with
  | zero => exact Nat.zero_le _
  | succ u ih => exact max_le ih (min_le_right _ _)

/-- TANH32 on the numbers of the bit patterns. -/
def tanhPattern (choice : TanhChoice) : Nat → Nat :=
  match choice with
  | .reference => tanhMag
  | .free => runningMax Config.tanhFree

theorem tanhPattern_mono (choice : TanhChoice) : Monotone (tanhPattern choice) := by
  cases choice
  case reference => exact tanhMag_mono
  case free => exact runningMax_mono _

theorem tanhPattern_le_one (choice : TanhChoice) (u : Nat) : tanhPattern choice u ≤ 0x3F800000 := by
  cases choice
  case reference => exact tanhMag_le_one u
  case free => exact runningMax_le_one _ u

theorem tanhPattern_zero (choice : TanhChoice) : tanhPattern choice 0 = 0 := by
  cases choice <;> rfl

theorem tanh32_toNat (choice : TanhChoice) (u : F32) : (tanh32 choice u).toNat = tanhPattern choice u.toNat := by
  have hword : tanh32 choice u = BitVec.ofNat 32 (tanhPattern choice u.toNat) := by
    cases choice <;> rfl
  rw [hword, BitVec.toNat_ofNat]
  exact Nat.mod_eq_of_lt ((tanhPattern_le_one choice _).trans_lt (by decide))

/-- Settles O52, for both choices through the numbers of the bit patterns. -/
theorem tanhIsMonotoneUpToOne : Obligations.TanhIsMonotoneUpToOne := by
  unfold Obligations.TanhIsMonotoneUpToOne
  intro choice u v huv _
  refine ⟨BitVec.eq_of_toNat_eq ?_, ?_, ?_⟩
  · rw [tanh32_toNat]
    exact tanhPattern_zero choice
  · rw [tanh32_toNat, tanh32_toNat]
    exact tanhPattern_mono choice huv
  · rw [tanh32_toNat]
    exact tanhPattern_le_one choice _

end Sys2Proof.Laws
end

section
/-! Settles O7 and O12: a step on a decoded command, and the tables of rates and codecs. -/

namespace Sys2Proof.Laws

open Sys2Proof.Machine

/-- A decoded command is executed on the state without its bytes. -/
theorem step_of_command {s : State} {i : Instr} {size : Nat} (h : decode s.input = .command i size) :
    step s = exec i (consume size s) := by
  simp only [step, fetch, h]

/-- Settles O7: `fetch` is the decoder on the stream, `consume` drops the command's bytes. -/
theorem stepRunsTheDecodedCommand : Obligations.StepRunsTheDecodedCommand := by
  unfold Obligations.StepRunsTheDecodedCommand
  intro s i n h
  rw [step_of_command h, consume]

/-- Settles O12, rate by rate and codec by codec. -/
theorem codecTableValues : Obligations.CodecTableValues := by
  unfold Obligations.CodecTableValues
  constructor
  · intro r
    cases r <;> decide
  · intro c
    cases c <;> rfl

end Sys2Proof.Laws
end

section
/-! SUPPORT. What each command can do to the state: one lemma a command, over the lemmas of the shared
operations (40_commands.md R201 to R208). -/

namespace Sys2Proof.Laws

open Sys2Proof.Machine

/-! ## The jitter buffer's commands -/

/-- Everything an insert-time synchronisation check can do (R424). -/
theorem syncCheck_cases (s : State) :
    ((s.isSynchronized = false → s.jbMap.length < s.params.jbPrimeDepth) ∧ syncCheck s = s)
    ∨ (lowest s.everSynced s.nextExpected s.jbMap = none ∧ syncCheck s = s)
    ∨ ∃ k, syncCheck s = synchronise k s := by
  unfold syncCheck
  split
  · split
    · rename_i k _
      exact .inr (.inr ⟨k, rfl⟩)
    · rename_i hnone
      exact .inr (.inl ⟨hnone, rfl⟩)
  · rename_i hnot
    exact .inl ⟨fun hs => not_le.mp fun hdepth => hnot ⟨hs, hdepth⟩, rfl⟩

/-- A synchronisation moves the expected timestamp, sets both flags and may append the jump event (R424). -/
theorem synchronise_writes (k : U32) (s : State) :
    ∃ evs, synchronise k s = advanceTo k { s with isSynchronized := true, everSynced := true, events := evs }
      ∧ s.events <+: evs := by
  unfold synchronise noteJump
  split
  · exact ⟨_, rfl, List.prefix_append ..⟩
  · exact ⟨_, rfl, List.prefix_rfl⟩

/-- Everything an insert can write: the jitter buffer, whose two flags it only sets, and the events (R423,
R424). -/
theorem jbInsertFrame_writes (f : RtpFrame) (s : State) :
    ∃ m k sync ever evs,
      jbInsertFrame f s =
        { s with jbMap := m, nextExpected := k, isSynchronized := sync, everSynced := ever, events := evs }
      ∧ s.events <+: evs ∧ (s.isSynchronized = true → sync = true) ∧ (s.everSynced = true → ever = true) := by
  rcases jbInsertFrame_cases f s with ⟨-, h⟩ | ⟨-, h⟩ | ⟨-, -, -, h⟩ <;> rw [h]
  · exact ⟨_, _, _, _, _, rfl, List.prefix_rfl, id, id⟩
  · exact ⟨_, _, _, _, _, rfl, List.prefix_append .., id, id⟩
  · rcases syncCheck_cases { s with jbMap := jbInsert f s.jbMap } with ⟨-, h⟩ | ⟨-, h⟩ | ⟨k, h⟩ <;> rw [h]
    · exact ⟨_, _, _, _, _, rfl, List.prefix_rfl, id, id⟩
    · exact ⟨_, _, _, _, _, rfl, List.prefix_rfl, id, id⟩
    · obtain ⟨evs, h, hevs⟩ := synchronise_writes k { s with jbMap := jbInsert f s.jbMap }
      exact ⟨_, _, _, _, _, h, hevs, fun _ => rfl, fun _ => rfl⟩

/-- Everything a jump to the lowest key can do (R429). -/
theorem resync_cases (nx inc : U32) (s : State) :
    resync nx inc s = (.nothing, s)
    ∨ ∃ k f, resync nx inc s = (.frame f, drain k inc (emit (.jbResync nx k) s)) := by
  unfold resync
  split
  · exact .inl rfl
  · rename_i k _
    split
    · exact .inl rfl
    · rename_i f _
      exact .inr ⟨k, f, rfl⟩

/-- Everything a pull of the jitter buffer can write: the map, the expected timestamp, the missing count,
the flag `is_synchronized`, which it only clears, and the events (R425 to R429). -/
theorem jbPull_writes (inc : U32) (s : State) :
    ∃ m k sync n evs,
      (jbPull inc s).2 =
        { s with jbMap := m, nextExpected := k, isSynchronized := sync, missingCount := n, events := evs }
      ∧ s.events <+: evs ∧ (sync = true → s.isSynchronized = true) := by
  rcases jbPull_cases inc s with ⟨-, h⟩ | ⟨f, -, -, h⟩ | ⟨-, -, -, h⟩ | ⟨-, -, -, -, h⟩ | ⟨-, -, -, -, h⟩ <;>
    rw [h]
  · exact ⟨_, _, _, _, _, rfl, List.prefix_rfl, id⟩
  · exact ⟨_, _, _, _, _, rfl, List.prefix_rfl, id⟩
  · exact ⟨_, _, _, _, _, rfl, List.prefix_rfl, id⟩
  · exact ⟨_, _, _, _, _, rfl, List.prefix_rfl, by simp⟩
  · rcases resync_cases s.nextExpected inc { s with missingCount := satInc s.missingCount } with
      h | ⟨k, f, h⟩ <;> rw [h]
    · exact ⟨_, _, _, _, _, rfl, List.prefix_rfl, id⟩
    · exact ⟨_, _, _, _, _, rfl, List.prefix_append .., id⟩

/-- Everything an `ING_PULL` can do: nothing, the jitter buffer's pull alone, or after it a decode or a
concealment and the output of a frame (R203). -/
theorem pull_cases (s : State) :
    pull s = s
    ∨ ∃ inc, pull s = (jbPull inc s).2
      ∨ ∃ pcm rate g o n evs,
        pull s = outputPcm pcm rate
          { (jbPull inc s).2 with g722Dec := g, opusDec := o, opusDecFail := n, events := evs }
        ∧ (jbPull inc s).2.events <+: evs := by
  unfold pull
  split
  · exact .inl rfl
  · rename_i c _
    refine .inr ⟨rtpIncrement c, ?_⟩
    generalize jbPull (rtpIncrement c) s = r
    obtain ⟨answer, s1⟩ := r
    cases answer with
    | nothing => exact .inl rfl
    | frame f =>
      obtain ⟨g, o, n, es, h⟩ := decodeRtp_writes c f s1
      exact .inr ⟨_, _, g, o, n, _, congrArg (outputPcm _ _) h, List.prefix_append ..⟩
    | conceal => exact .inr ⟨_, _, _, _, _, _, rfl, List.prefix_rfl⟩

/-- Everything an `ING_PULL` can write (R203): the ingress side and the events; of the jitter buffer's flags
it only clears the one. -/
theorem pull_writes (s : State) :
    ∃ m k sync n last rate g o nf d rs evs,
      pull s =
        { s with
          jbMap := m, nextExpected := k, isSynchronized := sync, missingCount := n
          lastDecoded := last, lastDecodedRate := rate, g722Dec := g, opusDec := o, opusDecFail := nf
          idsp := d, irs := rs, events := evs }
      ∧ s.events <+: evs ∧ (sync = true → s.isSynchronized = true) := by
  rcases pull_cases s with h | ⟨inc, h⟩
  · exact ⟨_, _, _, _, _, _, _, _, _, _, _, _, h, List.prefix_rfl, id⟩
  · obtain ⟨m, k, sync, n, evs, hpull, hevs, hsync⟩ := jbPull_writes inc s
    rw [hpull] at h
    rcases h with h | ⟨pcm, rate, g, o, nf, evs', h, hevs'⟩
    · exact ⟨_, _, _, _, _, _, _, _, _, _, _, _, h, hevs, hsync⟩
    · exact ⟨_, _, _, _, _, _, _, _, _, _, _, _, h, (hevs.trans hevs').trans (List.prefix_append ..), hsync⟩

/-! ## The tick -/

theorem noteDrained_writes (before : U32) (s : State) :
    ∃ primed evs, noteDrained before s = { s with primed := primed, events := evs } ∧ s.events <+: evs := by
  have hemit : ∃ evs, (if becomes before s.underrunCount (s.params.underrunInterp + 1) then
      emit .queueDrained s else s) = { s with events := evs } ∧ s.events <+: evs := by
    split
    · exact ⟨_, rfl, List.prefix_append ..⟩
    · exact ⟨_, rfl, List.prefix_rfl⟩
  obtain ⟨evs, h, hevs⟩ := hemit
  unfold noteDrained
  rw [h]
  dsimp only
  split
  · exact ⟨_, _, rfl, hevs⟩
  · exact ⟨_, _, rfl, hevs⟩

/-- What a tick writes that sends a frame of its own making, interpolated or silent (R467, R470, R471). -/
def SendsMadeFrame (s t : State) : Prop :=
  ∃ primed n f g o nf evs,
    t =
      { s with
        primed := primed, underrunCount := n, edsp := noteEmitted s.params f false s.edsp
        g722Enc := g, opusEnc := o, opusEncFail := nf, events := evs }
    ∧ s.events <+: evs

/-- The egress chain's state after a frame of the queue was sent through it (R468, R469). -/
def steadyEdsp (c : Codec) (f : Frame) (s : State) : EgressDspState :=
  let x := (convert s.params f s.params.targetRate (nativeRate c) s.ers (egressLen c)).1
  let y := egressDsp s.params s.edsp x
  noteEmitted s.params y.1 true { y.2 with lastFullFrame := y.1 }

/-- What a tick writes that sends the oldest frame of the queue (R468, R469). -/
def SendsQueuedFrame (c : Codec) (s t : State) : Prop :=
  ∃ primed f rest g o nf evs,
    t =
      { s with
        primed := primed, queue := rest, underrunCount := 0#32
        ers := (convert s.params f s.params.targetRate (nativeRate c) s.ers (egressLen c)).2
        edsp := steadyEdsp c f s, g722Enc := g, opusEnc := o, opusEncFail := nf, events := evs }
    ∧ s.events <+: evs ∧ s.queue = f :: rest

theorem silentTick_sends (c : Codec) (s : State) : SendsMadeFrame s (silentTick c s) := by
  obtain ⟨g, o, nf, es, h⟩ := emitEncoded_writes c (rampedSilence s.params s.edsp (egressLen c)) false s
  exact ⟨_, _, _, g, o, nf, _, h, List.prefix_append ..⟩

theorem underrunTick_sends (c : Codec) (s : State) : SendsMadeFrame s (underrunTick c s) := by
  unfold underrunTick
  dsimp only
  split
  · obtain ⟨g, o, nf, es, h⟩ := emitEncoded_writes c
      (interpolatedFrame s.params (satInc s.underrunCount) s.edsp.lastFullFrame) false
      { s with underrunCount := satInc s.underrunCount }
    exact ⟨_, _, _, g, o, nf, _, h, List.prefix_append ..⟩
  · obtain ⟨_, n, f, g, o, nf, evs, h, hevs⟩ :=
      silentTick_sends c { s with underrunCount := satInc s.underrunCount }
    obtain ⟨primed, evs', hdrained, hevs'⟩ := noteDrained_writes s.underrunCount
      (silentTick c { s with underrunCount := satInc s.underrunCount })
    rw [h] at hdrained hevs' ⊢
    exact ⟨primed, n, f, g, o, nf, evs', hdrained, hevs.trans hevs'⟩

theorem steadyTick_sends {c : Codec} {f : Frame} {rest : List Frame} {s : State}
    (hqueue : s.queue = f :: rest) : SendsQueuedFrame c s (steadyTick c f rest s) := by
  obtain ⟨g, o, nf, es, h⟩ := emitEncoded_writes c _ true _
  exact ⟨s.primed, f, rest, g, o, nf, _, h, List.prefix_append .., hqueue⟩

/-- Once primed, a tick sends the oldest frame of the queue or, of an empty one, a frame of its own (R465). -/
theorem playTick_cases (c : Codec) (s : State) :
    SendsMadeFrame s (playTick c s) ∨ SendsQueuedFrame c s (playTick c s) := by
  unfold playTick
  cases hqueue : s.queue with
  | nil => exact .inl (underrunTick_sends c s)
  | cons f rest => exact .inr (steadyTick_sends hqueue)

theorem tickBody_cases (c : Codec) (s : State) :
    SendsMadeFrame s (tickBody c s) ∨ SendsQueuedFrame c s (tickBody c s) := by
  unfold tickBody
  split
  · exact playTick_cases c s
  · split
    · exact playTick_cases c { s with primed := true }
    · exact .inl (silentTick_sends c s)

/-- Everything an `EGR_TICK` can do (R465, R466): nothing, or send one frame; a lock that was free is free
again after it. -/
theorem tick_cases (s : State) :
    tick s = s ∨ SendsMadeFrame s (tick s) ∨ ∃ c, SendsQueuedFrame c s (tick s) := by
  unfold tick
  split
  · exact .inl rfl
  · rename_i hbusy
    split
    · exact .inl rfl
    · rename_i c _
      have hfree : { s with tickBusy := false } = s := by
        rw [← Bool.eq_false_iff.mpr hbusy]
      refine .inr ?_
      rcases tickBody_cases c { s with tickBusy := true } with
        ⟨primed, n, f, g, o, nf, evs, h, hevs⟩ | ⟨primed, f, rest, g, o, nf, evs, h, hevs, hqueue⟩ <;> rw [h]
      · have hsends : SendsMadeFrame { s with tickBusy := false } _ :=
          ⟨primed, n, f, g, o, nf, evs, rfl, hevs⟩
        exact .inl (hfree ▸ hsends)
      · have hsends : SendsQueuedFrame c { s with tickBusy := false } _ :=
          ⟨primed, f, rest, g, o, nf, evs, rfl, hevs, hqueue⟩
        exact .inr ⟨c, hfree ▸ hsends⟩

/-! ## The commands -/

/-- Everything a `CFG_CODEC` can do (R201). -/
theorem exec_cfgCodec_cases {pt codec : Byte} {rate : BitVec 24} {s t : State}
    (h : exec (.cfgCodec pt codec rate) s = .next t) :
    t = raiseWarning .badCommand (cfgArgument codec rate) s ∨ ∃ c, t = acceptCodec pt c s := by
  simp only [exec, execCfgCodec] at h
  split at h <;> cases h
  · exact .inl rfl
  · exact .inr ⟨_, rfl⟩

/-- Everything an `RTP_IN` can do (R202). -/
theorem exec_rtpIn_cases {pt : Byte} {ts : U32} {payload : List Byte} {s t : State}
    (h : exec (.rtpIn pt ts payload) s = .next t) :
    t = raiseWarning .noCodec ts s ∨ t = jbInsertFrame ⟨pt, payload, ts⟩ s := by
  simp only [exec, execRtpIn] at h
  split at h <;> cases h
  · exact .inl rfl
  · exact .inr rfl

theorem exec_ingPull {s t : State} (h : exec .ingPull s = .next t) : t = pull s := by
  cases h; rfl

theorem exec_egrEnq {payload : List Byte} {s t : State} (h : exec (.egrEnq payload) s = .next t) :
    t = enqueuePcm payload s := by
  cases h; rfl

theorem exec_egrTick {s t : State} (h : exec .egrTick s = .next t) : t = tick s := by
  cases h; rfl

theorem exec_fadeReset {s t : State} (h : exec .fadeReset s = .next t) :
    t = { s with edsp := { s.edsp with needsFadeIn := true } } := by
  cases h; rfl

theorem exec_egrClear {s t : State} (h : exec .egrClear s = .next t) : t = { s with queue := [] } := by
  cases h; rfl

theorem exec_callReset {s t : State} (h : exec .callReset s = .next t) : t = resetState s := by
  cases h; rfl

end Sys2Proof.Laws
end

section
/-! Settles O35, O41 and O45: reset, the events and the flags. -/

namespace Sys2Proof.Laws

open Sys2Proof.Machine

/-- Settles O35: a reset is the power-on state with the constants, the input and the events kept. -/
theorem callResetRestoresEveryElement : Obligations.CallResetRestoresEveryElement := by
  unfold Obligations.CallResetRestoresEveryElement
  exact fun s => rfl

/-- A command keeps the constants and the input, and what it adds to the events is behind them. -/
structure Appends (s t : State) : Prop where
  params : t.params = s.params
  input : t.input = s.input
  events : s.events <+: t.events

theorem exec_appends {i : Instr} {s t : State} (h : exec i s = .next t) : Appends s t := by
  cases i with
  | cfgCodec =>
    rcases exec_cfgCodec_cases h with rfl | ⟨c, rfl⟩
    · exact ⟨rfl, rfl, List.prefix_append ..⟩
    · exact ⟨rfl, rfl, List.prefix_rfl⟩
  | rtpIn =>
    rcases exec_rtpIn_cases h with rfl | rfl
    · exact ⟨rfl, rfl, List.prefix_append ..⟩
    · obtain ⟨_, _, _, _, _, hwrites, hevs, -⟩ := jbInsertFrame_writes _ s
      rw [hwrites]
      exact ⟨rfl, rfl, hevs⟩
  | ingPull =>
    obtain ⟨_, _, _, _, _, _, _, _, _, _, _, _, hwrites, hevs, -⟩ := pull_writes s
    rw [exec_ingPull h, hwrites]
    exact ⟨rfl, rfl, hevs⟩
  | egrEnq =>
    rw [exec_egrEnq h]
    exact ⟨rfl, rfl, List.prefix_rfl⟩
  | egrTick =>
    rw [exec_egrTick h]
    rcases tick_cases s with hidle | ⟨_, _, _, _, _, _, _, hwrites, hevs⟩ |
      ⟨_, _, _, _, _, _, _, _, hwrites, hevs, -⟩
    · rw [hidle]
      exact ⟨rfl, rfl, List.prefix_rfl⟩
    · rw [hwrites]
      exact ⟨rfl, rfl, hevs⟩
    · rw [hwrites]
      exact ⟨rfl, rfl, hevs⟩
  | fadeReset =>
    rw [exec_fadeReset h]
    exact ⟨rfl, rfl, List.prefix_rfl⟩
  | egrClear =>
    rw [exec_egrClear h]
    exact ⟨rfl, rfl, List.prefix_rfl⟩
  | callReset =>
    rw [exec_callReset h]
    exact ⟨rfl, rfl, List.prefix_rfl⟩

/-- Settles O41, command by command. -/
theorem commandsOnlyAppendEvents : Obligations.CommandsOnlyAppendEvents := by
  unfold Obligations.CommandsOnlyAppendEvents
  intro i s t h
  obtain ⟨hparams, hinput, es, hes⟩ := exec_appends h
  exact ⟨hparams, hinput, es, hes.symm⟩

/-! ## The flags (R55) -/

/-- Every flag of `t` has its value in `s`, or one that the command may give it. -/
def FlagsWrittenBy (i : Instr) (s t : State) : Prop :=
  ∀ f : Flag, readFlag f t = readFlag f s ∨ flagWriter f (readFlag f t) i = true

theorem flagsWrittenBy_rtpIn (pt : Byte) (ts : U32) (payload : List Byte) (f : RtpFrame) (s : State) :
    FlagsWrittenBy (.rtpIn pt ts payload) s (jbInsertFrame f s) := by
  obtain ⟨m, k, sync, ever, evs, hwrites, -, hsync, hever⟩ := jbInsertFrame_writes f s
  rw [hwrites]
  intro flag
  cases flag
  case isSynchronized => cases sync <;> simp_all [readFlag, flagWriter]
  case everSynced => cases ever <;> simp_all [readFlag, flagWriter]
  all_goals exact .inl rfl

theorem flagsWrittenBy_ingPull (s : State) : FlagsWrittenBy .ingPull s (pull s) := by
  obtain ⟨_, _, sync, _, _, _, _, _, _, _, _, _, hwrites, -, hsync⟩ := pull_writes s
  rw [hwrites]
  intro flag
  cases flag
  case isSynchronized => cases sync <;> simp_all [readFlag, flagWriter]
  case gateOpen => exact .inr rfl
  all_goals exact .inl rfl

theorem flagsWrittenBy_egrTick (s : State) : FlagsWrittenBy .egrTick s (tick s) := by
  rcases tick_cases s with hidle | ⟨_, _, _, _, _, _, _, hwrites, -⟩ |
    ⟨_, _, _, _, _, _, _, _, hwrites, -, -⟩
  · rw [hidle]
    exact fun flag => .inl rfl
  · rw [hwrites]
    intro flag
    cases flag
    case primed | lastFrameWasSilence => exact .inr rfl
    all_goals exact .inl rfl
  · rw [hwrites]
    intro flag
    cases flag
    case primed | lastFrameWasSilence | needsFadeIn | isFirstPacket => exact .inr rfl
    all_goals exact .inl rfl

theorem exec_flags {i : Instr} {s t : State} (h : exec i s = .next t) : FlagsWrittenBy i s t := by
  cases i with
  | cfgCodec =>
    rcases exec_cfgCodec_cases h with rfl | ⟨c, rfl⟩ <;> intro flag <;> cases flag <;> exact .inl rfl
  | rtpIn =>
    rcases exec_rtpIn_cases h with rfl | rfl
    · intro flag
      cases flag <;> exact .inl rfl
    · exact flagsWrittenBy_rtpIn _ _ _ _ s
  | ingPull => exact exec_ingPull h ▸ flagsWrittenBy_ingPull s
  | egrEnq =>
    rw [exec_egrEnq h]
    intro flag
    cases flag <;> exact .inl rfl
  | egrTick => exact exec_egrTick h ▸ flagsWrittenBy_egrTick s
  | fadeReset =>
    rw [exec_fadeReset h]
    intro flag
    cases flag
    case needsFadeIn => exact .inr rfl
    all_goals exact .inl rfl
  | egrClear =>
    rw [exec_egrClear h]
    intro flag
    cases flag <;> exact .inl rfl
  | callReset =>
    rw [exec_callReset h]
    intro flag
    cases flag <;> exact .inr rfl

/-- Settles O45, command by command. -/
theorem flagsAreWrittenOnlyByTheListedCommands : Obligations.FlagsAreWrittenOnlyByTheListedCommands := by
  unfold Obligations.FlagsAreWrittenOnlyByTheListedCommands
  intro f i s t h hne
  exact (exec_flags h f).resolve_left hne

end Sys2Proof.Laws
end

section
/-! SUPPORT. The operations of a format on finite patterns (00_scope.md R12, R13): the exact result, rounded
once, with its sign; on patterns without a sign bit, the order of the values is that of the patterns. -/

namespace Sys2Proof.Laws

open Sys2Proof.Machine

/-- What the proofs need of a format: a fraction field, 1.0 well above the subnormals, and a sign bit above
infinity's pattern. -/
structure SoundFormat (f : FloatFormat) : Prop where
  mant : 1 ≤ f.mant
  unit : 2 * f.mant ≤ f.unit
  sign : f.inf < 2 ^ f.sign

theorem soundFormat_binary32 : SoundFormat binary32 := by
  constructor <;> decide

theorem soundFormat_binary64 : SoundFormat binary64 := by
  constructor <;> decide

/-- The pattern of 1.0. -/
def onePattern (f : FloatFormat) : Nat := (f.unit - f.mant + 1) * 2 ^ f.mant

theorem magUnits_mono (f : FloatFormat) : Monotone (magUnits f) := (magUnits_strictMono f).monotone

theorem roundMag_le_of_le {f : FloatFormat} (hf : 1 ≤ f.mant) {v q : Nat} (hq : q ≤ f.inf)
    (h : v ≤ magUnits f q) : roundMag f v 1 ≤ q := by
  have := roundMag_mono hf Nat.one_pos Nat.one_pos (num := v) (num' := magUnits f q) (by omega)
  rwa [roundMag_exact hf hq] at this

theorem le_roundMag_of_le {f : FloatFormat} (hf : 1 ≤ f.mant) {v q : Nat} (hq : q ≤ f.inf)
    (h : magUnits f q ≤ v) : q ≤ roundMag f v 1 := by
  have := roundMag_mono hf Nat.one_pos Nat.one_pos (num := magUnits f q) (num' := v) (by omega)
  rwa [roundMag_exact hf hq] at this

/-- A fraction that is at most a value of the format is rounded to at most its pattern. -/
theorem roundMag_div_le {f : FloatFormat} (hf : 1 ≤ f.mant) {num den q : Nat} (hden : 0 < den)
    (hq : q ≤ f.inf) (h : num ≤ magUnits f q * den) : roundMag f num den ≤ q := by
  have := roundMag_mono hf hden Nat.one_pos (num := num) (num' := magUnits f q) (by omega)
  rwa [roundMag_exact hf hq] at this

@[simp] theorem withSign_false (f : FloatFormat) (m : Nat) : withSign f false m = m := rfl

section
variable {f : FloatFormat} (hf : SoundFormat f)
include hf

/-! ## The pattern of 1.0 -/

theorem magUnits_onePattern : magUnits f (onePattern f) = 2 ^ f.unit := by
  have hunit := hf.unit
  rw [onePattern, Nat.succ_mul, magUnits_binade f (by rw [pow_succ]; omega) (.inr le_rfl), ← pow_add]
  congr 1
  omega

/-- What is left of a value of at least 1.0 beyond its whole number is a value of the format. -/
theorem exists_magUnits_fraction {a : Nat} (ha : onePattern f ≤ a) :
    ∃ q, q < onePattern f ∧ magUnits f q = magUnits f a % 2 ^ f.unit := by
  have hunit := hf.unit
  suffices ∃ q, magUnits f q = magUnits f a % 2 ^ f.unit by
    obtain ⟨q, hq⟩ := this
    refine ⟨q, ?_, hq⟩
    rw [← (magUnits_strictMono f).lt_iff_lt, hq, magUnits_onePattern hf]
    exact Nat.mod_lt _ (Nat.two_pow_pos _)
  obtain ⟨e, he⟩ := Nat.exists_eq_add_of_le' (show f.mant ≤ f.unit by omega)
  obtain ⟨s, m, rfl, hm, hs⟩ := exists_binade f a
  have hsmall : e < s + 1 := by
    rw [pow_succ] at hm
    rw [onePattern, show f.unit - f.mant = e by omega] at ha
    by_contra hlt
    have := Nat.mul_le_mul_right (2 ^ f.mant) (show s + 1 + 1 ≤ e + 1 by omega)
    rw [Nat.add_mul (s + 1), Nat.add_mul s] at this
    omega
  obtain ⟨k, rfl⟩ := Nat.exists_eq_add_of_le' (Nat.lt_succ_iff.mp hsmall)
  rw [magUnits_binade f hm.le hs, he, pow_add, pow_add, ← Nat.mul_assoc, Nat.mul_comm _ (2 ^ e),
    Nat.mul_mod_mul_left]
  have hc : m * 2 ^ k % 2 ^ f.mant < 2 ^ f.mant := Nat.mod_lt _ (Nat.two_pow_pos _)
  generalize m * 2 ^ k % 2 ^ f.mant = c at hc ⊢
  rcases eq_or_ne c 0 with rfl | hc0
  · exact ⟨0, by simp⟩
  · have hlog : c.log2 < f.mant := (Nat.log2_lt hc0).mpr hc
    obtain ⟨q, hq, -⟩ := exists_magUnits_eq f hc0 hlog.le (e := e) (by omega)
    exact ⟨q, hq.trans (Nat.mul_comm _ _)⟩

omit hf in
theorem ofIntPattern_natCast (n : Nat) : ofIntPattern f n = roundMag f (n * 2 ^ f.unit) 1 := by
  simp [ofIntPattern, withSign]

/-! ## Patterns without a sign bit -/

theorem signOf_of_le_inf {a : Nat} (ha : a ≤ f.inf) : signOf f a = false :=
  Nat.testBit_lt_two_pow (ha.trans_lt hf.sign)

theorem magOf_of_le_inf {a : Nat} (ha : a ≤ f.inf) : magOf f a = a :=
  Nat.mod_eq_of_lt (ha.trans_lt hf.sign)

theorem unitsOf_of_le_inf {a : Nat} (ha : a ≤ f.inf) : unitsOf f a = magUnits f a := by
  simp [unitsOf, signOf_of_le_inf hf ha, magOf_of_le_inf hf ha]

theorem unitsOf_withSign {m : Nat} (hm : m ≤ f.inf) (negative : Bool) :
    unitsOf f (withSign f negative m) = if negative then -(magUnits f m : Int) else magUnits f m := by
  rw [unitsOf, signOf_withSign (hm.trans_lt hf.sign), magOf_withSign (hm.trans_lt hf.sign)]

theorem ltPattern_of_le_inf {a b : Nat} (ha : a ≤ f.inf) (hb : b ≤ f.inf) :
    ltPattern f a b = decide (a < b) := by
  simp only [ltPattern, isNan, magOf_of_le_inf hf ha, magOf_of_le_inf hf hb, unitsOf_of_le_inf hf ha,
    unitsOf_of_le_inf hf hb, ha.not_gt, hb.not_gt, Nat.cast_lt, (magUnits_strictMono f).lt_iff_lt]
  simp

omit hf in
/-- A pattern with a value above 0 that is no NaN has no sign bit. -/
theorem le_inf_of_pos {a : Nat} (ha : a < 2 ^ (f.sign + 1)) (hnan : magOf f a ≤ f.inf)
    (hpos : 0 < unitsOf f a) : a ≤ f.inf := by
  have hsign : signOf f a = false := by
    by_contra h
    simp only [Bool.not_eq_false] at h
    rw [unitsOf, if_pos h] at hpos
    omega
  have hlow : a < 2 ^ f.sign := by
    by_contra hge
    rw [pow_succ] at ha
    have : signOf f a = true := by
      rw [signOf, Nat.testBit_eq_decide_div_mod_eq, show a / 2 ^ f.sign = 1 from ?_]
      · rfl
      · exact (Nat.div_eq_iff (Nat.two_pow_pos _)).mpr ⟨by omega, by omega⟩
    simp [this] at hsign
  rwa [magOf, Nat.mod_eq_of_lt hlow] at hnan

theorem unitsOf_zero : unitsOf f 0 = 0 := by
  simp [unitsOf_of_le_inf hf (Nat.zero_le _)]

theorem isNan_of_le_inf {a : Nat} (ha : a ≤ f.inf) : isNan f a = false := by
  simp [isNan, magOf_of_le_inf hf ha, ha]

omit hf in
theorem unitsOf_of_nonneg {a : Nat} (h : 0 ≤ unitsOf f a) : unitsOf f a = magUnits f (magOf f a) := by
  unfold unitsOf at h ⊢
  split <;> simp_all

/-- A value from 0 on and below that of a pattern without a sign: its magnitude's pattern is below too. -/
theorem lt_of_ltPattern {a b : Nat} (hb : b ≤ f.inf) (hzero : ltPattern f a 0 = false)
    (hlt : ltPattern f a b = true) : 0 ≤ unitsOf f a ∧ magOf f a < b := by
  simp only [ltPattern, Bool.and_eq_true, Bool.not_eq_true', decide_eq_true_eq,
    unitsOf_of_le_inf hf hb] at hlt
  obtain ⟨⟨hnan, -⟩, hlt⟩ := hlt
  have hnonneg : 0 ≤ unitsOf f a := by
    simpa [ltPattern, hnan, isNan_of_le_inf hf (Nat.zero_le _), unitsOf_zero hf] using hzero
  rw [unitsOf_of_nonneg hnonneg, Nat.cast_lt, (magUnits_strictMono f).lt_iff_lt] at hlt
  exact ⟨hnonneg, hlt⟩

/-! ## The operations -/

theorem negPattern_eq {a : Nat} (ha : a ≤ f.inf) : negPattern f a = withSign f true a := by
  simp [negPattern, signOf_of_le_inf hf ha, magOf_of_le_inf hf ha]

omit hf in
theorem unitsOf_negPattern (a : Nat) : unitsOf f (negPattern f a) = -unitsOf f a := by
  have hmag : magOf f a < 2 ^ f.sign := Nat.mod_lt _ (Nat.two_pow_pos _)
  rw [unitsOf, negPattern, signOf_withSign hmag, magOf_withSign hmag, unitsOf]
  cases signOf f a <;> simp

/-- The sum of two finite patterns is the exact sum, rounded once; an exact zero is negative only for two
negative operands. -/
theorem addPattern_finite {a b : Nat} (ha : magOf f a < f.inf) (hb : magOf f b < f.inf) :
    addPattern f a b = some (withSign f
      (decide (unitsOf f a + unitsOf f b < 0)
        || decide (unitsOf f a + unitsOf f b = 0) && signOf f a && signOf f b)
      (roundMag f (unitsOf f a + unitsOf f b).natAbs 1)) := by
  have hzero : roundMag f 0 1 = 0 := by
    simpa using roundMag_exact hf.mant (Nat.zero_le f.inf)
  simp only [addPattern, isNan, isInf, ha.not_gt, hb.not_gt, ha.ne, hb.ne, decide_false, Bool.or_false,
    Bool.false_eq_true, if_false]
  split
  · rename_i h
    simp [h, hzero]
  · rename_i h
    simp [h, roundUnits]

/-- The sum of two values that are not negative: only a zero may have the sign bit. -/
theorem addPattern_of_nonneg {a b : Nat} (ha : magOf f a < f.inf) (hb : magOf f b < f.inf)
    (ha0 : 0 ≤ unitsOf f a) (hb0 : 0 ≤ unitsOf f b) :
    ∃ negative, addPattern f a b = some (withSign f negative
        (roundMag f (magUnits f (magOf f a) + magUnits f (magOf f b)) 1))
      ∧ (negative = true → signOf f a = true ∧ magUnits f (magOf f a) + magUnits f (magOf f b) = 0) := by
  rw [addPattern_finite hf ha hb, unitsOf_of_nonneg ha0, unitsOf_of_nonneg hb0]
  refine ⟨_, rfl, fun h => ?_⟩
  simp only [Bool.or_eq_true, Bool.and_eq_true, decide_eq_true_eq] at h
  rcases h with hlt | ⟨⟨hzero, hsign⟩, -⟩
  · omega
  · exact ⟨hsign, by omega⟩

/-- A sum without a sign. -/
theorem addPattern_of_lt_inf {a b : Nat} (ha : a < f.inf) (hb : b < f.inf) :
    addPattern f a b = some (roundMag f (magUnits f a + magUnits f b) 1) := by
  have hmag := magOf_of_le_inf hf ha.le
  have hmag' := magOf_of_le_inf hf hb.le
  obtain ⟨negative, hsum, hneg⟩ := addPattern_of_nonneg hf (hmag.trans_lt ha) (hmag'.trans_lt hb)
    (by simp [unitsOf_of_le_inf hf ha.le]) (by simp [unitsOf_of_le_inf hf hb.le])
  rw [hsum, hmag, hmag']
  cases negative
  · rfl
  · simp [signOf_of_le_inf hf ha.le] at hneg

/-- A difference that is not negative. -/
theorem addPattern_neg_of_le {a b : Nat} (ha : a < f.inf) (hba : b ≤ a) :
    addPattern f a (withSign f true b) = some (roundMag f (magUnits f a - magUnits f b) 1) := by
  have hb : b < f.inf := hba.trans_lt ha
  have hle := magUnits_mono f hba
  rw [addPattern_finite hf (by rwa [magOf_of_le_inf hf ha.le])
    (by rwa [magOf_withSign (hb.trans hf.sign)]), unitsOf_of_le_inf hf ha.le,
    unitsOf_withSign hf hb.le, signOf_of_le_inf hf ha.le, if_pos rfl]
  have hsum : ¬((magUnits f a : Int) + -(magUnits f b) < 0) := by omega
  have habs : ((magUnits f a : Int) + -(magUnits f b)).natAbs = magUnits f a - magUnits f b := by omega
  simp only [hsum, habs, decide_false, Bool.and_false, Bool.false_and, Bool.or_false, withSign]
  rfl

/-- The same for a subtrahend that may be a zero with the sign bit. -/
theorem addPattern_negPattern_of_lt {a c : Nat} (ha : a < f.inf) (hc : 0 ≤ unitsOf f c) (hca : magOf f c < a) :
    addPattern f a (negPattern f c) = some (roundMag f (magUnits f a - magUnits f (magOf f c)) 1) := by
  have hmag : magOf f (negPattern f c) = magOf f c := magOf_withSign (Nat.mod_lt _ (Nat.two_pow_pos _)) _
  have hvalue := magUnits_strictMono f hca
  have habs : ((magUnits f a : Int) + -(magUnits f (magOf f c))).natAbs = magUnits f a - magUnits f (magOf f c) := by
    omega
  rw [addPattern_finite hf (by rwa [magOf_of_le_inf hf ha.le]) (by rw [hmag]; omega),
    unitsOf_of_le_inf hf ha.le, unitsOf_negPattern, unitsOf_of_nonneg hc, habs, decide_eq_false (by omega),
    decide_eq_false (by omega), Bool.false_and, Bool.false_and, Bool.false_or, withSign_false]

/-- A negative difference. -/
theorem addPattern_neg_of_lt {a b : Nat} (hb : b < f.inf) (hab : a < b) :
    addPattern f a (withSign f true b) =
      some (withSign f true (roundMag f (magUnits f b - magUnits f a) 1)) := by
  have ha : a < f.inf := hab.trans hb
  have hlt := magUnits_strictMono f hab
  rw [addPattern_finite hf (by rwa [magOf_of_le_inf hf ha.le])
    (by rwa [magOf_withSign (hb.trans hf.sign)]), unitsOf_of_le_inf hf ha.le,
    unitsOf_withSign hf hb.le, if_pos rfl]
  have hsum : (magUnits f a : Int) + -(magUnits f b) < 0 := by omega
  have habs : ((magUnits f a : Int) + -(magUnits f b)).natAbs = magUnits f b - magUnits f a := by omega
  simp only [hsum, habs, decide_true, Bool.true_or]

omit hf in
/-- The product of two finite patterns. -/
theorem mulPattern_finite {a b : Nat} (ha : magOf f a < f.inf) (hb : magOf f b < f.inf) :
    mulPattern f a b = some (withSign f (signOf f a != signOf f b)
      (roundMag f (magUnits f (magOf f a) * magUnits f (magOf f b)) (2 ^ f.unit))) := by
  simp [mulPattern, isNan, isInf, ha.not_gt, hb.not_gt, ha.ne, hb.ne]

/-- A product of a factor without a sign. -/
theorem mulPattern_of_lt_inf {a b : Nat} (ha : a < f.inf) (hb : b < f.inf) (negative : Bool) :
    mulPattern f a (withSign f negative b) = some (withSign f negative
      (roundMag f (magUnits f a * magUnits f b) (2 ^ f.unit))) := by
  have hmag : magOf f (withSign f negative b) = b := magOf_withSign (hb.trans hf.sign) negative
  rw [mulPattern_finite (by rwa [magOf_of_le_inf hf ha.le]) (by rwa [hmag]), hmag,
    magOf_of_le_inf hf ha.le, signOf_of_le_inf hf ha.le, signOf_withSign (hb.trans hf.sign)]
  simp

/-- The quotient of a finite pattern and one above 0, both without a sign, is no NaN and has no sign. -/
theorem divPattern_le_inf {a b : Nat} (ha : a < f.inf) (hb : 0 < b) (hb' : b ≤ f.inf) :
    ∃ r, divPattern f a b = some r ∧ r ≤ f.inf := by
  simp only [divPattern, isNan_of_le_inf hf ha.le, isNan_of_le_inf hf hb', isInf, isZero,
    magOf_of_le_inf hf ha.le, magOf_of_le_inf hf hb', signOf_of_le_inf hf ha.le, signOf_of_le_inf hf hb',
    ha.ne, hb.ne', decide_false, Bool.false_eq_true, Bool.or_false, Bool.false_and, Bool.and_false, if_false,
    bne_self_eq_false, withSign_false]
  split
  · exact ⟨0, rfl, Nat.zero_le _⟩
  · exact ⟨_, rfl, roundMag_le_inf ..⟩

/-- A factor of at most 1.0 does not enlarge a value. -/
theorem roundMag_mul_le {a b : Nat} (ha : a ≤ onePattern f) (hb : b ≤ f.inf) :
    roundMag f (magUnits f a * magUnits f b) (2 ^ f.unit) ≤ b := by
  refine roundMag_div_le hf.mant (Nat.two_pow_pos _) hb ?_
  rw [Nat.mul_comm, ← magUnits_onePattern hf]
  exact Nat.mul_le_mul_left _ (magUnits_mono f ha)

end

/-! ## The words -/

theorem f64One_toNat : f64One.toNat = onePattern binary64 := rfl

theorem f32Of_toNat {a b : F32} {x : Nat} (hx : x < 2 ^ 32) : (f32Of a b (some x)).toNat = x :=
  Nat.mod_eq_of_lt hx

theorem f64Of_toNat {a b : F64} {x : Nat} (hx : x < 2 ^ 64) : (f64Of a b (some x)).toNat = x :=
  Nat.mod_eq_of_lt hx

end Sys2Proof.Laws
end

section
/-! Settles O56: the resampler's phase. -/

namespace Sys2Proof.Laws

open Sys2Proof.Machine

/-! ## Whole numbers and their fractions in binary64 -/

/-- A whole number below `2 ^ 16` is exact in binary64. -/
theorem f64OfInt_exact {n : Nat} (hn : n < 2 ^ 16) :
    (f64OfInt n).toNat < binary64.inf ∧ magUnits binary64 (f64OfInt n).toNat = n * 2 ^ binary64.unit := by
  have hn' : (n : Int).natAbs < 2 ^ 16 := by omega
  obtain ⟨q, hq, hvalue, hpattern⟩ := exists_ofIntPattern holdsInt16_binary64 hn'
  rw [f64OfInt_toNat hn', hpattern, decide_eq_false (by omega)]
  exact ⟨hq, by rw [← Int.natAbs_natCast n]; exact hvalue⟩

/-- A whole number of any size is a pattern without a sign, at most infinity's. -/
theorem f64OfInt_le_inf (n : Nat) : (f64OfInt n).toNat ≤ binary64.inf := by
  have hle := roundMag_le_inf binary64 (n * 2 ^ binary64.unit) 1
  rw [f64OfInt, ofIntPattern_natCast, BitVec.toNat_ofNat, Nat.mod_eq_of_lt (hle.trans_lt (by decide))]
  exact hle

/-- A difference of two patterns without a sign that is not negative. -/
theorem f64Sub_toNat {a b : F64} (ha : a.toNat < binary64.inf) (hba : b.toNat ≤ a.toNat) :
    (f64Sub a b).toNat = roundMag binary64 (magUnits binary64 a.toNat - magUnits binary64 b.toNat) 1 := by
  rw [f64Sub, negPattern_eq soundFormat_binary64 (hba.trans ha.le),
    addPattern_neg_of_le soundFormat_binary64 ha hba]
  exact f64Of_toNat ((roundMag_le_inf ..).trans_lt (by decide))

/-- The difference from a larger number, an infinite one among them, is below 0. -/
theorem f64Sub_negative {a b : F64} (hb : b.toNat ≤ binary64.inf) (hab : a.toNat < b.toNat) :
    f64Lt (f64Sub a b) f64Zero = true := by
  have ha : a.toNat < binary64.inf := hab.trans_le hb
  suffices ∃ m, 0 < m ∧ m ≤ binary64.inf ∧ (f64Sub a b).toNat = withSign binary64 true m by
    obtain ⟨m, hpos, hm, hsub⟩ := this
    have hvalue := magUnits_strictMono binary64 hpos
    rw [magUnits_zero] at hvalue
    have hm' : m < 2 ^ binary64.sign := hm.trans_lt (by decide)
    rw [f64Lt, hsub, ltPattern, isNan, magOf_withSign hm', unitsOf_withSign soundFormat_binary64 hm,
      show isNan binary64 f64Zero.toNat = false from rfl, show unitsOf binary64 f64Zero.toNat = 0 from rfl]
    simp [hm, hvalue]
  rw [f64Sub, negPattern_eq soundFormat_binary64 hb]
  rcases Nat.lt_or_eq_of_le hb with hfinite | hinf
  · rw [addPattern_neg_of_lt soundFormat_binary64 hfinite hab]
    have hgap := magUnits_strictMono binary64 hab
    have hone : magUnits binary64 1 = 1 := rfl
    refine ⟨_, le_roundMag_of_le (q := 1) (by decide) (by decide) (by omega), roundMag_le_inf _ _ _,
      f64Of_toNat (withSign_lt ((roundMag_le_inf ..).trans_lt (by decide)) true)⟩
  · rw [hinf]
    refine ⟨binary64.inf, by decide, le_rfl, ?_⟩
    have hmag : magOf binary64 a.toNat = a.toNat := magOf_of_le_inf soundFormat_binary64 ha.le
    simp only [addPattern, isNan, isInf, hmag, ha.not_gt, ha.ne, decide_false]
    rfl

/-- The floor of a value without a sign, taken from it, leaves the exact fraction, below 1.0. -/
theorem f64Sub_floor_lt_one {r : F64} (hr : r.toNat < binary64.inf) (hone : f64One.toNat ≤ r.toNat)
    (hsmall : f64Floor r < 2 ^ 16) : (f64Sub r (f64OfInt (f64Floor r))).toNat < f64One.toNat := by
  have hfloor : f64Floor r = magUnits binary64 r.toNat / 2 ^ binary64.unit := by
    simp [f64Floor, floorNat, isNan, magOf_of_le_inf soundFormat_binary64 hr.le, hr.not_gt,
      signOf_of_le_inf soundFormat_binary64 hr.le]
  obtain ⟨hfinite, hvalue⟩ := f64OfInt_exact hsmall
  have hdiv := Nat.div_add_mod' (magUnits binary64 r.toNat) (2 ^ binary64.unit)
  rw [← hfloor, ← hvalue] at hdiv
  have hle : (f64OfInt (f64Floor r)).toNat ≤ r.toNat := by
    rw [← (magUnits_strictMono binary64).le_iff_le]
    omega
  obtain ⟨q, hq, hfraction⟩ := exists_magUnits_fraction soundFormat_binary64 hone
  rw [f64Sub_toNat hr hle, ← hdiv, Nat.add_sub_cancel_left, ← hfraction,
    roundMag_exact (by decide) (hq.le.trans (by decide))]
  exact hq

/-! ## The phase (R322) -/

/-- The phase lies in [0, 1) (R57). -/
def PhaseInUnit (phase : F64) : Prop := f64Lt phase f64Zero = false ∧ f64Lt phase f64One = true

/-- A pattern without a sign below that of 1.0 is a phase. -/
theorem phaseInUnit_of_lt_one {phase : F64} (h : phase.toNat < f64One.toNat) : PhaseInUnit phase := by
  have hinf : phase.toNat ≤ binary64.inf := h.le.trans (by decide)
  unfold PhaseInUnit f64Lt
  rw [ltPattern_of_le_inf soundFormat_binary64 hinf (by decide),
    ltPattern_of_le_inf soundFormat_binary64 hinf (by decide)]
  exact ⟨decide_eq_false (Nat.not_lt_zero _), decide_eq_true h⟩

/-- A phase and a whole number add up to no more than the next whole number. -/
theorem f64Add_phase_le {phase : F64} (h : PhaseInUnit phase) {n : Nat} (hpos : 0 < n) (hn : n + 1 < 2 ^ 16) :
    (f64Add phase (f64OfInt n)).toNat ≤ (f64OfInt (n + 1 : Nat)).toNat := by
  obtain ⟨hnonneg, hone⟩ := lt_of_ltPattern soundFormat_binary64 (by decide) h.1 h.2
  obtain ⟨hfinite, hvalue⟩ := f64OfInt_exact (n := n) (by omega)
  obtain ⟨hfinite', hnext⟩ := f64OfInt_exact hn
  have hmag := magOf_of_le_inf soundFormat_binary64 hfinite.le
  have hunit : 0 < n * 2 ^ binary64.unit := Nat.mul_pos hpos (Nat.two_pow_pos _)
  have hphase := magUnits_strictMono binary64 hone
  rw [f64One_toNat, magUnits_onePattern soundFormat_binary64] at hphase
  obtain ⟨negative, hsum, hneg⟩ := addPattern_of_nonneg soundFormat_binary64 (hone.trans (by decide))
    (hmag.trans_lt hfinite) hnonneg (by simp [unitsOf_of_le_inf soundFormat_binary64 hfinite.le])
  rw [hmag, hvalue] at hsum hneg
  obtain rfl : negative = false := by
    by_contra hnegative
    have := hneg (by simpa using hnegative)
    omega
  have hround : roundMag binary64 (magUnits binary64 (magOf binary64 phase.toNat) + n * 2 ^ binary64.unit) 1
      ≤ (f64OfInt (n + 1 : Nat)).toNat :=
    roundMag_le_of_le (by decide) hfinite'.le (by rw [hnext, Nat.succ_mul]; omega)
  rw [f64Add, hsum, withSign_false, f64Of_toNat ((hround.trans hfinite'.le).trans_lt (by decide))]
  exact hround

/-- The steps of a full frame of output are exactly a full frame of input (R321, R322). -/
theorem f64Mul_phaseStep (src dst : Rate) :
    f64Mul (f64OfInt (frameLen dst)) (phaseStep src dst) = f64OfInt (frameLen src) := by
  cases src <;> cases dst <;> decide +kernel

/-- The phase after a full frame of output is in [0, 1), whatever the length of the input (R322). -/
theorem phaseUpdate_inUnit {phase : F64} (h : PhaseInUnit phase) (src dst : Rate) (nIn : Nat) :
    PhaseInUnit (phaseUpdate phase (phaseStep src dst) nIn (frameLen dst)) := by
  have hlen : 0 < frameLen src ∧ frameLen src ≤ 960 := by cases src <;> decide
  have hpos := f64Add_phase_le h hlen.1 (by omega)
  obtain ⟨hnext, hvalue⟩ := f64OfInt_exact (n := frameLen src + 1) (by omega)
  unfold phaseUpdate interpPos
  dsimp only
  rw [f64Mul_phaseStep]
  generalize f64Add phase (f64OfInt (frameLen src)) = pos at hpos ⊢
  rcases lt_or_ge pos.toNat (f64OfInt nIn).toNat with hbehind | hahead
  · rw [f64Sub_negative (f64OfInt_le_inf nIn) hbehind, if_pos rfl]
    exact phaseInUnit_of_lt_one (by decide)
  · have hr := f64Sub_toNat (hpos.trans_lt hnext) hahead
    have hrpos : (f64Sub pos (f64OfInt nIn)).toNat ≤ pos.toNat :=
      hr.trans_le (roundMag_le_of_le (by decide) (hpos.trans hnext.le) (Nat.sub_le _ _))
    generalize f64Sub pos (f64OfInt nIn) = r at hrpos ⊢
    split
    · exact phaseInUnit_of_lt_one (by decide)
    · rename_i hnonneg
      split
      · rename_i hone
        exact ⟨by simpa using hnonneg, hone⟩
      · rename_i hone
        have hfinite : r.toNat < binary64.inf := (hrpos.trans hpos).trans_lt hnext
        rw [f64Lt, ltPattern_of_le_inf soundFormat_binary64 hfinite.le (by decide), decide_eq_true_eq,
          not_lt] at hone
        refine phaseInUnit_of_lt_one (f64Sub_floor_lt_one hfinite hone ?_)
        have hvalues := magUnits_mono binary64 (hrpos.trans hpos)
        rw [hvalue] at hvalues
        have hfloor : f64Floor r ≤ frameLen src + 1 := by
          unfold f64Floor floorNat
          split
          · omega
          · rw [magOf_of_le_inf soundFormat_binary64 hfinite.le]
            exact Nat.div_le_of_le_mul (by rwa [Nat.mul_comm])
        omega

/-- On full frames the phase 0 is kept (R322). -/
theorem phaseUpdate_fullFrames (src dst : Rate) :
    phaseUpdate 0#64 (phaseStep src dst) (frameLen src) (frameLen dst) = 0#64 := by
  cases src <;> cases dst <;> decide +kernel

/-! ## The conversion -/

/-- What every element of a stage keeps, the stage keeps. -/
theorem mapAccum_keeps {σ α β : Type} {f : σ → α → β × σ} {P : σ → Prop} (hf : ∀ st x, P st → P (f st x).2)
    {st : σ} (h : P st) (l : List α) : P (mapAccum f st l).2 := by
  induction l generalizing st with
  | nil => exact h
  | cons x xs ih => exact ih (hf st x h)

/-- The filter on a rate decrease leaves the phase alone (R317). -/
theorem antiAlias_phase (p : Params) (src dst : Rate) (inp : Frame) (rs : ResamplerState) :
    (antiAlias p src dst inp rs).2.fractionalPhase = rs.fractionalPhase := by
  unfold antiAlias
  split
  · exact mapAccum_keeps (P := fun st : ResamplerState => st.fractionalPhase = rs.fractionalPhase)
      (fun _ _ h => h) rfl inp
  · rfl

/-- The phase after a conversion: only the interpolation updates it (R311, R322). -/
theorem convert_phase (p : Params) (inp : Frame) (src dst : Rate) (rs : ResamplerState) (n : Nat) :
    (convert p inp src dst rs n).2.fractionalPhase = rs.fractionalPhase
    ∨ (convert p inp src dst rs n).2.fractionalPhase =
        phaseUpdate rs.fractionalPhase (phaseStep src dst) inp.length n := by
  unfold convert
  split
  · exact .inl rfl
  · exact .inl rfl
  · refine .inr ?_
    simp only [interpolate, antiAlias_phase, antiAlias_length]

/-- A conversion to a full frame keeps the phase in [0, 1). -/
theorem convert_phaseInUnit (p : Params) (inp : Frame) (src dst : Rate) {rs : ResamplerState}
    (h : PhaseInUnit rs.fractionalPhase) :
    PhaseInUnit (convert p inp src dst rs (frameLen dst)).2.fractionalPhase := by
  rcases convert_phase p inp src dst rs (frameLen dst) with hphase | hphase <;> rw [hphase]
  · exact h
  · exact phaseUpdate_inUnit h src dst _

/-- Settles O56: the position after a frame is the phase and the frame's length, and what is left of it is
exact. -/
theorem phaseStaysInTheUnitInterval : Obligations.PhaseStaysInTheUnitInterval := by
  unfold Obligations.PhaseStaysInTheUnitInterval
  intro p inp src dst rs
  refine ⟨fun hzero hone => convert_phaseInUnit p inp src dst ⟨hzero, hone⟩, fun hlen h0 => ?_⟩
  rcases convert_phase p inp src dst rs (frameLen dst) with hphase | hphase <;> rw [hphase, h0]
  rw [hlen]
  exact phaseUpdate_fullFrames src dst

end Sys2Proof.Laws
end

section
/-! Settles O38 and O39: the invariant. -/

namespace Sys2Proof.Laws

open Sys2Proof.Machine

/-! ## What the legal constants give (R7) -/

theorem legalParams_parts {p : Params} (h : legalParams p = true) :
    legalJitterBuffer p = true ∧ legalIngress p = true ∧ legalResampler p = true ∧ legalEgress p = true
      ∧ legalPlayout p = true := by
  simpa only [legalParams, Bool.and_eq_true, and_assoc] using h

theorem jbPrimeDepth_pos {p : Params} (h : legalParams p = true) : 0 < p.jbPrimeDepth := by
  obtain ⟨hjb, -⟩ := legalParams_parts h
  simp only [legalJitterBuffer, Bool.and_eq_true, decide_eq_true_eq, and_assoc] at hjb
  omega

theorem egrQueueCap_pos {p : Params} (h : legalParams p = true) : 1 ≤ p.egrQueueCap := by
  obtain ⟨-, -, -, -, hplayout⟩ := legalParams_parts h
  simp only [legalPlayout, Bool.and_eq_true, decide_eq_true_eq, and_assoc] at hplayout
  omega

/-! ## The jitter buffer's part (R433) -/

/-- The part for the jitter buffer reads these elements alone. -/
theorem jbInv_congr {s t : State} (h : JbInv s) (hparams : t.params = s.params) (hmap : t.jbMap = s.jbMap)
    (hnext : t.nextExpected = s.nextExpected) (hsync : t.isSynchronized = s.isSynchronized)
    (hever : t.everSynced = s.everSynced) : JbInv t := by
  obtain ⟨hcanonical, hbounded, hpayloads, hsynced, hfilling, hbehind⟩ := h
  constructor <;> simpa only [hparams, hmap, hnext, hsync, hever]

theorem purged_length_le (k : U32) (m : List RtpFrame) : (purged k m).length ≤ m.length :=
  List.length_filter_le _ _

theorem jbRemove_length_le (k : U32) (m : List RtpFrame) : (jbRemove k m).length ≤ m.length :=
  List.length_filter_le _ _

/-- A move of the expected timestamp purges what it leaves behind (R435). -/
theorem jbInv_advanceTo {s : State} (k : U32) (hcanonical : jbMapWf s.jbMap = true)
    (hbounded : s.jbMap.length ≤ s.params.jbCap) (hpayloads : ∀ f ∈ s.jbMap, f.payload.length ≤ maxPayload)
    (hsynced : s.isSynchronized = true → s.everSynced = true)
    (hfilling : s.isSynchronized = false → s.jbMap.length < s.params.jbPrimeDepth) :
    JbInv (advanceTo k s) where
  canonical := jbMapWf_purged hcanonical k
  bounded := (purged_length_le k s.jbMap).trans hbounded
  payloads _ hf := hpayloads _ (mem_purged.mp hf).1
  synced := hsynced
  filling h := (purged_length_le k s.jbMap).trans_lt (hfilling h)
  notBehind _ _ hf := (mem_purged.mp hf).2

theorem nearestKey_eq_none {base : U32} {m : List RtpFrame} (h : nearestKey base m = none) : m = [] := by
  cases m with
  | nil => rfl
  | cons f rest =>
    unfold nearestKey at h
    split at h
    · cases h
    · split at h <;> cases h

/-- Only an empty map has no lowest key (R422). -/
theorem lowest_eq_none {ever : Bool} {expected : U32} {m : List RtpFrame}
    (h : lowest ever expected m = none) : m = [] := by
  unfold lowest at h
  split at h
  · exact nearestKey_eq_none h
  · exact nearestKey_eq_none (Option.or_eq_none_iff.mp h).2

/-- The synchronisation check restores what an insert leaves open: that a buffer still filling has not
reached its priming depth (R424). -/
theorem jbInv_syncCheck {s : State} (hdepth : 0 < s.params.jbPrimeDepth) (hcanonical : jbMapWf s.jbMap = true)
    (hbounded : s.jbMap.length ≤ s.params.jbCap) (hpayloads : ∀ f ∈ s.jbMap, f.payload.length ≤ maxPayload)
    (hsynced : s.isSynchronized = true → s.everSynced = true)
    (hbehind : s.everSynced = true → ∀ f ∈ s.jbMap, serialBefore f.rtpTimestamp s.nextExpected = false) :
    JbInv (syncCheck s) := by
  rcases syncCheck_cases s with ⟨hfilling, h⟩ | ⟨hnone, h⟩ | ⟨k, h⟩ <;> rw [h]
  · exact ⟨hcanonical, hbounded, hpayloads, hsynced, hfilling, hbehind⟩
  · refine ⟨hcanonical, hbounded, hpayloads, hsynced, fun _ => ?_, hbehind⟩
    rwa [lowest_eq_none hnone]
  · obtain ⟨evs, h, -⟩ := synchronise_writes k s
    rw [h]
    exact jbInv_advanceTo k hcanonical hbounded hpayloads (fun _ => rfl) (fun hs => by cases hs)

/-- An insert keeps the jitter buffer's part (R423, R424). -/
theorem jbInv_jbInsertFrame {s : State} (h : JbInv s) (hdepth : 0 < s.params.jbPrimeDepth) {f : RtpFrame}
    (hf : f.payload.length ≤ maxPayload) : JbInv (jbInsertFrame f s) := by
  rcases jbInsertFrame_cases f s with ⟨-, hinsert⟩ | ⟨-, hinsert⟩ | ⟨hlate, hnew, hroom, hinsert⟩ <;>
    rw [hinsert]
  · exact h
  · exact jbInv_congr h rfl rfl rfl rfl rfl
  · refine jbInv_syncCheck hdepth (jbMapWf_jbInsert h.canonical f) ?_ ?_ h.synced ?_
    · dsimp only
      rw [jbInsert_length hnew]
      exact hroom
    · intro g hg
      rcases mem_jbInsert hg with rfl | hg
      · exact hf
      · exact h.payloads g hg
    · intro hever g hg
      rcases mem_jbInsert hg with rfl | hg
      · have hever' : s.everSynced = true := hever
        simpa [isLate, hever'] using hlate
      · exact h.notBehind hever g hg

/-- A drain keeps the jitter buffer's part (R426). -/
theorem jbInv_drain {s : State} (h : JbInv s) (k inc : U32) : JbInv (drain k inc s) :=
  jbInv_advanceTo _ (jbMapWf_jbRemove h.canonical k) ((jbRemove_length_le k s.jbMap).trans h.bounded)
    (fun f hf => h.payloads f (mem_jbRemove.mp hf).1) h.synced
    (fun hs => (jbRemove_length_le k s.jbMap).trans_lt (h.filling hs))

/-- A pull of the jitter buffer keeps its part (R425 to R429). -/
theorem jbInv_jbPull {s : State} (h : JbInv s) (inc : U32) : JbInv (jbPull inc s).2 := by
  rcases jbPull_cases inc s with ⟨-, hpull⟩ | ⟨f, -, -, hpull⟩ | ⟨-, -, -, hpull⟩ | ⟨-, -, -, hlow, hpull⟩ |
    ⟨-, -, -, -, hpull⟩ <;> rw [hpull]
  · exact h
  · exact jbInv_drain h _ _
  · exact jbInv_advanceTo _ h.canonical h.bounded h.payloads h.synced h.filling
  · exact ⟨h.canonical, h.bounded, h.payloads, fun hs => (by cases hs), fun _ => hlow, h.notBehind⟩
  · have hcounted : JbInv { s with missingCount := satInc s.missingCount } :=
      jbInv_congr h rfl rfl rfl rfl rfl
    rcases resync_cases s.nextExpected inc { s with missingCount := satInc s.missingCount } with
      hresync | ⟨k, f, hresync⟩ <;> rw [hresync]
    · exact hcounted
    · refine jbInv_drain ?_ k inc
      exact jbInv_congr hcounted rfl rfl rfl rfl rfl

/-- An `ING_PULL` keeps the jitter buffer's part: what follows the pull of the buffer does not touch it. -/
theorem jbInv_pull {s : State} (h : JbInv s) : JbInv (pull s) := by
  rcases pull_cases s with hpull | ⟨inc, hpull | ⟨_, _, _, _, _, _, hpull, -⟩⟩ <;> rw [hpull]
  · exact h
  · exact jbInv_jbPull h inc
  · exact jbInv_congr (jbInv_jbPull h inc) rfl rfl rfl rfl rfl

/-! ## The queue (R461, R462) -/

theorem payloadFrames_whole {n : Nat} (payload : List Byte) : ∀ f ∈ payloadFrames n payload, f.length = n :=
  chunkFrames_whole (Nat.mul_div_le _ _)

theorem foldl_fifoPush_length {cap : Nat} (hcap : 1 ≤ cap) (frames : List Frame) {q : List Frame}
    (h : q.length ≤ cap) : (frames.foldl (fifoPush cap) q).length ≤ cap := by
  induction frames generalizing q with
  | nil => exact h
  | cons f rest ih => exact ih (fifoPush_length h hcap f)

theorem mem_foldl_fifoPush {cap : Nat} {frames q : List Frame} {f : Frame}
    (h : f ∈ frames.foldl (fifoPush cap) q) : f ∈ frames ∨ f ∈ q := by
  induction frames generalizing q with
  | nil => exact .inr h
  | cons g rest ih =>
    rcases ih h with h | h
    · exact .inl (List.mem_cons_of_mem _ h)
    · rcases mem_fifoPush h with rfl | h
      · exact .inl (List.mem_cons_self ..)
      · exact .inr h

/-- The egress part reads these elements alone. -/
theorem egressInv_congr {s t : State} (h : EgressInv s) (hparams : t.params = s.params)
    (hqueue : t.queue = s.queue) (htail : t.edsp.tail = s.edsp.tail) (hbusy : t.tickBusy = s.tickBusy) :
    EgressInv t := by
  obtain ⟨hwhole, hbounded, htail', hidle⟩ := h
  constructor <;> simpa only [hparams, hqueue, htail, hbusy]

theorem egressInv_enqueuePcm {s : State} (h : EgressInv s) (hcap : 1 ≤ s.params.egrQueueCap)
    (payload : List Byte) : EgressInv (enqueuePcm payload s) where
  wholeFrames f hf := by
    rcases mem_foldl_fifoPush hf with hf | hf
    · exact payloadFrames_whole payload f hf
    · exact h.wholeFrames f hf
  bounded := foldl_fifoPush_length hcap _ h.bounded
  tail := h.tail
  idle := h.idle

/-! ## The f32 elements of the two chains and the resamplers (R57) -/

/-- Every f32 element of the ingress chain is finite. -/
structure IngressFinite (d : IngressDspState) : Prop where
  dcEstimate : f32Finite d.dcEstimate = true
  preemphasisPrev : f32Finite d.preemphasisPrev = true
  rmsEstimate : f32Finite d.rmsEstimate = true
  agcGain : f32Finite d.agcGain = true

/-- The gate writes its flag and its counter alone (R354). -/
theorem gateUpdate_writes (p : Params) (d : IngressDspState) (rms : F32) :
    ∃ opened n, gateUpdate p d rms = { d with gateOpen := opened, gateHoldCounter := n } := by
  unfold gateUpdate
  split
  · split
    · split <;> exact ⟨_, _, rfl⟩
    · exact ⟨_, _, rfl⟩
  · split <;> exact ⟨_, _, rfl⟩

theorem ingressFinite_gateStage {p : Params} {d : IngressDspState} (h : IngressFinite d) (x : Frame) :
    IngressFinite (gateStage p d x) := by
  have hfilters : IngressFinite (dcAndPreemphasis p d x).2 :=
    mapAccum_keeps (P := IngressFinite)
      (fun _ _ hd => ⟨keepFinite_finite .., keepFinite_finite .., hd.rmsEstimate, hd.agcGain⟩) h x
  obtain ⟨opened, n, hgate⟩ :=
    gateUpdate_writes p (dcAndPreemphasis p d x).2 (frameRms (dcAndPreemphasis p d x).1)
  rw [gateStage, hgate]
  exact ⟨hfilters.dcEstimate, hfilters.preemphasisPrev, hfilters.rmsEstimate, hfilters.agcGain⟩

/-- The ingress chain keeps its f32 elements finite (R350). -/
theorem ingressFinite_ingressDsp {p : Params} {d : IngressDspState} (h : IngressFinite d) (x : Frame) :
    IngressFinite (ingressDsp p d x).2 := by
  have hgate := ingressFinite_gateStage (p := p) h x
  unfold ingressDsp
  dsimp only
  split
  · exact ⟨hgate.dcEstimate, hgate.preemphasisPrev, keepFinite_finite .., keepFinite_finite ..⟩
  · exact hgate

/-- The filter's two elements are finite. -/
def FilterFinite (rs : ResamplerState) : Prop := f32Finite rs.z1 = true ∧ f32Finite rs.z2 = true

theorem filterFinite_convert {rs : ResamplerState} (h : FilterFinite rs) (p : Params) (inp : Frame)
    (src dst : Rate) (n : Nat) : FilterFinite (convert p inp src dst rs n).2 := by
  have hfilter : FilterFinite (antiAlias p src dst inp rs).2 := by
    unfold antiAlias
    split
    · exact mapAccum_keeps (P := FilterFinite)
        (fun _ _ _ => ⟨keepFinite_finite .., keepFinite_finite ..⟩) h inp
    · exact h
  unfold convert
  split
  · exact h
  · exact h
  · exact hfilter

/-- A conversion to a full frame keeps the resampler's part (R313, R322). -/
theorem resamplerInv_convert {rs : ResamplerState} (h : ResamplerInv rs) (p : Params) (inp : Frame)
    (src dst : Rate) : ResamplerInv (convert p inp src dst rs (frameLen dst)).2 := by
  obtain ⟨hz1, hz2⟩ := filterFinite_convert ⟨h.z1, h.z2⟩ p inp src dst (frameLen dst)
  obtain ⟨hzero, hone⟩ := convert_phaseInUnit p inp src dst ⟨h.phaseNotNegative, h.phaseBelowOne⟩
  exact ⟨hz1, hz2, hzero, hone⟩

/-- The numeric part reads these elements alone. -/
theorem numericInv_congr {s t : State} (h : NumericInv s) (hidsp : t.idsp = s.idsp)
    (hgain : t.edsp.limiterGain = s.edsp.limiterGain) (hirs : t.irs = s.irs) (hers : t.ers = s.ers) :
    NumericInv t := by
  obtain ⟨hdc, hpre, hrms, hagc, hlimiter, hingress, hegress⟩ := h
  constructor <;> simpa only [hidsp, hgain, hirs, hers]

theorem numericInv_outputPcm {s : State} (h : NumericInv s) (pcm : Frame) (rate : Rate) :
    NumericInv (outputPcm pcm rate s) := by
  have hchain := ingressFinite_ingressDsp (p := s.params)
    ⟨h.dcEstimate, h.preemphasisPrev, h.rmsEstimate, h.agcGain⟩ pcm
  exact ⟨hchain.dcEstimate, hchain.preemphasisPrev, hchain.rmsEstimate, hchain.agcGain, h.limiterGain,
    resamplerInv_convert h.ingressResampler _ _ _ _, h.egressResampler⟩

/-- An `ING_PULL` keeps the numeric part. -/
theorem numericInv_pull {s : State} (h : NumericInv s) : NumericInv (pull s) := by
  have hpulled : ∀ inc, NumericInv (jbPull inc s).2 := by
    intro inc
    obtain ⟨_, _, _, _, _, hwrites, -⟩ := jbPull_writes inc s
    rw [hwrites]
    exact numericInv_congr h rfl rfl rfl rfl
  rcases pull_cases s with hpull | ⟨inc, hpull | ⟨_, _, _, _, _, _, hpull, -⟩⟩ <;> rw [hpull]
  · exact h
  · exact hpulled inc
  · refine numericInv_outputPcm ?_ _ _
    exact numericInv_congr (hpulled inc) rfl rfl rfl rfl

/-- A frame sent through the egress chain leaves a finite gain (R392) and a tail of its length (R396). -/
theorem steadyEdsp_limiterGain_finite (c : Codec) (f : Frame) (s : State) :
    f32Finite (steadyEdsp c f s).limiterGain = true := keepFinite_finite ..

theorem steadyEdsp_tail_length {s : State} (h : s.edsp.tail.length = s.params.xfadeLen) (c : Codec)
    (f : Frame) : (steadyEdsp c f s).tail.length = s.params.xfadeLen := by
  unfold steadyEdsp
  exact noteEmitted_tail_length h _ true

/-! ## The whole invariant -/

/-- The invariant does not read the input stream and the events. -/
theorem inv_congr_stream {p : Params} {s : State} (h : Inv p s) (input : List Byte) (events : List Event) :
    Inv p { s with input := input, events := events } :=
  ⟨h.constants, h.codecMap, jbInv_congr h.jitterBuffer rfl rfl rfl rfl rfl,
    egressInv_congr h.egress rfl rfl rfl rfl, numericInv_congr h.numeric rfl rfl rfl rfl⟩

theorem inv_powerOn {p : Params} (hp : legalParams p = true) : Inv p (State.powerOn p) where
  constants := rfl
  codecMap := rfl
  jitterBuffer :=
    { canonical := rfl
      bounded := Nat.zero_le _
      payloads := fun _ hf => nomatch hf
      synced := fun hs => hs
      filling := fun _ => jbPrimeDepth_pos hp
      notBehind := fun _ _ hf => nomatch hf }
  egress :=
    { wholeFrames := fun _ hf => nomatch hf
      bounded := Nat.zero_le _
      tail := List.length_replicate
      idle := rfl }
  numeric := by
    have hreset : ResamplerInv ResamplerState.reset := by constructor <;> decide +kernel
    have hone : f32Finite f32One = true := by decide
    have hzero : f32Finite f32Zero = true := by decide
    obtain ⟨-, hingress, -⟩ := legalParams_parts hp
    simp only [legalIngress, f32Positive, Bool.and_eq_true] at hingress
    exact ⟨hzero, hzero, by tauto, hone, hone, hreset, hreset⟩

theorem inv_resetState {p : Params} (hp : legalParams p = true) {s : State} (h : Inv p s) :
    Inv p (resetState s) := by
  obtain rfl := h.constants
  exact inv_congr_stream (inv_powerOn hp) s.input s.events

theorem inv_jbInsertFrame {p : Params} (hp : legalParams p = true) {s : State} (h : Inv p s) {f : RtpFrame}
    (hf : f.payload.length ≤ maxPayload) : Inv p (jbInsertFrame f s) := by
  have hjb := jbInv_jbInsertFrame h.jitterBuffer (h.constants ▸ jbPrimeDepth_pos hp) hf
  obtain ⟨_, _, _, _, _, hwrites, -⟩ := jbInsertFrame_writes f s
  rw [hwrites] at hjb ⊢
  exact ⟨h.constants, h.codecMap, hjb, egressInv_congr h.egress rfl rfl rfl rfl,
    numericInv_congr h.numeric rfl rfl rfl rfl⟩

theorem inv_pull {p : Params} {s : State} (h : Inv p s) : Inv p (pull s) := by
  have hjb := jbInv_pull h.jitterBuffer
  have hnumeric := numericInv_pull h.numeric
  obtain ⟨_, _, _, _, _, _, _, _, _, _, _, _, hwrites, -⟩ := pull_writes s
  rw [hwrites] at hjb hnumeric ⊢
  exact ⟨h.constants, h.codecMap, hjb, egressInv_congr h.egress rfl rfl rfl rfl, hnumeric⟩

theorem inv_tick {p : Params} {s : State} (h : Inv p s) : Inv p (tick s) := by
  obtain ⟨hwhole, hbounded, htail, hfree⟩ := h.egress
  rcases tick_cases s with hidle | ⟨_, _, f, _, _, _, _, hwrites, -⟩ |
    ⟨c, _, f, rest, _, _, _, _, hwrites, -, hqueue⟩
  · rwa [hidle]
  · rw [hwrites]
    exact ⟨h.constants, h.codecMap, jbInv_congr h.jitterBuffer rfl rfl rfl rfl rfl,
      ⟨hwhole, hbounded, noteEmitted_tail_length htail _ _, hfree⟩,
      numericInv_congr h.numeric rfl rfl rfl rfl⟩
  · rw [hwrites]
    rw [hqueue] at hwhole hbounded
    obtain ⟨hdc, hpre, hrms, hagc, -, hingress, hegress⟩ := h.numeric
    exact ⟨h.constants, h.codecMap, jbInv_congr h.jitterBuffer rfl rfl rfl rfl rfl,
      ⟨fun g hg => hwhole g (List.mem_cons_of_mem f hg), (Nat.le_succ _).trans hbounded,
        steadyEdsp_tail_length htail c f, hfree⟩,
      ⟨hdc, hpre, hrms, hagc, steadyEdsp_limiterGain_finite c f s, hingress,
        resamplerInv_convert hegress _ _ _ _⟩⟩

/-- Every command that has an encoding keeps the invariant. -/
theorem exec_inv {p : Params} (hp : legalParams p = true) {i : Instr} (hi : WellFormed i) {s t : State}
    (h : Inv p s) (hexec : exec i s = .next t) : Inv p t := by
  cases i with
  | cfgCodec =>
    rcases exec_cfgCodec_cases hexec with rfl | ⟨c, rfl⟩
    · exact inv_congr_stream h _ _
    · exact ⟨h.constants, codecMapWf_mapCodec h.codecMap _ c, jbInv_congr h.jitterBuffer rfl rfl rfl rfl rfl,
        egressInv_congr h.egress rfl rfl rfl rfl, numericInv_congr h.numeric rfl rfl rfl rfl⟩
  | rtpIn =>
    rcases exec_rtpIn_cases hexec with rfl | rfl
    · exact inv_congr_stream h _ _
    · exact inv_jbInsertFrame hp h hi
  | ingPull => exact exec_ingPull hexec ▸ inv_pull h
  | egrEnq payload =>
    rw [exec_egrEnq hexec]
    exact ⟨h.constants, h.codecMap, jbInv_congr h.jitterBuffer rfl rfl rfl rfl rfl,
      egressInv_enqueuePcm h.egress (h.constants ▸ egrQueueCap_pos hp) payload,
      numericInv_congr h.numeric rfl rfl rfl rfl⟩
  | egrTick => exact exec_egrTick hexec ▸ inv_tick h
  | fadeReset =>
    rw [exec_fadeReset hexec]
    exact ⟨h.constants, h.codecMap, jbInv_congr h.jitterBuffer rfl rfl rfl rfl rfl,
      egressInv_congr h.egress rfl rfl rfl rfl, numericInv_congr h.numeric rfl rfl rfl rfl⟩
  | egrClear =>
    rw [exec_egrClear hexec]
    exact ⟨h.constants, h.codecMap, jbInv_congr h.jitterBuffer rfl rfl rfl rfl rfl,
      ⟨fun _ hf => (nomatch hf), Nat.zero_le _, h.egress.tail, h.egress.idle⟩,
      numericInv_congr h.numeric rfl rfl rfl rfl⟩
  | callReset => exact exec_callReset hexec ▸ inv_resetState hp h

/-- A payload that is read has the length of a 16-bit field at most (R121). -/
theorem wellFormed_of_readCommand {h : Header} {body : List Byte} {i : Instr}
    (hread : readCommand h body = some i) : WellFormed i := by
  have hlen : h.len.toNat ≤ maxPayload := Nat.le_of_lt_succ h.len.isLt
  unfold readCommand at hread
  split at hread <;> cases hread
  case h_2 | h_4 => exact (List.length_take_le _ _).trans hlen
  all_goals trivial

/-- What decodes to a command has an encoding. -/
theorem wellFormed_of_decode {stream : List Byte} {i : Instr} {n : Nat}
    (h : decode stream = .command i n) : WellFormed i := by
  unfold decode at h
  split at h
  · cases h
  · split at h
    · split at h <;> cases h
      rename_i hread
      exact wellFormed_of_readCommand hread
    · cases h

/-- Settles O38. -/
theorem powerOnMeetsTheInvariant : Obligations.PowerOnMeetsTheInvariant := by
  unfold Obligations.PowerOnMeetsTheInvariant
  exact ⟨by decide +kernel, fun _ hp => inv_powerOn hp⟩

/-- Settles O39, by what stands at the front of the command stream. -/
theorem everyStepKeepsTheInvariant : Obligations.EveryStepKeepsTheInvariant := by
  unfold Obligations.EveryStepKeepsTheInvariant
  intro p s t hp h hstep
  unfold step at hstep
  split at hstep
  · cases hstep
    exact h
  · cases hstep
    exact inv_congr_stream h _ _
  · rename_i i size hfetch
    exact exec_inv hp (wellFormed_of_decode hfetch) (inv_congr_stream h _ _) hstep

end Sys2Proof.Laws
end

section
/-! SUPPORT. A value that moves towards another by a rounded part of their rounded difference
(43_ingress_dsp.md R355, 44_egress_dsp.md R392): with a factor below 1.0 it stays between the two; with 1.0 it
passes the larger by one place at most. -/

namespace Sys2Proof.Laws

open Sys2Proof.Machine

/-! ## Where a rounding ends -/

/-- A fraction below the midpoint of two neighbours is rounded to the lower one at most. -/
theorem roundMag_le_of_lt_midpoint {f : FloatFormat} (hf : 1 ≤ f.mant) {num den p : Nat} (hden : 0 < den)
    (h : 2 * num < den * magUnits f p + den * magUnits f (p + 1)) : roundMag f num den ≤ p := by
  obtain ⟨p', ⟨hlow, -⟩, hround⟩ := roundMag_brackets hf num hden
  have hstep : den * magUnits f p ≤ den * magUnits f (p + 1) :=
    Nat.mul_le_mul_left _ (magUnits_lt_succ f p).le
  have hbelow : p' < p + 1 := by
    have : den * magUnits f p' < den * magUnits f (p + 1) := by omega
    exact (magUnits_strictMono f).lt_iff_lt.mp (Nat.lt_of_mul_lt_mul_left this)
  rcases Nat.lt_or_eq_of_le (Nat.lt_succ_iff.mp hbelow) with hlt | rfl
  · omega
  · rcases hround with ⟨hup, -⟩ | ⟨-, hdown⟩
    · unfold RoundsUp at hup
      omega
    · omega

/-- The distance between neighbours does not shrink from one pattern to the next. -/
theorem magUnits_gap_succ {f : FloatFormat} (p : Nat) :
    2 * magUnits f (p + 1) ≤ magUnits f p + magUnits f (p + 2) := by
  have hpos := Nat.two_pow_pos f.mant
  obtain ⟨s, m, rfl, hm, hs⟩ := exists_binade f p
  rw [Nat.add_assoc, Nat.add_assoc, magUnits_binade f hm.le hs, magUnits_binade f hm (by omega)]
  rcases Nat.lt_or_eq_of_le (Nat.succ_le_of_lt hm) with hin | htop
  · rw [magUnits_binade f hin (by omega)]
    nlinarith
  · rw [pow_succ] at htop
    rw [show s * 2 ^ f.mant + (m + 2) = (s + 1) * 2 ^ f.mant + (2 ^ f.mant + 1) by
      rw [Nat.add_mul]; omega, magUnits_binade f (by rw [pow_succ]; omega) (.inr (by omega)), pow_succ]
    have htwo : 2 * (m + 1) ≤ m + (2 ^ f.mant + 1) * 2 := by omega
    have := Nat.mul_le_mul_right (2 ^ s) htwo
    linarith

/-- The distance between neighbours is monotone. -/
theorem magUnits_gap_mono {f : FloatFormat} {p a : Nat} (h : p ≤ a) :
    magUnits f (p + 1) + magUnits f a ≤ magUnits f p + magUnits f (a + 1) := by
  induction a, h using Nat.le_induction with
  | base => omega
  | succ a _ ih =>
    have := magUnits_gap_succ (f := f) a
    rw [show a + 1 + 1 = a + 2 from rfl]
    omega

/-- A rounding errs by no more than the last place of any value above. -/
theorem magUnits_roundMag_le {f : FloatFormat} (hf : 1 ≤ f.mant) {e a : Nat} (he : e ≤ magUnits f a) :
    magUnits f (roundMag f e 1) + magUnits f a ≤ e + magUnits f (a + 1) := by
  obtain ⟨p, ⟨hlow, -⟩, hround⟩ := roundMag_brackets hf e Nat.one_pos
  rw [Nat.one_mul] at hlow
  have hpa : p ≤ a := (magUnits_strictMono f).le_iff_le.mp (hlow.trans he)
  have hgap := magUnits_gap_mono (f := f) hpa
  have hup : magUnits f (roundMag f e 1) ≤ magUnits f (p + 1) := magUnits_mono f (by omega)
  omega

section
variable {f : FloatFormat} (hf : SoundFormat f)
include hf

/-- The largest value below 1.0 is one last place below. -/
theorem magUnits_lt_onePattern {a : Nat} (ha : a < onePattern f) :
    magUnits f a + 2 ^ (f.unit - f.mant - 1) ≤ 2 ^ f.unit := by
  have hunit := hf.unit
  have hmant := hf.mant
  have hpos := Nat.two_pow_pos f.mant
  obtain ⟨e, he⟩ := Nat.exists_eq_add_of_le' (show f.mant + 1 ≤ f.unit by omega)
  have hpred : a ≤ e * 2 ^ f.mant + (2 ^ (f.mant + 1) - 1) := by
    rw [onePattern, show f.unit - f.mant + 1 = e + 2 by omega, Nat.add_mul] at ha
    rw [pow_succ]
    omega
  have hvalue := magUnits_mono f hpred
  rw [magUnits_binade f (by omega) (.inr (by rw [pow_succ]; omega)), Nat.sub_mul, Nat.one_mul, ← pow_add,
    show f.mant + 1 + e = f.unit by omega] at hvalue
  rw [show f.unit - f.mant - 1 = e by omega]
  have : 2 ^ e ≤ 2 ^ f.unit := Nat.pow_le_pow_right (by decide) (by omega)
  omega

/-- Where neighbours are more than a unit apart, a factor below 1.0 takes a value to the next lower one at
least. -/
theorem roundMag_mul_le_pred {step p : Nat} (hstep : step < onePattern f)
    (hp : magUnits f p + 1 < magUnits f (p + 1)) :
    roundMag f (magUnits f step * magUnits f (p + 1)) (2 ^ f.unit) ≤ p := by
  have hunit := hf.unit
  have hmant := hf.mant
  have hvalue := magUnits_lt_onePattern hf hstep
  have hsplit : 2 ^ f.unit = 2 ^ (f.unit - f.mant - 1) * (2 * 2 ^ f.mant) := by
    rw [← pow_succ', ← pow_add]
    congr 1
    omega
  refine roundMag_le_of_lt_midpoint hmant (Nat.two_pow_pos _) ?_
  obtain ⟨s, m, rfl, hm, hs⟩ := exists_binade f p
  rw [Nat.add_assoc, magUnits_binade f hm.le hs, magUnits_binade f hm (by omega)] at *
  have hnormal : 2 ^ f.mant ≤ m := by
    rcases hs with rfl | hs
    · simp at hp
    · exact hs
  have hu := Nat.two_pow_pos (f.unit - f.mant - 1)
  have hs' := Nat.two_pow_pos s
  rw [hsplit] at hvalue ⊢
  generalize 2 ^ (f.unit - f.mant - 1) = u at hu hvalue ⊢
  generalize 2 ^ f.mant = b at hnormal hvalue ⊢
  generalize 2 ^ s = w at hs' ⊢
  generalize magUnits f step = v at hvalue ⊢
  have hscaled : (v + u) * (2 * (m + 1) * w) ≤ u * (2 * b) * (2 * (m + 1) * w) :=
    Nat.mul_le_mul_right _ hvalue
  have hgain : u * b * w < u * (m + 1) * w :=
    Nat.mul_lt_mul_of_pos_right (Nat.mul_lt_mul_of_pos_left (by omega) hu) hs'
  nlinarith

/-! ## The rounded part of a rounded difference -/

/-- The pattern of `step` times the difference of `a` and `b`, both rounded. -/
def movePattern (f : FloatFormat) (step a b : Nat) : Nat :=
  roundMag f (magUnits f step * magUnits f (roundMag f (magUnits f a - magUnits f b) 1)) (2 ^ f.unit)

theorem roundMag_sub_le {a : Nat} (ha : a ≤ f.inf) (b : Nat) :
    roundMag f (magUnits f a - magUnits f b) 1 ≤ a :=
  roundMag_le_of_le hf.mant ha (Nat.sub_le _ _)

theorem movePattern_le {step : Nat} (hstep : step ≤ onePattern f) (a b : Nat) :
    movePattern f step a b ≤ roundMag f (magUnits f a - magUnits f b) 1 :=
  roundMag_mul_le hf hstep (roundMag_le_inf ..)

/-- With a factor below 1.0 the move is no longer than the exact difference. -/
theorem magUnits_movePattern_le {step : Nat} (hstep : step < onePattern f) (a b : Nat) :
    magUnits f (movePattern f step a b) ≤ magUnits f a - magUnits f b := by
  have hmove := movePattern_le hf hstep.le a b
  unfold movePattern at hmove ⊢
  generalize magUnits f a - magUnits f b = e at hmove ⊢
  obtain ⟨p, ⟨hlow, hhigh⟩, hround⟩ := roundMag_brackets hf.mant e Nat.one_pos
  rw [Nat.one_mul] at hlow hhigh
  suffices roundMag f (magUnits f step * magUnits f (roundMag f e 1)) (2 ^ f.unit) ≤ p from
    (magUnits_mono f this).trans hlow
  rcases Nat.lt_or_eq_of_le (show roundMag f e 1 ≤ p + 1 by omega) with hdown | hup
  · omega
  · rw [hup]
    refine roundMag_mul_le_pred hf hstep ?_
    by_contra hgap
    have hexact : e = magUnits f p := by omega
    have hp : p ≤ f.inf := by
      have := roundMag_le_inf f e 1
      omega
    rw [hexact, roundMag_exact hf.mant hp] at hup
    omega

/-- A move up passes the larger value by one place at most. -/
theorem roundMag_add_move_le {step g t : Nat} (hstep : step ≤ onePattern f) (ht : t < f.inf) (hgt : g ≤ t) :
    roundMag f (magUnits f g + magUnits f (movePattern f step t g)) 1 ≤ t + 1 := by
  refine roundMag_le_of_le hf.mant ht ?_
  have hmove := magUnits_mono f (movePattern_le hf hstep t g)
  have herror := magUnits_roundMag_le hf.mant (Nat.sub_le (magUnits f t) (magUnits f g))
  have := magUnits_mono f hgt
  omega
end

/-! ## The words -/

/-- `gain + step * (target - gain)`, rounded after each operation (R355). -/
def f32Approach (step gain target : F32) : F32 := f32Add gain (f32Mul step (f32Sub target gain))

section
variable {step gain target : F32} (hstep : step.toNat ≤ f32One.toNat) (hgain : gain.toNat < binary32.inf)
  (htarget : target.toNat < binary32.inf)
include hstep hgain htarget

theorem f32Approach_up (h : gain.toNat ≤ target.toNat) :
    (f32Approach step gain target).toNat = roundMag binary32
      (magUnits binary32 gain.toNat
        + magUnits binary32 (movePattern binary32 step.toNat target.toNat gain.toNat)) 1 := by
  have hdiff := roundMag_sub_le soundFormat_binary32 htarget.le gain.toNat
  have hmove := movePattern_le soundFormat_binary32 hstep target.toNat gain.toNat
  have hsmall : ∀ n, n ≤ binary32.inf → n < 2 ^ 32 := fun n hn => hn.trans_lt (by decide)
  have hone : f32One.toNat < binary32.inf := by decide
  have hsub : (f32Sub target gain).toNat =
      roundMag binary32 (magUnits binary32 target.toNat - magUnits binary32 gain.toNat) 1 := by
    rw [f32Sub, negPattern_eq soundFormat_binary32 hgain.le,
      addPattern_neg_of_le soundFormat_binary32 htarget h]
    exact f32Of_toNat (hsmall _ (roundMag_le_inf ..))
  have hmul : (f32Mul step (f32Sub target gain)).toNat =
      movePattern binary32 step.toNat target.toNat gain.toNat := by
    have := mulPattern_of_lt_inf soundFormat_binary32 (hstep.trans_lt hone) (hdiff.trans_lt htarget) false
    rw [withSign_false, withSign_false] at this
    rw [f32Mul, hsub, this]
    exact f32Of_toNat (hsmall _ (roundMag_le_inf ..))
  rw [f32Approach, f32Add, hmul,
    addPattern_of_lt_inf soundFormat_binary32 hgain ((hmove.trans hdiff).trans_lt htarget)]
  exact f32Of_toNat (hsmall _ (roundMag_le_inf ..))

omit htarget in
theorem f32Approach_down (h : target.toNat < gain.toNat) :
    (f32Approach step gain target).toNat = roundMag binary32
      (magUnits binary32 gain.toNat
        - magUnits binary32 (movePattern binary32 step.toNat gain.toNat target.toNat)) 1 := by
  have hdiff := roundMag_sub_le soundFormat_binary32 hgain.le target.toNat
  have hmove := movePattern_le soundFormat_binary32 hstep gain.toNat target.toNat
  have hsmall : ∀ n, n ≤ binary32.inf → withSign binary32 true n < 2 ^ 32 := fun n hn =>
    withSign_lt (hn.trans_lt (by decide)) true
  have hone : f32One.toNat < binary32.inf := by decide
  have hsub : (f32Sub target gain).toNat = withSign binary32 true
      (roundMag binary32 (magUnits binary32 gain.toNat - magUnits binary32 target.toNat) 1) := by
    rw [f32Sub, negPattern_eq soundFormat_binary32 hgain.le,
      addPattern_neg_of_lt soundFormat_binary32 hgain h]
    exact f32Of_toNat (hsmall _ (roundMag_le_inf ..))
  have hmul : (f32Mul step (f32Sub target gain)).toNat =
      withSign binary32 true (movePattern binary32 step.toNat gain.toNat target.toNat) := by
    rw [f32Mul, hsub,
      mulPattern_of_lt_inf soundFormat_binary32 (hstep.trans_lt hone) (hdiff.trans_lt hgain) true]
    exact f32Of_toNat (hsmall _ (roundMag_le_inf ..))
  rw [f32Approach, f32Add, hmul, addPattern_neg_of_le soundFormat_binary32 hgain (hmove.trans hdiff)]
  exact f32Of_toNat ((roundMag_le_inf ..).trans_lt (by decide))

/-- The approach passes the larger of the two values by one place at most. -/
theorem f32Approach_le :
    (f32Approach step gain target).toNat ≤ max gain.toNat target.toNat + 1 := by
  rcases le_or_gt gain.toNat target.toNat with h | h
  · rw [f32Approach_up hstep hgain htarget h, max_eq_right h]
    exact roundMag_add_move_le soundFormat_binary32 hstep htarget h
  · rw [f32Approach_down hstep hgain h]
    have := roundMag_le_of_le (by decide) hgain.le (Nat.sub_le (magUnits binary32 gain.toNat)
      (magUnits binary32 (movePattern binary32 step.toNat gain.toNat target.toNat)))
    omega

omit hstep in
/-- With a step below 1.0 the approach stays between the two values. -/
theorem f32Approach_between (hstep : step.toNat < f32One.toNat) :
    min gain.toNat target.toNat ≤ (f32Approach step gain target).toNat
      ∧ (f32Approach step gain target).toNat ≤ max gain.toNat target.toNat := by
  rcases le_or_gt gain.toNat target.toNat with h | h
  · have hmove := magUnits_movePattern_le soundFormat_binary32 hstep target.toNat gain.toNat
    have hle := magUnits_mono binary32 h
    rw [f32Approach_up hstep.le hgain htarget h, min_eq_left h, max_eq_right h]
    exact ⟨le_roundMag_of_le (by decide) hgain.le (Nat.le_add_right _ _),
      roundMag_le_of_le (by decide) htarget.le (by omega)⟩
  · have hmove := magUnits_movePattern_le soundFormat_binary32 hstep gain.toNat target.toNat
    have hle := magUnits_mono binary32 h.le
    rw [f32Approach_down hstep.le hgain h, min_eq_right h.le, max_eq_left h.le]
    exact ⟨le_roundMag_of_le (by decide) htarget.le (by omega),
      roundMag_le_of_le (by decide) hgain.le (Nat.sub_le _ _)⟩
end

end Sys2Proof.Laws
end

section
/-! SUPPORT. The order and the operations of binary32 words that are not negative (00_scope.md R12, R13). -/

namespace Sys2Proof.Laws

open Sys2Proof.Machine

/-! ## The order -/

theorem f32Lt_of_le_inf {a b : F32} (ha : a.toNat ≤ binary32.inf) (hb : b.toNat ≤ binary32.inf) :
    f32Lt a b = decide (a.toNat < b.toNat) := ltPattern_of_le_inf soundFormat_binary32 ha hb

theorem f32AtMost_of_le_inf {a b : F32} (ha : a.toNat ≤ binary32.inf) (hb : b.toNat ≤ binary32.inf) :
    f32AtMost a b = true ↔ a.toNat ≤ b.toNat := by
  simp [f32AtMost, f32Lt_of_le_inf hb ha]

/-- Between values that are no NaN, the order is that of the values. -/
theorem f32AtMost_iff {a b : F32} (ha : magOf binary32 a.toNat ≤ binary32.inf)
    (hb : magOf binary32 b.toNat ≤ binary32.inf) :
    f32AtMost a b = true ↔ unitsOf binary32 a.toNat ≤ unitsOf binary32 b.toNat := by
  simp [f32AtMost, f32Lt, ltPattern, isNan, ha.not_gt, hb.not_gt]

theorem f32Finite_of_lt_inf {a : F32} (ha : a.toNat < binary32.inf) : f32Finite a = true :=
  decide_eq_true ((magOf_of_le_inf soundFormat_binary32 ha.le).trans_lt ha)

theorem f32Unordered_of_le_inf {a b : F32} (ha : a.toNat ≤ binary32.inf) (hb : b.toNat ≤ binary32.inf) :
    f32Unordered a b = false := by
  simp [f32Unordered, isNan_of_le_inf soundFormat_binary32 ha, isNan_of_le_inf soundFormat_binary32 hb]

theorem f32Max_toNat {a b : F32} (ha : a.toNat ≤ binary32.inf) (hb : b.toNat ≤ binary32.inf) :
    (f32Max a b).toNat = max a.toNat b.toNat := by
  rw [f32Max, f32Unordered_of_le_inf ha hb, if_neg Bool.false_ne_true, f32Lt_of_le_inf ha hb,
    apply_ite BitVec.toNat]
  simp only [decide_eq_true_eq]
  split <;> omega

theorem f32Min_toNat {a b : F32} (ha : a.toNat ≤ binary32.inf) (hb : b.toNat ≤ binary32.inf) :
    (f32Min a b).toNat = min a.toNat b.toNat := by
  rw [f32Min, f32Unordered_of_le_inf ha hb, if_neg Bool.false_ne_true, f32Lt_of_le_inf hb ha,
    apply_ite BitVec.toNat]
  simp only [decide_eq_true_eq]
  split <;> omega

/-- What is above 0.0 is no NaN and has no sign bit. -/
theorem le_inf_of_f32Lt_zero {a : F32} (h : f32Lt f32Zero a = true) :
    0 < a.toNat ∧ a.toNat ≤ binary32.inf := by
  simp only [f32Lt, ltPattern, isNan, Bool.and_eq_true, Bool.not_eq_true', decide_eq_true_eq,
    decide_eq_false_iff_not, not_lt, show f32Zero.toNat = 0 from rfl, unitsOf_zero soundFormat_binary32] at h
  obtain ⟨⟨-, hnan⟩, hpos⟩ := h
  have hle := le_inf_of_pos a.isLt hnan hpos
  rw [unitsOf_of_le_inf soundFormat_binary32 hle] at hpos
  refine ⟨Nat.pos_of_ne_zero fun h0 => ?_, hle⟩
  simp [h0] at hpos

theorem toNat_of_f32Positive {a : F32} (h : f32Positive a = true) : 0 < a.toNat ∧ a.toNat < binary32.inf := by
  simp only [f32Positive, f32Finite, Bool.and_eq_true, decide_eq_true_eq] at h
  obtain ⟨hpos, hfinite⟩ := h
  obtain ⟨hpos, hle⟩ := le_inf_of_f32Lt_zero hpos
  rw [magOf_of_le_inf soundFormat_binary32 hle] at hfinite
  exact ⟨hpos, hfinite⟩

/-- What is finite and not below a positive value is a pattern not below it. -/
theorem toNat_of_f32AtMost {a b : F32} (ha : 0 < a.toNat) (ha' : a.toNat ≤ binary32.inf)
    (hb : f32Finite b = true) (h : f32AtMost a b = true) : a.toNat ≤ b.toNat ∧ b.toNat < binary32.inf := by
  have hfinite : magOf binary32 b.toNat < binary32.inf := of_decide_eq_true hb
  have hvalue := (f32AtMost_iff ((magOf_of_le_inf soundFormat_binary32 ha').trans_le ha') hfinite.le).mp h
  rw [unitsOf_of_le_inf soundFormat_binary32 ha'] at hvalue
  have hpos := magUnits_strictMono binary32 ha
  rw [magUnits_zero] at hpos
  have hle := le_inf_of_pos b.isLt hfinite.le (by omega)
  rw [unitsOf_of_le_inf soundFormat_binary32 hle, Nat.cast_le,
    (magUnits_strictMono binary32).le_iff_le] at hvalue
  rw [magOf_of_le_inf soundFormat_binary32 hle] at hfinite
  exact ⟨hvalue, hfinite⟩

/-! ## Finite values that are not negative, a zero with the sign bit among them -/

/-- The pattern is finite and its value is not negative. -/
structure FiniteNonneg (f : FloatFormat) (a : Nat) : Prop where
  finite : magOf f a < f.inf
  nonneg : 0 ≤ unitsOf f a

theorem finiteNonneg_of_lt_inf {f : FloatFormat} (hf : SoundFormat f) {a : Nat} (ha : a < f.inf) :
    FiniteNonneg f a where
  finite := (magOf_of_le_inf hf ha.le).trans_lt ha
  nonneg := by simp [unitsOf_of_le_inf hf ha.le]

/-- A finite magnitude with a sign bit only where it is 0. -/
theorem finiteNonneg_withSign {f : FloatFormat} (hf : SoundFormat f) {m : Nat} (hm : m < f.inf)
    {negative : Bool} (hzero : negative = true → m = 0) : FiniteNonneg f (withSign f negative m) where
  finite := (magOf_withSign (hm.trans hf.sign) negative).trans_lt hm
  nonneg := by
    rw [unitsOf_withSign hf hm.le]
    cases negative
    · simp
    · simp [hzero rfl]

theorem f32NotNegative_iff {x : F32} : f32NotNegative x = true ↔ FiniteNonneg binary32 x.toNat := by
  have hlt : magOf binary32 x.toNat < binary32.inf →
      (f32Lt x f32Zero = false ↔ 0 ≤ unitsOf binary32 x.toNat) := fun hfinite => by
    simp [f32Lt, ltPattern, isNan, hfinite.le, show f32Zero.toNat = 0 from rfl,
      unitsOf_zero soundFormat_binary32, show magOf binary32 0 = 0 from rfl]
  simp only [f32NotNegative, f32Finite, Bool.and_eq_true, Bool.not_eq_true', decide_eq_true_eq]
  exact ⟨fun h => ⟨h.1, (hlt h.1).mp h.2⟩, fun h => ⟨h.finite, (hlt h.finite).mpr h.nonneg⟩⟩

/-- The product of two such values is one, unless it overflows. -/
theorem f32Mul_nonneg {a b : F32} (ha : FiniteNonneg binary32 a.toNat) (hb : FiniteNonneg binary32 b.toNat)
    {k : Nat} (hk : roundMag binary32 (magUnits binary32 (magOf binary32 a.toNat)
      * magUnits binary32 (magOf binary32 b.toNat)) (2 ^ binary32.unit) = k) (hfinite : k < binary32.inf) :
    FiniteNonneg binary32 (f32Mul a b).toNat ∧ magOf binary32 (f32Mul a b).toNat = k := by
  have hsign : ∀ x : Nat, FiniteNonneg binary32 x → signOf binary32 x = true →
      magUnits binary32 (magOf binary32 x) = 0 := fun x hx hs => by
    have := hx.nonneg
    rw [unitsOf, if_pos hs] at this
    omega
  have hk' : k < 2 ^ binary32.sign := hfinite.trans (by decide)
  have hproduct : (f32Mul a b).toNat =
      withSign binary32 (signOf binary32 a.toNat != signOf binary32 b.toNat) k := by
    rw [f32Mul, mulPattern_finite ha.finite hb.finite, hk]
    exact f32Of_toNat (withSign_lt hk' _)
  rw [hproduct]
  refine ⟨finiteNonneg_withSign soundFormat_binary32 hfinite fun hnegative => ?_, magOf_withSign hk' _⟩
  have hzero :
      magUnits binary32 (magOf binary32 a.toNat) * magUnits binary32 (magOf binary32 b.toNat) = 0 := by
    cases hsa : signOf binary32 a.toNat
    · have hsb : signOf binary32 b.toNat = true := by simpa [hsa] using hnegative
      rw [hsign _ hb hsb, Nat.mul_zero]
    · rw [hsign _ ha hsa, Nat.zero_mul]
  rw [← hk, hzero]
  exact Nat.le_zero.mp (roundMag_div_le (by decide) (Nat.two_pow_pos _) (Nat.zero_le _) (Nat.zero_le _))

/-- The sum of two such values is one, unless it overflows. -/
theorem f32Add_nonneg {a b : F32} (ha : FiniteNonneg binary32 a.toNat) (hb : FiniteNonneg binary32 b.toNat)
    (hfinite : roundMag binary32 (magUnits binary32 (magOf binary32 a.toNat)
      + magUnits binary32 (magOf binary32 b.toNat)) 1 < binary32.inf) :
    FiniteNonneg binary32 (f32Add a b).toNat := by
  obtain ⟨negative, hsum, hneg⟩ :=
    addPattern_of_nonneg soundFormat_binary32 ha.finite hb.finite ha.nonneg hb.nonneg
  rw [f32Add, hsum, f32Of_toNat (withSign_lt (hfinite.trans (by decide)) _)]
  refine finiteNonneg_withSign soundFormat_binary32 hfinite fun hnegative => ?_
  rw [(hneg hnegative).2]
  exact Nat.le_zero.mp (roundMag_le_of_le (by decide) (Nat.zero_le _) (Nat.zero_le _))

/-- 1.0 less a value in [0, 1) is in [0, 1]. -/
theorem f32Sub_one_le {c : F32} (hc : 0 ≤ unitsOf binary32 c.toNat)
    (hone : magOf binary32 c.toNat < f32One.toNat) : (f32Sub f32One c).toNat ≤ f32One.toNat := by
  have hround : roundMag binary32
      (magUnits binary32 f32One.toNat - magUnits binary32 (magOf binary32 c.toNat)) 1 ≤ f32One.toNat :=
    roundMag_sub_le soundFormat_binary32 (by decide) _
  rw [f32Sub, addPattern_negPattern_of_lt soundFormat_binary32 (by decide) hc hone,
    f32Of_toNat (hround.trans_lt (by decide))]
  exact hround

end Sys2Proof.Laws
end

section
/-! Settles O60: the AGC. -/

namespace Sys2Proof.Laws

open Sys2Proof.Machine

/-! ## The target (R355) -/

/-- What the legal constants say of the AGC (R7), as patterns. -/
structure AgcLegal (p : Params) : Prop where
  target : 0 < p.agcTarget.toNat ∧ p.agcTarget.toNat < binary32.inf
  min : 0 < p.agcMin.toNat
  minMax : p.agcMin.toNat ≤ p.agcMax.toNat
  max : p.agcMax.toNat < binary32.inf
  coef : 0 ≤ unitsOf binary32 p.agcRmsCoef.toNat ∧ magOf binary32 p.agcRmsCoef.toNat < f32One.toNat
  step : p.agcStep.toNat ≤ f32One.toNat

theorem agcLegal_of_legalParams {p : Params} (h : legalParams p = true) : AgcLegal p := by
  obtain ⟨-, hingress, -⟩ := legalParams_parts h
  simp only [legalIngress, Bool.and_eq_true, and_assoc] at hingress
  obtain ⟨-, -, -, -, -, -, -, -, -, htarget, hmin, hmaxFinite, hminMax, hcoef, hcoefOne, hstep, hstepOne,
    -⟩ := hingress
  obtain ⟨hmin0, hminInf⟩ := toNat_of_f32Positive hmin
  obtain ⟨hmm, hmax⟩ := toNat_of_f32AtMost hmin0 hminInf.le hmaxFinite hminMax
  simp only [f32NotNegative, Bool.and_eq_true, Bool.not_eq_true'] at hcoef
  exact
    { target := toNat_of_f32Positive htarget
      min := hmin0
      minMax := hmm
      max := hmax
      coef := lt_of_ltPattern soundFormat_binary32 (by decide) hcoef.2 hcoefOne
      step := (f32AtMost_of_le_inf (toNat_of_f32Positive hstep).2.le (by decide)).mp hstepOne }

theorem f32Div_le_inf {a b : F32} (ha : a.toNat < binary32.inf) (hb : 0 < b.toNat)
    (hb' : b.toNat ≤ binary32.inf) : (f32Div a b).toNat ≤ binary32.inf := by
  obtain ⟨r, hdiv, hr⟩ := divPattern_le_inf soundFormat_binary32 ha hb hb'
  rw [f32Div, hdiv, f32Of_toNat (hr.trans_lt (by decide))]
  exact hr

/-- The target is within [AGC_MIN, AGC_MAX] for any estimate (R355). -/
theorem agcTargetGain_bounds {p : Params} (h : AgcLegal p) (estimate : F32) :
    p.agcMin.toNat ≤ (agcTargetGain p estimate).toNat
      ∧ (agcTargetGain p estimate).toNat ≤ p.agcMax.toNat := by
  have hmm := h.minMax
  have hmax := h.max
  unfold agcTargetGain
  split
  · rename_i hpos
    obtain ⟨hpos, hle⟩ := le_inf_of_f32Lt_zero hpos
    have hdiv := f32Div_le_inf h.target.2 hpos hle
    have hclamp := f32Max_toNat hdiv (show p.agcMin.toNat ≤ binary32.inf by omega)
    rw [f32Min_toNat (by omega) hmax.le, hclamp]
    omega
  · exact ⟨hmm, le_rfl⟩

/-! ## The gain (R355) -/

section
variable {p : Params} (h : AgcLegal p) {gain target : F32}
  (hlo : min p.agcMin.toNat f32One.toNat ≤ gain.toNat) (hhi : gain.toNat ≤ max p.agcMax.toNat f32One.toNat)
  (hmin : p.agcMin.toNat ≤ target.toNat) (hmax : target.toNat ≤ p.agcMax.toNat)
include h hhi hmax

theorem gain_lt_inf : gain.toNat < binary32.inf ∧ target.toNat < binary32.inf := by
  have := h.max
  have : f32One.toNat < binary32.inf := by decide
  omega

theorem agcGain_le : (f32Approach p.agcStep gain target).toNat ≤ max p.agcMax.toNat f32One.toNat + 1 := by
  obtain ⟨hgain, htarget⟩ := gain_lt_inf h hhi hmax
  have := f32Approach_le h.step hgain htarget
  omega

include hlo hmin

theorem agcGain_between (hstep : p.agcStep.toNat < f32One.toNat) :
    min p.agcMin.toNat f32One.toNat ≤ (f32Approach p.agcStep gain target).toNat
      ∧ (f32Approach p.agcStep gain target).toNat ≤ max p.agcMax.toNat f32One.toNat := by
  obtain ⟨hgain, htarget⟩ := gain_lt_inf h hhi hmax
  have := f32Approach_between hgain htarget hstep
  omega
end

/-! ## The estimate (R355) -/

/-- The largest value and the next lower one are further apart than 2^100. -/
theorem magUnits_below_largest :
    magUnits binary32 (binary32.inf - 2) + magUnits binary32 0x71800000
      ≤ magUnits binary32 (binary32.inf - 1) := by
  decide +kernel

/-- With a coefficient below 1.0 the weighted sum of an estimate and an RMS up to 2^100 does not overflow. -/
theorem rmsFormula_nonneg {p : Params} (h : AgcLegal p) {estimate rms : F32}
    (hestimate : FiniteNonneg binary32 estimate.toNat) (hrms : FiniteNonneg binary32 rms.toNat)
    (hsmall : magOf binary32 rms.toNat ≤ 0x71800000) :
    FiniteNonneg binary32
      (f32Add (f32Mul p.agcRmsCoef estimate) (f32Mul (f32Sub f32One p.agcRmsCoef) rms)).toNat := by
  obtain ⟨hcoef, hcoefOne⟩ := h.coef
  have hrest := f32Sub_one_le hcoef hcoefOne
  have hrestInf : (f32Sub f32One p.agcRmsCoef).toNat < binary32.inf := hrest.trans_lt (by decide)
  have hkept : roundMag binary32 (magUnits binary32 (magOf binary32 p.agcRmsCoef.toNat)
      * magUnits binary32 (magOf binary32 estimate.toNat)) (2 ^ binary32.unit) ≤ binary32.inf - 2 := by
    have hlargest : magOf binary32 estimate.toNat ≤ binary32.inf - 2 + 1 := Nat.le_of_lt_succ hestimate.finite
    refine le_trans ?_ (roundMag_mul_le_pred soundFormat_binary32 hcoefOne (by decide +kernel))
    exact roundMag_mono (by decide) (Nat.two_pow_pos _) (Nat.two_pow_pos _)
      (Nat.mul_le_mul_right _ (Nat.mul_le_mul_left _ (magUnits_mono binary32 hlargest)))
  have hadded : roundMag binary32 (magUnits binary32 (magOf binary32 (f32Sub f32One p.agcRmsCoef).toNat)
      * magUnits binary32 (magOf binary32 rms.toNat)) (2 ^ binary32.unit) ≤ 0x71800000 := by
    rw [magOf_of_le_inf soundFormat_binary32 hrestInf.le]
    exact (roundMag_mul_le soundFormat_binary32 hrest hrms.finite.le).trans hsmall
  obtain ⟨hleft, hleftMag⟩ := f32Mul_nonneg ⟨hcoefOne.trans (by decide), hcoef⟩ hestimate rfl
    (hkept.trans_lt (by decide))
  obtain ⟨hright, hrightMag⟩ := f32Mul_nonneg (finiteNonneg_of_lt_inf soundFormat_binary32 hrestInf) hrms rfl
    (hadded.trans_lt (by decide))
  refine f32Add_nonneg hleft hright ?_
  rw [hleftMag, hrightMag]
  have hsum := (Nat.add_le_add (magUnits_mono binary32 hkept) (magUnits_mono binary32 hadded)).trans
    magUnits_below_largest
  exact (roundMag_le_of_le (by decide) (by decide) hsum).trans_lt (by decide)

theorem rmsEstimate_notNegative {p : Params} (h : AgcLegal p) {d : IngressDspState} {rms : F32}
    (hd : f32NotNegative d.rmsEstimate = true) (hrms : f32NotNegative rms = true)
    (hsmall : f32AtMost rms 0x71800000#32 = true) :
    f32NotNegative (agcUpdate p d rms).rmsEstimate = true := by
  rw [f32NotNegative_iff] at hd hrms
  have hmag : magOf binary32 rms.toNat ≤ 0x71800000 := by
    have hvalue := (f32AtMost_iff hrms.finite.le (by decide)).mp hsmall
    rw [unitsOf_of_nonneg hrms.nonneg, unitsOf_of_le_inf soundFormat_binary32 (by decide), Nat.cast_le,
      (magUnits_strictMono binary32).le_iff_le] at hvalue
    exact hvalue
  have hformula := f32NotNegative_iff.mpr (rmsFormula_nonneg h hd hrms hmag)
  have hfinite := hformula
  simp only [f32NotNegative, Bool.and_eq_true] at hfinite
  rwa [agcUpdate, rmsNext, keepFinite_of_finite hfinite.1]

/-! ## The chain -/

/-- The filters and the gate leave the estimate and the gain alone (R351 to R354). -/
theorem gateStage_agc (p : Params) (d : IngressDspState) (x : Frame) :
    (gateStage p d x).rmsEstimate = d.rmsEstimate ∧ (gateStage p d x).agcGain = d.agcGain := by
  obtain ⟨opened, n, hgate⟩ :=
    gateUpdate_writes p (dcAndPreemphasis p d x).2 (frameRms (dcAndPreemphasis p d x).1)
  rw [gateStage, hgate]
  exact mapAccum_keeps
    (P := fun st : IngressDspState => st.rmsEstimate = d.rmsEstimate ∧ st.agcGain = d.agcGain)
    (fun _ _ hst => hst) ⟨rfl, rfl⟩ x

/-- What the chain does to a frame that leaves the gate open (R350, R355, R356). -/
theorem ingressDsp_open {p : Params} {d : IngressDspState} {x : Frame}
    (hopen : (ingressDsp p d x).2.gateOpen = true) :
    let y := (dcAndPreemphasis p d x).1
    let updated := agcUpdate p (gateStage p d x) (frameRms y)
    ingressDsp p d x = (applyGainAndLimit p updated y, updated) := by
  unfold ingressDsp at hopen ⊢
  dsimp only at hopen ⊢
  split at hopen
  · rename_i hgate
    rw [if_pos hgate]
  · rename_i hgate
    exact absurd hopen hgate

/-- On such a frame the estimate and the gain are those of R355, and the gain is applied to every sample. -/
theorem ingressDsp_open_agc {p : Params} {d : IngressDspState} {x : Frame}
    (hopen : (ingressDsp p d x).2.gateOpen = true) :
    let r := ingressDsp p d x
    let y := (dcAndPreemphasis p d x).1
    r.2.rmsEstimate = rmsNext p d (frameRms y)
      ∧ r.2.agcGain = gainNext p d.agcGain (agcTargetGain p r.2.rmsEstimate)
      ∧ r.1 = y.map (gainAndLimit p r.2.agcGain) := by
  obtain ⟨hrms, hgain⟩ := gateStage_agc p d x
  rw [ingressDsp_open hopen]
  refine ⟨?_, ?_, rfl⟩
  · simp only [agcUpdate, rmsNext, hrms]
  · simp only [agcUpdate, hgain]

/-- Settles O60: the target is clamped; the gain moves towards it by a part of the difference; the estimate's
formula cannot overflow. -/
theorem openGateMovesTheAgcWithinItsBounds : Obligations.OpenGateMovesTheAgcWithinItsBounds := by
  unfold Obligations.OpenGateMovesTheAgcWithinItsBounds
  intro p d hp lo hi
  have h := agcLegal_of_legalParams hp
  have hone : f32One.toNat < binary32.inf := by decide
  have hone0 : 0 < f32One.toNat := by decide
  have hmax := h.max
  have hmin := h.min
  have hmm := h.minMax
  have hlo : lo.toNat = min p.agcMin.toNat f32One.toNat := f32Min_toNat (by omega) hone.le
  have hhi : hi.toNat = max p.agcMax.toNat f32One.toNat := f32Max_toNat hmax.le hone.le
  refine ⟨?_, fun rms => rmsEstimate_notNegative h⟩
  intro x r filtered estimate target gain
  obtain ⟨hlow, hhigh⟩ : p.agcMin.toNat ≤ target.toNat ∧ target.toNat ≤ p.agcMax.toNat :=
    agcTargetGain_bounds h r.2.rmsEstimate
  refine ⟨fun hopen => ?_, f32Finite_of_lt_inf (by omega),
    (f32AtMost_of_le_inf (by omega) (by omega)).mpr hlow,
    (f32AtMost_of_le_inf (by omega) hmax.le).mpr hhigh, fun hfinite hge hle => ?_⟩
  · obtain ⟨hrms, hgain, hsamples⟩ := ingressDsp_open_agc hopen
    exact ⟨hrms ▸ keepFinite_finite .., fun hf => hrms.trans (keepFinite_of_finite hf),
      hgain ▸ keepFinite_finite .., fun hf => hgain.trans (keepFinite_of_finite hf), hsamples⟩
  · obtain ⟨hge, hinf⟩ := toNat_of_f32AtMost (by omega) (by omega) hfinite hge
    rw [f32AtMost_of_le_inf hinf.le (by omega), hhi] at hle
    rw [hlo] at hge
    refine ⟨hhi ▸ agcGain_le h hle hhigh, fun hstep => ?_⟩
    rw [f32Lt_of_le_inf (h.step.trans hone.le) hone.le, decide_eq_true_eq] at hstep
    obtain ⟨hlower, hupper⟩ : lo.toNat ≤ gain.toNat ∧ gain.toNat ≤ hi.toNat := by
      rw [hlo, hhi]
      exact agcGain_between h hge hle hlow hhigh hstep
    exact ⟨f32Finite_of_lt_inf (by omega), (f32AtMost_of_le_inf (by omega) (by omega)).mpr hlower,
      (f32AtMost_of_le_inf (by omega) (by omega)).mpr hupper⟩

end Sys2Proof.Laws
end

section
/-! SUPPORT. The command stream in front of the block (30_encoding.md R121 to R130): what a stream that begins
with a whole command decodes to, whatever bytes follow it. -/

namespace Sys2Proof.Laws

open Sys2Proof.Machine

/-! ## A command's encoding and the bytes behind it -/

theorem encodedHeader (i : Instr) : EncodedHeader.Statement i := by
  cases i with
  | cfgCodec pt codec rate => exact EncodedHeader.cfgCodec pt codec rate
  | rtpIn pt ts payload => exact EncodedHeader.rtpIn pt ts payload
  | ingPull => exact EncodedHeader.ingPull
  | egrEnq payload => exact EncodedHeader.egrEnq payload
  | egrTick => exact EncodedHeader.egrTick
  | fadeReset => exact EncodedHeader.fadeReset
  | egrClear => exact EncodedHeader.egrClear
  | callReset => exact EncodedHeader.callReset

/-- The `len` field of a payload that has an encoding is its length (R121). -/
theorem lenField_toNat {payload : List Byte} (h : payload.length ≤ maxPayload) :
    (BitVec.ofNat 16 payload.length).toNat = payload.length :=
  Nat.mod_eq_of_lt (Nat.lt_succ_of_le h)

theorem cfgArgument_fields (codec : Byte) (rate : BitVec 24) :
    (rate ++ codec).extractLsb' 0 8 = codec ∧ (rate ++ codec).extractLsb' 8 24 = rate :=
  ⟨BitVec.extractLsb'_append_eq_right, BitVec.extractLsb'_append_eq_left⟩

/-- A command is read back from its header and the bytes behind the header (R123 to R127). -/
theorem readCommand_encode {i : Instr} (hi : WellFormed i) {rest body : List Byte} {h : Header}
    (hsplit : splitHeader (encode i ++ rest) = some (h, body)) : readCommand h body = some i := by
  cases i with
  | cfgCodec pt codec rate =>
    rw [encode, List.append_assoc, splitHeader_headerBytes] at hsplit
    cases hsplit
    obtain ⟨hcodec, hrate⟩ := cfgArgument_fields codec rate
    simp [readCommand, splitArg_bytes32, hcodec, hrate]
  | rtpIn pt ts payload =>
    rw [encode, List.append_assoc, List.append_assoc, splitHeader_headerBytes] at hsplit
    cases hsplit
    simp only [readCommand, splitArg_bytes32, lenField_toNat hi, List.take_left]
    rfl
  | egrEnq payload =>
    rw [encode, List.append_assoc, splitHeader_headerBytes] at hsplit
    cases hsplit
    simp only [readCommand, lenField_toNat hi, List.take_left]
    rfl
  | ingPull | egrTick | fadeReset | egrClear | callReset =>
    rw [encode, splitHeader_headerBytes] at hsplit
    cases hsplit
    rfl

/-- The bytes of a command decode to it, whatever follows them, and exactly they are taken (R121 to R129). -/
theorem decode_encode_append {i : Instr} (hi : WellFormed i) (rest : List Byte) :
    decode (encode i ++ rest) = .command i (encode i).length := by
  obtain ⟨h, body, hencode, hvalid, hsize⟩ := encodedHeader i hi
  have hread : readCommand h (body ++ rest) = some i :=
    readCommand_encode hi (by rw [hencode, List.append_assoc, splitHeader_headerBytes])
  have hbody : body.length = bodySize h := by
    simpa [hencode, commandSize] using hsize
  rw [hsize, hencode, decode_whole h body rest hbody, hvalid, hread]

/-! ## Bytes that follow a complete command -/

theorem splitArg_append {body : List Byte} (h : 4 ≤ body.length) (rest : List Byte) :
    splitArg (body ++ rest) = ((splitArg body).1, (splitArg body).2 ++ rest) := by
  conv_lhs => rw [← bytes32_splitArg h, List.append_assoc, splitArg_bytes32]

/-- A whole body with an argument word holds that word and behind it the payload (R129). -/
theorem splitArg_wholeBody {h : Header} {body : List Byte} (harg : argSize h.op = 4)
    (hlen : body.length = bodySize h) (rest : List Byte) :
    splitArg (body ++ rest) = ((splitArg body).1, (splitArg body).2 ++ rest)
      ∧ h.len.toNat ≤ (splitArg body).2.length := by
  rw [bodySize, harg] at hlen
  have hfour : 4 ≤ body.length := by omega
  have hbytes := congrArg List.length (bytes32_splitArg hfour)
  rw [List.length_append, bytes32_length] at hbytes
  exact ⟨splitArg_append hfour rest, by omega⟩

/-- A command is read from its own body alone (R129). -/
theorem readCommand_append {h : Header} {body : List Byte} (hlen : body.length = bodySize h)
    (rest : List Byte) : readCommand h (body ++ rest) = readCommand h body := by
  have hlenField : h.len.toNat ≤ body.length := by
    rw [hlen, bodySize]
    exact Nat.le_add_left ..
  unfold readCommand
  split
  case h_1 hop =>
    obtain ⟨hsplit, -⟩ := splitArg_wholeBody (by simp [argSize, ← BitVec.toNat_inj, hop]) hlen rest
    rw [hsplit]
  case h_2 hop =>
    obtain ⟨hsplit, hpayload⟩ := splitArg_wholeBody (by simp [argSize, ← BitVec.toNat_inj, hop]) hlen rest
    rw [hsplit, List.take_append_of_le_length hpayload]
  case h_4 => rw [List.take_append_of_le_length hlenField]
  all_goals rfl

/-- What a complete front command decodes to does not depend on the bytes behind it (R130). -/
theorem decode_append {stream : List Byte} (h : decode stream ≠ .incomplete) (bytes : List Byte) :
    decode (stream ++ bytes) = decode stream := by
  obtain ⟨hdr, body, rest, rfl, hlen⟩ := decode_complete h
  rw [List.append_assoc, decode_whole hdr body _ hlen, decode_whole hdr body _ hlen,
    readCommand_append hlen, readCommand_append hlen]

/-- The bytes that a step takes from the stream (R129, R130). -/
def decodedSize (d : Decoded) : Nat :=
  match d with
  | .incomplete => 0
  | .malformed _ _ size => size
  | .command _ size => size

theorem decodedSize_le (stream : List Byte) : decodedSize (decode stream) ≤ stream.length := by
  by_cases h : decode stream = .incomplete
  · rw [h]
    exact Nat.zero_le _
  · obtain ⟨hdr, body, rest, rfl, hlen⟩ := decode_complete h
    have hsize : decodedSize (decode (headerBytes hdr ++ body ++ rest)) = commandSize hdr := by
      rw [decode_whole hdr body rest hlen]
      split <;> rfl
    rw [hsize]
    simp [commandSize, hlen]

end Sys2Proof.Laws
end

section
/-! SUPPORT. No command sees the bytes behind it: every operation of the block commutes with a change of the
stream that waits (20_memory.md R100). -/

namespace Sys2Proof.Laws

open Sys2Proof.Machine

/-- The state with other bytes still to come. -/
def withInput (bytes : List Byte) (s : State) : State := { s with input := bytes }

@[simp] theorem withInput_params (b : List Byte) (s : State) : (withInput b s).params = s.params := rfl
@[simp] theorem withInput_codecMap (b : List Byte) (s : State) : (withInput b s).codecMap = s.codecMap := rfl
@[simp] theorem withInput_sessionCodec (b : List Byte) (s : State) : (withInput b s).sessionCodec = s.sessionCodec :=
  rfl
@[simp] theorem withInput_jbMap (b : List Byte) (s : State) : (withInput b s).jbMap = s.jbMap := rfl
@[simp] theorem withInput_nextExpected (b : List Byte) (s : State) : (withInput b s).nextExpected = s.nextExpected :=
  rfl
@[simp] theorem withInput_isSynchronized (b : List Byte) (s : State) : (withInput b s).isSynchronized = s.isSynchronized :=
  rfl
@[simp] theorem withInput_everSynced (b : List Byte) (s : State) : (withInput b s).everSynced = s.everSynced := rfl
@[simp] theorem withInput_tickBusy (b : List Byte) (s : State) : (withInput b s).tickBusy = s.tickBusy := rfl
@[simp] theorem withInput_queue (b : List Byte) (s : State) : (withInput b s).queue = s.queue := rfl

theorem deliver_eq (bytes : List Byte) (s : State) : deliver bytes s = withInput (s.input ++ bytes) s := rfl

theorem consume_eq (size : Nat) (s : State) : consume size s = withInput (s.input.drop size) s := rfl

/-! An operation that answers a value beside the state answers the same value; the state's stream alone
differs (`Prod.map id`). -/

section
variable (b : List Byte) (s : State)

/-! ## Inserts (R423, R424) -/

theorem synchronise_withInput (k : U32) :
    synchronise k (withInput b s) = withInput b (synchronise k s) := by
  have hjump : noteJump k (withInput b s) = withInput b (noteJump k s) := by
    rw [noteJump, noteJump, apply_ite (withInput b)]
    rfl
  rw [synchronise, hjump]
  rfl

theorem syncCheck_withInput : syncCheck (withInput b s) = withInput b (syncCheck s) := by
  simp only [syncCheck, withInput_isSynchronized, withInput_params, withInput_jbMap, withInput_everSynced,
    withInput_nextExpected, apply_ite (withInput b)]
  cases lowest s.everSynced s.nextExpected s.jbMap with
  | none => rfl
  | some k => simp only [synchronise_withInput]

theorem jbInsertFrame_withInput (f : RtpFrame) :
    jbInsertFrame f (withInput b s) = withInput b (jbInsertFrame f s) := by
  have hsync := syncCheck_withInput b { s with jbMap := jbInsert f s.jbMap }
  simp only [jbInsertFrame, apply_ite (withInput b), ← hsync]
  rfl

/-! ## Pulls (R203, R425 to R430) -/

theorem resync_withInput (nx inc : U32) :
    resync nx inc (withInput b s) = Prod.map id (withInput b) (resync nx inc s) := by
  simp only [resync, withInput_everSynced, withInput_nextExpected, withInput_jbMap]
  cases lowest s.everSynced s.nextExpected s.jbMap with
  | none => rfl
  | some k =>
    dsimp only
    cases jbLookup k s.jbMap with
    | none => rfl
    | some f => rfl

theorem pullMissing_withInput (nx inc : U32) :
    pullMissing nx inc (withInput b s) = Prod.map id (withInput b) (pullMissing nx inc s) := by
  have hresync := resync_withInput b { s with missingCount := satInc s.missingCount } nx inc
  simp only [pullMissing, beyondPlc, apply_ite (Prod.map id (withInput b)), ← hresync]
  rfl

theorem jbPull_withInput (inc : U32) :
    jbPull inc (withInput b s) = Prod.map id (withInput b) (jbPull inc s) := by
  simp only [jbPull, withInput_isSynchronized, withInput_nextExpected, withInput_jbMap,
    apply_ite (Prod.map id (withInput b))]
  cases jbLookup s.nextExpected s.jbMap with
  | some f => rfl
  | none =>
    simp only [pullMissing_withInput]
    rfl

theorem callErrorAt_withInput (direction : Direction) (before after : U32) :
    callErrorAt direction before after (withInput b s) = withInput b (callErrorAt direction before after s) := by
  rw [callErrorAt, callErrorAt, apply_ite (withInput b)]
  rfl

theorem checkLength_withInput (f : RtpFrame) : checkLength f (withInput b s) = withInput b (checkLength f s) := by
  rw [checkLength, checkLength, apply_ite (withInput b)]
  rfl

theorem opusDecodeAnswer_withInput (r : OpusDecResult) :
    opusDecodeAnswer r (withInput b s) = Prod.map id (withInput b) (opusDecodeAnswer r s) := by
  cases r with
  | fail =>
    have herror := callErrorAt_withInput b
      (raiseWarning .opusDecodeFail (satInc s.opusDecFail) { s with opusDecFail := satInc s.opusDecFail })
      .decoder s.opusDecFail (satInc s.opusDecFail)
    exact congrArg (Prod.mk (zeros 960)) herror
  | ok samples stereo => rfl

theorem decodeRtp_withInput (session : Codec) (f : RtpFrame) :
    decodeRtp session f (withInput b s) = Prod.map id (withInput b) (decodeRtp session f s) := by
  have hlength := checkLength_withInput b s f
  simp only [decodeRtp, withInput_codecMap]
  cases codecAt f.payloadType s.codecMap with
  | none => rfl
  | some c =>
    cases c with
    | pcmu | pcma => exact congrArg (Prod.mk _) hlength
    | g722 =>
      dsimp only
      rw [hlength]
      rfl
    | opus =>
      have hanswer := opusDecodeAnswer_withInput b { s with opusDec := (opusDecode s.opusDec f.payload).1 }
        (opusDecode s.opusDec f.payload).2
      exact congrArg (fun r => ((r.1, Rate.r48000), r.2)) hanswer

theorem outputPcm_withInput (pcm : Frame) (rate : Rate) :
    outputPcm pcm rate (withInput b s) = withInput b (outputPcm pcm rate s) := rfl

theorem finishPull_withInput (session : Codec) (r : PullResult) :
    finishPull session r (withInput b s) = withInput b (finishPull session r s) := by
  cases r with
  | nothing => rfl
  | frame f =>
    simp only [finishPull, decodeRtp_withInput]
    exact outputPcm_withInput ..
  | conceal => exact outputPcm_withInput ..

theorem pull_withInput : pull (withInput b s) = withInput b (pull s) := by
  simp only [pull, withInput_sessionCodec, jbPull_withInput]
  cases s.sessionCodec with
  | none => rfl
  | some c => exact finishPull_withInput ..

/-! ## Ticks (R465 to R472) -/

theorem opusEncodeAnswer_withInput (r : OpusEncResult) :
    opusEncodeAnswer r (withInput b s) = Prod.map id (withInput b) (opusEncodeAnswer r s) := by
  cases r with
  | fail =>
    have herror := callErrorAt_withInput b
      (raiseWarning .opusEncodeFail (satInc s.opusEncFail) { s with opusEncFail := satInc s.opusEncFail })
      .encoder s.opusEncFail (satInc s.opusEncFail)
    exact congrArg (Prod.mk none) herror
  | ok payload => rfl

theorem encodeFrame_withInput (c : Codec) (f : Frame) :
    encodeFrame c f (withInput b s) = Prod.map id (withInput b) (encodeFrame c f s) := by
  cases c with
  | pcmu | pcma | g722 => rfl
  | opus =>
    exact opusEncodeAnswer_withInput b { s with opusEnc := (opusEncode s.opusEnc f).1 } (opusEncode s.opusEnc f).2

/-- What `emitEncoded` makes of the encoder's answer (R472). -/
def sendEncoded (c : Codec) (r : Option (List Byte) × State) : State :=
  match r.1 with
  | none => r.2
  | some payload => emit (.encFrameReady c (rtpIncrement c) payload) r.2

theorem emitEncoded_eq (c : Codec) (f : Frame) (real : Bool) :
    emitEncoded c f real s =
      sendEncoded c (encodeFrame c f { s with edsp := noteEmitted s.params f real s.edsp }) := rfl

theorem sendEncoded_withInput (c : Codec) (r : Option (List Byte) × State) :
    sendEncoded c (Prod.map id (withInput b) r) = withInput b (sendEncoded c r) := by
  obtain ⟨payload, s⟩ := r
  cases payload with
  | none => rfl
  | some payload => rfl

theorem emitEncoded_withInput (c : Codec) (f : Frame) (real : Bool) :
    emitEncoded c f real (withInput b s) = withInput b (emitEncoded c f real s) := by
  rw [emitEncoded_eq, emitEncoded_eq, ← sendEncoded_withInput, ← encodeFrame_withInput]
  rfl

theorem silentTick_withInput (c : Codec) : silentTick c (withInput b s) = withInput b (silentTick c s) :=
  emitEncoded_withInput ..

theorem steadyTick_withInput (c : Codec) (f : Frame) (rest : List Frame) :
    steadyTick c f rest (withInput b s) = withInput b (steadyTick c f rest s) :=
  emitEncoded_withInput b { s with queue := rest, underrunCount := _, ers := _, edsp := _ } c _ true

theorem noteDrained_withInput (before : U32) :
    noteDrained before (withInput b s) = withInput b (noteDrained before s) := by
  have hnote : (if becomes before (withInput b s).underrunCount ((withInput b s).params.underrunInterp + 1) then
      emit .queueDrained (withInput b s) else withInput b s) = withInput b
      (if becomes before s.underrunCount (s.params.underrunInterp + 1) then emit .queueDrained s else s) := by
    rw [apply_ite (withInput b)]
    rfl
  rw [noteDrained, noteDrained, hnote]
  generalize (if becomes before s.underrunCount (s.params.underrunInterp + 1) then emit .queueDrained s else s) = t
  rw [apply_ite (withInput b)]
  rfl

theorem underrunTick_withInput (c : Codec) :
    underrunTick c (withInput b s) = withInput b (underrunTick c s) := by
  simp only [underrunTick, apply_ite (withInput b), ← emitEncoded_withInput, ← noteDrained_withInput,
    ← silentTick_withInput]
  rfl

theorem playTick_withInput (c : Codec) : playTick c (withInput b s) = withInput b (playTick c s) := by
  simp only [playTick, withInput_queue]
  cases s.queue with
  | nil => exact underrunTick_withInput b s c
  | cons f rest => exact steadyTick_withInput b s c f rest

theorem tickBody_withInput (c : Codec) : tickBody c (withInput b s) = withInput b (tickBody c s) := by
  have hprimed := playTick_withInput b { s with primed := true } c
  simp only [tickBody, apply_ite (withInput b), ← hprimed, ← silentTick_withInput, ← playTick_withInput]
  rfl

theorem tick_of_session {s : State} {c : Codec} (h : s.sessionCodec = some c) :
    tick s = if s.tickBusy then s else { tickBody c { s with tickBusy := true } with tickBusy := false } := by
  rw [tick, h]

theorem tick_without_session {s : State} (h : s.sessionCodec = none) : tick s = s := by
  rw [tick, h, ite_self]

theorem tick_withInput : tick (withInput b s) = withInput b (tick s) := by
  cases hsession : s.sessionCodec with
  | none => rw [tick_without_session hsession, tick_without_session (s := withInput b s) hsession]
  | some c =>
    have hbody := tickBody_withInput b { s with tickBusy := true } c
    rw [tick_of_session hsession, tick_of_session (s := withInput b s) hsession, apply_ite (withInput b)]
    exact if_congr Iff.rfl rfl (congrArg (fun t => { t with tickBusy := false }) hbody)

/-! ## Enqueues (R462) and the commands (R201 to R208) -/

theorem enqueuePcm_withInput (payload : List Byte) :
    enqueuePcm payload (withInput b s) = withInput b (enqueuePcm payload s) := rfl

/-- What a command makes of a state, whatever bytes wait behind it. -/
theorem exec_withInput {i : Instr} {s t : State} (h : exec i s = .next t) :
    exec i (withInput b s) = .next (withInput b t) := by
  cases i with
  | cfgCodec pt codec rate =>
    simp only [exec, execCfgCodec] at h ⊢
    split at h <;> cases h <;> rfl
  | rtpIn pt ts payload =>
    simp only [exec, execRtpIn, withInput_sessionCodec] at h ⊢
    split at h <;> cases h
    · rfl
    · exact congrArg _ (jbInsertFrame_withInput ..)
  | ingPull => exact exec_ingPull h ▸ congrArg _ (pull_withInput b s)
  | egrEnq payload => exact exec_egrEnq h ▸ congrArg _ (enqueuePcm_withInput b s payload)
  | egrTick => exact exec_egrTick h ▸ congrArg _ (tick_withInput b s)
  | fadeReset | egrClear | callReset =>
    cases h
    rfl

/-- Every command has a next state (R600). -/
theorem exec_completes (i : Instr) : ∃ t, exec i s = .next t := by
  cases i with
  | cfgCodec pt codec rate =>
    simp only [exec, execCfgCodec]
    split <;> exact ⟨_, rfl⟩
  | rtpIn pt ts payload =>
    simp only [exec, execRtpIn]
    split <;> exact ⟨_, rfl⟩
  | ingPull | egrEnq | egrTick | fadeReset | egrClear | callReset => exact ⟨_, rfl⟩

end

end Sys2Proof.Laws
end

section
/-! Settles O6, O8 and O37: the order of commands, and commands given twice (20_memory.md R99, R100). -/

namespace Sys2Proof.Laws

open Sys2Proof.Machine

/-! ## Arrival (R100, R130) -/

/-- A command commutes with the arrival of bytes. -/
theorem exec_deliver (bytes : List Byte) {i : Instr} {s t : State} (h : exec i s = .next t) :
    exec i (deliver bytes s) = .next (deliver bytes t) := by
  rw [deliver_eq, deliver_eq, (exec_appends h).input]
  exact exec_withInput _ h

theorem consume_deliver {size : Nat} {s : State} (h : size ≤ s.input.length) (bytes : List Byte) :
    consume size (deliver bytes s) = deliver bytes (consume size s) := by
  have hdrop : (s.input ++ bytes).drop size = s.input.drop size ++ bytes := List.drop_append_of_le_length h
  exact congrArg (fun input => { s with input := input }) hdrop

/-- Settles O6: the same command is decoded, the arrived bytes are not among those it takes, and it commutes
with their arrival. -/
theorem laterBytesDoNotMatter : Obligations.LaterBytesDoNotMatter := by
  unfold Obligations.LaterBytesDoNotMatter
  intro s bytes hcomplete
  have hfetch : fetch (deliver bytes s) = fetch s := decode_append hcomplete bytes
  have hsize : decodedSize (fetch s) ≤ s.input.length := decodedSize_le s.input
  unfold step
  rw [hfetch]
  cases hdecoded : fetch s with
  | incomplete => exact absurd hdecoded hcomplete
  | malformed why hdr size =>
    rw [hdecoded] at hsize
    exact ⟨_, rfl, congrArg (fun u => Host.Outcome.next (rejectMalformed hdr u)) (consume_deliver hsize bytes)⟩
  | command i size =>
    rw [hdecoded] at hsize
    obtain ⟨t, ht⟩ := exec_completes (consume size s) i
    exact ⟨t, ht, (congrArg (exec i) (consume_deliver hsize bytes)).trans (exec_deliver bytes ht)⟩

/-! ## A list of commands (R100, R129) -/

/-- One step on a command's bytes executes it and leaves the bytes behind it. -/
theorem step_encode {i : Instr} (hi : WellFormed i) (rest : List Byte) (s : State) :
    step (withInput (encode i ++ rest) s) = exec i (withInput rest s) := by
  rw [step_of_command (decode_encode_append hi rest), consume_eq]
  exact congrArg (fun input => exec i (withInput input s)) List.drop_left

theorem run_succ_of_step {M : Host.Core} {s t : M.State} (h : M.step s = .next t) (n : Nat) :
    M.run (n + 1) s = M.run n t := by
  rw [Host.Core.run, h]

theorem runCommands_cons_of_exec {i : Instr} {s t : State} (h : exec i s = .next t) (is : List Instr) :
    runCommands (i :: is) s = runCommands is t := by
  rw [runCommands, h]

/-- A run over the bytes of a list of commands executes them in order, whatever bytes the state held before. -/
theorem run_encoded (is : List Instr) (s : State) (hwf : ∀ i ∈ is, WellFormed i) :
    Sys2Proof.core.run is.length (withInput (is.flatMap encode) s) = runCommands is (withInput [] s) := by
  induction is generalizing s with
  | nil => rfl
  | cons i rest ih =>
    obtain ⟨hi, hrest⟩ := List.forall_mem_cons.mp hwf
    obtain ⟨t, ht⟩ := exec_completes s i
    have hstep : step (withInput ((i :: rest).flatMap encode) s) = .next (withInput (rest.flatMap encode) t) := by
      rw [List.flatMap_cons, step_encode hi]
      exact exec_withInput _ ht
    have hrun := run_succ_of_step (M := Sys2Proof.core) hstep rest.length
    have hcommands := runCommands_cons_of_exec (exec_withInput [] ht) rest
    exact hrun.trans ((ih t hrest).trans hcommands.symm)

/-- Settles O8: the state holds the bytes of the list, and every step leaves those of the rest. -/
theorem runExecutesTheCommandsInOrder : Obligations.RunExecutesTheCommandsInOrder := by
  unfold Obligations.RunExecutesTheCommandsInOrder
  intro is s hwf hinput
  have hstate : s = withInput (is.flatMap encode) s := by
    rw [← hinput]
    rfl
  rw [hstate]
  exact run_encoded is s hwf

/-! ## Commands given twice (R99) -/

theorem mapCodec_idem (pt : Byte) (c : Codec) (m : List (Byte × Codec)) :
    mapCodec pt c (mapCodec pt c m) = mapCodec pt c m := by
  induction m with
  | nil => simp [mapCodec]
  | cons e rest ih =>
    obtain ⟨k, d⟩ := e
    by_cases hlt : pt < k
    · simp [mapCodec, hlt]
    · by_cases heq : pt = k
      · simp [mapCodec, heq]
      · simp [mapCodec, hlt, heq, ih]

@[simp] theorem codecOfId_codecId (c : Codec) : codecOfId (codecId c) = some c := by
  cases c <;> rfl

theorem exec_cfgCodec_codecId (pt : Byte) (c : Codec) (rate : BitVec 24) (s : State) :
    exec (.cfgCodec pt (codecId c) rate) s = .next (acceptCodec pt c s) := by
  simp only [exec, execCfgCodec, codecOfId_codecId]

theorem acceptCodec_idem (pt : Byte) (c : Codec) (s : State) :
    acceptCodec pt c (acceptCodec pt c s) = acceptCodec pt c s := by
  simp only [acceptCodec, mapCodec_idem]

theorem exec_rtpIn_of_session {s : State} (h : s.sessionCodec ≠ none) (pt : Byte) (ts : U32)
    (payload : List Byte) : exec (.rtpIn pt ts payload) s = .next (jbInsertFrame ⟨pt, payload, ts⟩ s) := by
  obtain ⟨c, hc⟩ := Option.ne_none_iff_exists'.mp h
  simp only [exec, execRtpIn, hc]

/-- A frame whose key is stored is dropped (R423). -/
theorem jbInsertFrame_of_stored {f g : RtpFrame} {s : State} (hg : g ∈ s.jbMap)
    (hkey : g.rtpTimestamp = f.rtpTimestamp) : jbInsertFrame f s = s := by
  have hstored : jbHasKey f.rtpTimestamp s.jbMap = true := by
    rw [jbHasKey, Option.isSome_iff_ne_none, Ne, jbLookup_none_iff]
    exact fun hfree => hfree g hg hkey
  rw [jbInsertFrame, if_pos hstored, ite_self]

/-- Settles O37, command by command. -/
theorem repeatedCommandsAreIdempotent : Obligations.RepeatedCommandsAreIdempotent := by
  unfold Obligations.RepeatedCommandsAreIdempotent
  intro i s t hexec hcommand hsession
  rcases hcommand with rfl | rfl | rfl | ⟨pt, c, rate, rfl⟩ | ⟨pt, ts, payload, rfl, f, hf, hts⟩
  case inl | inr.inl | inr.inr.inl =>
    cases hexec
    rfl
  case inr.inr.inr.inl =>
    rw [exec_cfgCodec_codecId] at hexec ⊢
    cases hexec
    rw [acceptCodec_idem]
  case inr.inr.inr.inr =>
    have hs : s.sessionCodec ≠ none := hsession.resolve_right fun hnot => hnot pt ts payload rfl
    rw [exec_rtpIn_of_session hs] at hexec
    obtain ⟨_, _, _, _, _, hwrites, -⟩ := jbInsertFrame_writes ⟨pt, payload, ts⟩ s
    have ht : t.sessionCodec ≠ none := by
      cases hexec
      rwa [hwrites]
    rw [exec_rtpIn_of_session ht, jbInsertFrame_of_stored hf hts]

end Sys2Proof.Laws
end

section
/-! Settles O1, O2, O3, O5 and O9: the byte form of commands, both ways, and what a step makes of it
(30_encoding.md R121 to R130, R154). -/

namespace Sys2Proof.Laws

open Sys2Proof.Machine

/-! ## From a command to its bytes (R121 to R127, R154) -/

/-- Settles O1: the command is read back from its own header and body. -/
theorem decodeInvertsEncode : Obligations.DecodeInvertsEncode := by
  unfold Obligations.DecodeInvertsEncode
  exact fun i rest hi => decode_encode_append hi rest

theorem decode_encode {i : Instr} (hi : WellFormed i) : decode (encode i) = .command i (encode i).length := by
  simpa using decode_encode_append hi []

/-- Settles O9: every example is the encoding of its command. -/
theorem encodedExamplesDecode : Obligations.EncodedExamplesDecode := by
  unfold Obligations.EncodedExamplesDecode
  have hpayload (b0 b1 : Byte) : [b0, b1].length ≤ maxPayload := Nat.le_of_ble_eq_true rfl
  exact ⟨decode_encode (i := .cfgCodec 0 1 8000) trivial, decode_encode (i := .cfgCodec 8 2 8000) trivial,
    decode_encode (i := .cfgCodec 9 3 16000) trivial, decode_encode (i := .cfgCodec 111 4 48000) trivial,
    decode_encode (i := .rtpIn 0 160 [0xFF, 0xFF]) (hpayload _ _), decode_encode (i := .ingPull) trivial,
    decode_encode (i := .egrEnq [0x10, 0x27]) (hpayload _ _), decode_encode (i := .egrTick) trivial,
    decode_encode (i := .fadeReset) trivial, decode_encode (i := .egrClear) trivial,
    decode_encode (i := .callReset) trivial⟩

/-! ## Headers that are not malformed (R128) -/

theorem malformation_eq_none_iff (h : Header) :
    malformation h = none ↔
      isReserved h.op = false ∧ (isF0 h.op = true ∨ h.op = 0x04#8 → h.arg8 = 0#8)
        ∧ (isF0 h.op = true ∨ h.op = 0x01#8 → h.len = 0#16) := by
  unfold malformation
  split
  case isTrue hreserved => simp [hreserved]
  case isFalse hreserved =>
    split
    case isTrue harg => simp_all
    case isFalse harg =>
      split
      case isTrue hlen => simp_all
      case isFalse hlen => simp_all

/-- R128's list, row by row. -/
def IsMalformed (h : Header) : Prop :=
  h.op = 0x00#8 ∨ 9 ≤ h.op.toNat
    ∨ (h.op ∈ [0x03#8, 0x05#8, 0x06#8, 0x07#8, 0x08#8] ∧ (h.arg8 ≠ 0#8 ∨ h.len ≠ 0#16))
    ∨ (h.op = 0x01#8 ∧ h.len ≠ 0#16) ∨ (h.op = 0x04#8 ∧ h.arg8 ≠ 0#8)

theorem isF0_iff (op : Byte) : isF0 op = true ↔ op ∈ [0x03#8, 0x05#8, 0x06#8, 0x07#8, 0x08#8] := by
  simp [isF0, or_assoc]

theorem isReserved_iff (op : Byte) : isReserved op = true ↔ op = 0x00#8 ∨ 9 ≤ op.toNat := by
  simp [isReserved, BitVec.le_def]

theorem malformation_eq_none_iff_not_isMalformed (h : Header) : malformation h = none ↔ ¬IsMalformed h := by
  rw [malformation_eq_none_iff, IsMalformed, ← or_assoc, ← isReserved_iff, ← isF0_iff]
  simp only [← Bool.not_eq_true]
  tauto

/-- A header that is not malformed has the opcode of a command (R123). -/
theorem exists_readCommand {h : Header} (hvalid : malformation h = none) (body : List Byte) :
    ∃ i, readCommand h body = some i := by
  obtain ⟨hreserved, -⟩ := (malformation_eq_none_iff h).mp hvalid
  rw [← Bool.not_eq_true, isReserved_iff, ← BitVec.toNat_inj, BitVec.toNat_zero, not_or] at hreserved
  obtain ⟨hne, hlt⟩ := hreserved
  have hpos : 0 < h.op.toNat := Nat.pos_of_ne_zero hne
  unfold readCommand
  generalize h.op.toNat = n at hpos hlt
  interval_cases n <;> exact ⟨_, rfl⟩

/-! ## From the bytes of a command to its encoding (R129) -/

theorem bytes32_argument (w : U32) : bytes32 (w.extractLsb' 8 24 ++ w.extractLsb' 0 8) = bytes32 w := by
  exact congrArg bytes32 BitVec.extractLsb'_append_extractLsb'

theorem ofNat_length_of_eq {payload : List Byte} {len : BitVec 16} (h : payload.length = len.toNat) :
    BitVec.ofNat 16 payload.length = len := by
  rw [h, BitVec.ofNat_toNat, BitVec.setWidth_eq]

/-- A body with an argument word is that word's bytes and the payload's, as many as `len` says (R129). -/
theorem splitArg_of_argSize {h : Header} {body : List Byte} (harg : argSize h.op = 4)
    (hlen : body.length = bodySize h) :
    bytes32 (splitArg body).1 ++ (splitArg body).2 = body ∧ (splitArg body).2.length = h.len.toNat := by
  rw [bodySize, harg] at hlen
  have hbody := bytes32_splitArg (body := body) (by omega)
  have hlength := congrArg List.length hbody
  rw [List.length_append, bytes32_length] at hlength
  exact ⟨hbody, by omega⟩

/-- A header that is not malformed and its body are the encoding of the command read from them. -/
theorem encode_readCommand {h : Header} {body : List Byte} {i : Instr} (hvalid : malformation h = none)
    (hlen : body.length = bodySize h) (hread : readCommand h body = some i) :
    encode i = headerBytes h ++ body := by
  obtain ⟨-, harg8, hlenField⟩ := (malformation_eq_none_iff h).mp hvalid
  obtain ⟨op, arg8, len⟩ := h
  unfold readCommand at hread
  split at hread <;> cases hread <;> rename_i hop <;> dsimp only at hop <;>
    obtain ⟨-, rfl⟩ := BitVec.toNat_eq_nat.mp hop
  case h_1 =>
    obtain ⟨hbody, hpayload⟩ := splitArg_of_argSize rfl hlen
    obtain rfl : len = 0#16 := hlenField (.inr rfl)
    rw [List.eq_nil_of_length_eq_zero hpayload, List.append_nil] at hbody
    rw [encode, bytes32_argument, hbody]
  case h_2 =>
    obtain ⟨hbody, hpayload⟩ := splitArg_of_argSize rfl hlen
    rw [← hpayload, List.take_length, encode, ofNat_length_of_eq hpayload, List.append_assoc, hbody]
  case h_4 =>
    obtain rfl : arg8 = 0#8 := harg8 (.inr rfl)
    have hpayload : body.length = len.toNat := hlen.trans (Nat.zero_add _)
    rw [← hpayload, List.take_length, encode, ofNat_length_of_eq hpayload]
  all_goals
    obtain rfl : arg8 = 0#8 := harg8 (.inl rfl)
    obtain rfl : len = 0#16 := hlenField (.inl rfl)
    rw [List.eq_nil_of_length_eq_zero hlen, List.append_nil, encode]

/-- A header that is not malformed and a body of its size are the encoding of a command (R129). -/
theorem exists_encoding {h : Header} {body : List Byte} (hvalid : malformation h = none)
    (hlen : body.length = bodySize h) : ∃ i, WellFormed i ∧ encode i = headerBytes h ++ body := by
  obtain ⟨i, hread⟩ := exists_readCommand hvalid body
  exact ⟨i, wellFormed_of_readCommand hread, encode_readCommand hvalid hlen hread⟩

theorem malformation_of_command {h : Header} {body rest : List Byte} {i : Instr} {n : Nat}
    (hlen : body.length = bodySize h) (hdecode : decode (headerBytes h ++ body ++ rest) = .command i n) :
    malformation h = none := by
  rw [decode_whole h body rest hlen] at hdecode
  split at hdecode
  · cases hdecode
  · assumption
  · cases hdecode

/-- Settles O2: the stream begins with a header that is not malformed and its body, so with an encoding, and
the decoder inverts that. -/
theorem encodeInvertsDecode : Obligations.EncodeInvertsDecode := by
  unfold Obligations.EncodeInvertsDecode
  intro stream i n hdecode
  obtain ⟨h, body, rest, rfl, hlen⟩ := decode_complete (stream := stream) (by simp [hdecode])
  obtain ⟨j, hwf, hencode⟩ := exists_encoding (malformation_of_command hlen hdecode) hlen
  rw [← hencode, decode_encode_append hwf] at hdecode
  cases hdecode
  rw [← hencode]
  exact ⟨hwf, List.length_append ▸ Nat.le_add_right .., List.take_left.symm⟩

/-! ## A step on whole commands and on parts of one (R128 to R130) -/

/-- Settles O3: the bytes are a command's encoding, which the step executes. -/
theorem completeCommandIsExecuted : Obligations.CompleteCommandIsExecuted := by
  unfold Obligations.CompleteCommandIsExecuted
  intro s op arg8 len body rest hinput hlen hvalid
  obtain ⟨i, hwf, hencode⟩ :=
    exists_encoding ((malformation_eq_none_iff_not_isMalformed ⟨op, arg8, len⟩).mpr hvalid) hlen
  have hstream : s.input = encode i ++ rest := hinput.trans (congrArg (· ++ rest) hencode.symm)
  refine ⟨i, hwf, hencode, ?_⟩
  have hstep := step_encode hwf rest s
  rwa [← hstream] at hstep

theorem step_of_incomplete {s : State} (h : decode s.input = .incomplete) : step s = .next s := by
  simp only [step, fetch, h]

theorem decode_of_short {stream : List Byte} (h : stream.length < 4) : decode stream = .incomplete := by
  simp only [decode, splitHeader_none.mpr h]

theorem decode_of_partBody {h : Header} {body : List Byte} (hshort : body.length < bodySize h) :
    decode (headerBytes h ++ body) = .incomplete := by
  have hpart : ¬hasAtLeast (bodySize h) body = true := by
    rw [hasAtLeast_iff]
    exact Nat.not_le_of_lt hshort
  simp only [decode, splitHeader_headerBytes]
  exact if_neg hpart

/-- Settles O5: the stream ends in the header or in the body. -/
theorem incompleteCommandWaits : Obligations.IncompleteCommandWaits := by
  unfold Obligations.IncompleteCommandWaits
  refine fun s => ⟨fun hshort => step_of_incomplete (decode_of_short hshort), ?_⟩
  intro op arg8 len body hinput hshort
  have hpart : decode (headerBytes ⟨op, arg8, len⟩ ++ body) = .incomplete := decode_of_partBody hshort
  exact step_of_incomplete (hinput ▸ hpart)

end Sys2Proof.Laws
end

section
/-! Settles O11: events are read back from their byte form (30_encoding.md R140 to R148). -/

namespace Sys2Proof.Laws

open Sys2Proof.Machine

/-! ## The fields of an event -/

/-- The warning of a code (R146). -/
def warningOfNumber (n : Byte) : Option WarningCode :=
  match n.toNat with
  | 1 => some .malformedLength
  | 2 => some .unsupportedPt
  | 3 => some .opusDecodeFail
  | 4 => some .opusEncodeFail
  | 5 => some .badCommand
  | 6 => some .noCodec
  | 7 => some .jbOverflow
  | _ => none

@[simp] theorem warningOfNumber_warningNumber (c : WarningCode) : warningOfNumber (warningNumber c) = some c := by
  cases c <;> rfl

/-- The direction of a field (R141). -/
def directionOfNumber (n : Byte) : Option Direction :=
  match n.toNat with
  | 1 => some .decoder
  | 2 => some .encoder
  | _ => none

@[simp] theorem directionOfNumber_directionNumber (d : Direction) :
    directionOfNumber (directionNumber d) = some d := by
  cases d <;> rfl

@[simp] theorem pcmBytes_length (samples : Frame) : (pcmBytes samples).length = 2 * samples.length := by
  induction samples with
  | nil => rfl
  | cons x xs ih =>
    have hcons : (pcmBytes (x :: xs)).length = 2 + (pcmBytes xs).length := by
      simp [pcmBytes]
    rw [hcons, ih, List.length_cons]
    omega

@[simp] theorem pcmSamples_pcmBytes (samples : Frame) : pcmSamples (pcmBytes samples) = samples := by
  induction samples with
  | nil => rfl
  | cons x xs ih => exact congrArg₂ List.cons (word16_bytes x) ih

/-! ## Reading an event -/

/-- The event of a header and the bytes behind it, and what is left of them (R140, R141). -/
def readEventBody (h : Header) (body : List Byte) : Option (Event × List Byte) :=
  let len := h.len.toNat
  let arg := splitArg body
  match h.op.toNat with
  | 0x81 => some (.pcmFrameReady (pcmSamples (body.take len)), body.drop len)
  | 0x82 => (codecOfId h.arg8).map fun c => (.encFrameReady c arg.1 (arg.2.take len), arg.2.drop len)
  | 0x83 => some (.queueDrained, body)
  | 0x84 => (warningOfNumber h.arg8).map fun c => (.warning c arg.1, arg.2)
  | 0x85 => (directionOfNumber h.arg8).map fun d => (.callError d arg.1, arg.2)
  | 0x86 => some (.jbResync arg.1 (splitArg arg.2).1, (splitArg arg.2).2)
  | _ => none

/-- The event at the front of a byte stream and the bytes after it: the inverse of `encodeEvent`. -/
def readEvent (stream : List Byte) : Option (Event × List Byte) :=
  (splitHeader stream).bind fun r => readEventBody r.1 r.2

theorem readEvent_headerBytes (h : Header) (body : List Byte) :
    readEvent (headerBytes h ++ body) = readEventBody h body := by
  rw [readEvent, splitHeader_headerBytes, Option.bind_some]

/-- An event is read back from its bytes, whatever follows them. -/
theorem readEvent_encodeEvent {e : Event} (he : EventFits e) (rest : List Byte) :
    readEvent (encodeEvent e ++ rest) = some (e, rest) := by
  cases e with
  | pcmFrameReady samples =>
    have hlen : (BitVec.ofNat 16 (2 * samples.length)).toNat = (pcmBytes samples).length := by
      rw [pcmBytes_length]
      exact Nat.mod_eq_of_lt (Nat.lt_succ_of_le he)
    rw [encodeEvent, List.append_assoc, readEvent_headerBytes]
    simp [readEventBody, hlen]
  | encFrameReady codec duration payload =>
    rw [encodeEvent, List.append_assoc, List.append_assoc, readEvent_headerBytes]
    simp [readEventBody, splitArg_bytes32, lenField_toNat he]
  | queueDrained => rw [encodeEvent, readEvent_headerBytes]; rfl
  | warning code info =>
    rw [encodeEvent, List.append_assoc, readEvent_headerBytes]
    simp [readEventBody, splitArg_bytes32]
  | callError direction count =>
    rw [encodeEvent, List.append_assoc, readEvent_headerBytes]
    simp [readEventBody, splitArg_bytes32]
  | jbResync old new =>
    rw [encodeEvent, List.append_assoc, List.append_assoc, readEvent_headerBytes]
    simp [readEventBody, splitArg_bytes32]

theorem encodeEvents_cons (e : Event) (es : List Event) :
    encodeEvents (e :: es) = encodeEvent e ++ encodeEvents es := List.flatMap_cons

/-- The first event of a stream's byte form is read back, with the byte form of the rest. -/
theorem readEvent_encodeEvents_cons {e : Event} (he : EventFits e) (es : List Event) :
    readEvent (encodeEvents (e :: es)) = some (e, encodeEvents es) := by
  rw [encodeEvents_cons, readEvent_encodeEvent he]

theorem readEvent_encodeEvents_nil : readEvent (encodeEvents []) = none := rfl

/-- Settles O11, event by event: the first events of the two streams are read from the same bytes. -/
theorem eventBytesDetermineTheEvents : Obligations.EventBytesDetermineTheEvents := by
  unfold Obligations.EventBytesDetermineTheEvents
  intro es fs hes hfs hbytes
  induction es generalizing fs with
  | nil =>
    cases fs with
    | nil => rfl
    | cons f fs =>
      have hread := readEvent_encodeEvents_cons (hfs f (List.mem_cons_self ..)) fs
      rw [← hbytes, readEvent_encodeEvents_nil] at hread
      cases hread
  | cons e es ih =>
    obtain ⟨he, hes⟩ := List.forall_mem_cons.mp hes
    have hread := readEvent_encodeEvents_cons he es
    cases fs with
    | nil =>
      rw [hbytes, readEvent_encodeEvents_nil] at hread
      cases hread
    | cons f fs =>
      obtain ⟨hf, hfs⟩ := List.forall_mem_cons.mp hfs
      rw [hbytes, readEvent_encodeEvents_cons hf] at hread
      injection hread with hpair
      injection hpair with hevent hrest
      rw [hevent, ih fs hes hfs hrest.symm]

end Sys2Proof.Laws
end

section
/-! Settles O33: what a tick with a codec and a free lock sends (46_playout.md R465 to R473). -/

namespace Sys2Proof.Laws

open Sys2Proof.Machine

/-! ## The emission of one frame (R472) -/

/-- What the emission of a whole frame adds to the events: the encoded frame (R144), or the reports of an
Opus failure (R284). -/
def FrameOrReports (c : Codec) (sent : List Event) : Prop :=
  (∃ payload, sent = [.encFrameReady c (rtpIncrement c) payload]
    ∧ 1 ≤ payload.length ∧ payload.length ≤ 65535 ∧ (c ≠ .opus → payload.length = 160))
  ∨ (c = .opus ∧ ∃ n, sent = [.warning .opusEncodeFail n]
    ∨ sent = [.warning .opusEncodeFail n, .callError .encoder n])

/-- From `s` to `t` one frame of the codec is sent, and the encoder states of the other codecs are kept. -/
structure SendsFrame (c : Codec) (s t : State) : Prop where
  events : ∃ sent, FrameOrReports c sent ∧ t.events = s.events ++ sent
  g722Enc : c ≠ .g722 → t.g722Enc = s.g722Enc
  opusEnc : c ≠ .opus → t.opusEnc = s.opusEnc ∧ t.opusEncFail = s.opusEncFail

theorem frameOrReports_fixed {c : Codec} {payload : List Byte} (h : payload.length = 160) :
    FrameOrReports c [.encFrameReady c (rtpIncrement c) payload] :=
  .inl ⟨payload, rfl, by omega, by omega, fun _ => h⟩

/-- A packet of the library has 1 to 65535 bytes (R280). -/
theorem opusEncode_ok_length {st st' : OpusEncState} {f : Frame} {payload : List Byte}
    (h : opusEncode st f = (st', .ok payload)) : 1 ≤ payload.length ∧ payload.length ≤ 65535 := by
  unfold opusEncode at h
  generalize (Config.opusEncode st f).2 = answer at h
  cases answer with
  | none => cases h
  | some packet =>
    cases h
    simp only [List.length_cons, List.length_take]
    omega

/-- The events of an Opus failure: the warning, and the error when the count becomes the limit (R284). -/
theorem opusEncodeFail_reports (s : State) :
    ∃ sent, FrameOrReports .opus sent ∧ (opusEncodeFail s).events = s.events ++ sent := by
  unfold opusEncodeFail callErrorAt
  dsimp only
  split
  · exact ⟨_, .inr ⟨rfl, satInc s.opusEncFail, .inr rfl⟩, List.append_assoc ..⟩
  · exact ⟨_, .inr ⟨rfl, satInc s.opusEncFail, .inl rfl⟩, rfl⟩

theorem opusEncodeFail_g722Enc (s : State) : (opusEncodeFail s).g722Enc = s.g722Enc := by
  unfold opusEncodeFail callErrorAt
  dsimp only
  split <;> rfl

/-- A whole frame of a codec is sent as one event of its codec, or reported as failed. -/
theorem emitEncoded_sends {c : Codec} {f : Frame} (hf : f.length = egressLen c) (real : Bool) (s : State) :
    SendsFrame c s (emitEncoded c f real s) := by
  cases c with
  | pcmu | pcma =>
    exact ⟨⟨_, frameOrReports_fixed ((List.length_map _).trans hf), rfl⟩, fun _ => rfl, fun _ => ⟨rfl, rfl⟩⟩
  | g722 =>
    have hlen : (g722Encode s.g722Enc f).1.length = 160 := by
      rw [g722Encode_length, hf]
      rfl
    exact ⟨⟨_, frameOrReports_fixed hlen, rfl⟩, fun hc => absurd rfl hc, fun _ => ⟨rfl, rfl⟩⟩
  | opus =>
    rw [emitEncoded_eq, encodeFrame, opusEncodeStage]
    dsimp only
    generalize hr : opusEncode s.opusEnc f = r
    obtain ⟨st, answer⟩ := r
    cases answer with
    | ok payload =>
      obtain ⟨hlow, hhigh⟩ := opusEncode_ok_length hr
      exact ⟨⟨_, .inl ⟨payload, rfl, hlow, hhigh, fun hc => absurd rfl hc⟩, rfl⟩, fun _ => rfl,
        fun hc => absurd rfl hc⟩
    | fail =>
      exact ⟨opusEncodeFail_reports _, fun _ => opusEncodeFail_g722Enc _, fun hc => absurd rfl hc⟩

/-! ## The tick (R465 to R471) -/

@[simp] theorem convert_length (p : Params) (inp : Frame) (src dst : Rate) (rs : ResamplerState) (n : Nat) :
    (convert p inp src dst rs n).1.length = n := by
  unfold convert
  split <;> simp

theorem silentTick_sendsFrame (c : Codec) (s : State) : SendsFrame c s (silentTick c s) :=
  emitEncoded_sends (rampedSilence_length ..) false s

theorem steadyTick_sendsFrame (c : Codec) (f : Frame) (rest : List Frame) (s : State) :
    SendsFrame c s (steadyTick c f rest s) := by
  obtain ⟨hevents, hg722, hopus⟩ := emitEncoded_sends (c := c)
    ((egressDsp_length ..).trans (convert_length ..)) true _
  exact ⟨hevents, hg722, hopus⟩

/-- From `s` to `t` nothing is sent but at most the notification that the queue is empty. -/
structure MayNotify (s t : State) : Prop where
  events : ∃ drained, (drained = [] ∨ drained = [.queueDrained]) ∧ t.events = s.events ++ drained
  g722Enc : t.g722Enc = s.g722Enc
  opusEnc : t.opusEnc = s.opusEnc
  opusEncFail : t.opusEncFail = s.opusEncFail

theorem MayNotify.refl (s : State) : MayNotify s s :=
  ⟨⟨[], .inl rfl, (List.append_nil _).symm⟩, rfl, rfl, rfl⟩

theorem noteDrained_mayNotify (before : U32) (s : State) : MayNotify s (noteDrained before s) := by
  have hprimed (t : State) (ht : MayNotify s t) : MayNotify s
      (if t.params.jitterPrimingMode ∧ t.params.underrunInterp < t.underrunCount.toNat then
        { t with primed := false } else t) := by
    split
    · exact ⟨ht.events, ht.g722Enc, ht.opusEnc, ht.opusEncFail⟩
    · exact ht
  unfold noteDrained
  refine hprimed _ ?_
  split
  · exact ⟨⟨_, .inr rfl, rfl⟩, rfl, rfl, rfl⟩
  · exact MayNotify.refl s

/-- From `s` to `t` one whole frame is sent, and behind it at most the notification. -/
def SendsThenMayNotify (c : Codec) (s t : State) : Prop := ∃ u, SendsFrame c s u ∧ MayNotify u t

theorem underrunTick_sendsThen (c : Codec) (s : State) : SendsThenMayNotify c s (underrunTick c s) := by
  unfold underrunTick
  dsimp only
  split
  case isTrue hinterpolates =>
    simp only [interpolates, Bool.and_eq_true, decide_eq_true_eq] at hinterpolates
    obtain ⟨hevents, hg722, hopus⟩ := emitEncoded_sends (c := c)
      ((interpolatedFrame_length s.params (satInc s.underrunCount) s.edsp.lastFullFrame).trans hinterpolates.2)
      false { s with underrunCount := satInc s.underrunCount }
    exact ⟨_, ⟨hevents, hg722, hopus⟩, MayNotify.refl _⟩
  case isFalse =>
    obtain ⟨hevents, hg722, hopus⟩ :=
      silentTick_sendsFrame c { s with underrunCount := satInc s.underrunCount }
    exact ⟨_, ⟨hevents, hg722, hopus⟩, noteDrained_mayNotify _ _⟩

theorem playTick_sendsThen (c : Codec) (s : State) : SendsThenMayNotify c s (playTick c s) := by
  unfold playTick
  cases s.queue with
  | nil => exact underrunTick_sendsThen c s
  | cons f rest => exact ⟨_, steadyTick_sendsFrame c f rest s, MayNotify.refl _⟩

theorem tickBody_sendsThen (c : Codec) (s : State) : SendsThenMayNotify c s (tickBody c s) := by
  unfold tickBody
  split
  · exact playTick_sendsThen c s
  · split
    · obtain ⟨u, ⟨hevents, hg722, hopus⟩, hnotify⟩ := playTick_sendsThen c { s with primed := true }
      exact ⟨u, ⟨hevents, hg722, hopus⟩, hnotify⟩
    · exact ⟨_, silentTick_sendsFrame c s, MayNotify.refl _⟩

/-- Settles O33: the lock, taken and given back, is no part of what the tick sends. -/
theorem tickSendsOneWholeFrame : Obligations.TickSendsOneWholeFrame := by
  unfold Obligations.TickSendsOneWholeFrame
  intro s c hfree hsession
  obtain ⟨u, ⟨⟨sent, hsent, hu⟩, hg722, hopus⟩, ⟨drained, hdrained, ht⟩, hg722', hopusEnc, hopusFail⟩ :=
    tickBody_sendsThen c { s with tickBusy := true }
  have hexec : exec .egrTick s =
      .next { tickBody c { s with tickBusy := true } with tickBusy := false } := by
    rw [exec, execEgrTick, tick_of_session hsession, hfree]
    rfl
  refine ⟨_, sent, drained, hexec, ht.trans (congrArg (· ++ drained) hu), hdrained, hsent,
    fun hc => hg722'.trans (hg722 hc), fun hc => ?_⟩
  obtain ⟨henc, hfail⟩ := hopus hc
  exact ⟨hopusEnc.trans henc, hopusFail.trans hfail⟩

end Sys2Proof.Laws
end

section
/-! Settles O44: a pull and the egress side (40_commands.md R203; 41_codecs.md R286). -/

namespace Sys2Proof.Laws

open Sys2Proof.Machine

/-! ## The ingress side beside other elements -/

/-- The ingress side of `s` beside the other elements of `u`, the events of `s` behind those of `u`. -/
def beside (u s : State) : State :=
  { s with
    input := u.input, g722Enc := u.g722Enc, opusEnc := u.opusEnc, opusEncFail := u.opusEncFail
    ers := u.ers, queue := u.queue, primed := u.primed, underrunCount := u.underrunCount
    tickBusy := u.tickBusy, edsp := u.edsp, events := u.events ++ s.events }

@[simp] theorem beside_params (u s : State) : (beside u s).params = s.params := rfl
@[simp] theorem beside_codecMap (u s : State) : (beside u s).codecMap = s.codecMap := rfl
@[simp] theorem beside_sessionCodec (u s : State) : (beside u s).sessionCodec = s.sessionCodec := rfl
@[simp] theorem beside_jbMap (u s : State) : (beside u s).jbMap = s.jbMap := rfl
@[simp] theorem beside_nextExpected (u s : State) : (beside u s).nextExpected = s.nextExpected := rfl
@[simp] theorem beside_isSynchronized (u s : State) : (beside u s).isSynchronized = s.isSynchronized := rfl
@[simp] theorem beside_everSynced (u s : State) : (beside u s).everSynced = s.everSynced := rfl
@[simp] theorem beside_events (u s : State) : (beside u s).events = u.events ++ s.events := rfl

theorem sameIngress_beside (u v s : State) : SameIngress (beside u s) (beside v s) := by
  constructor <;> rfl

/-- Of two states that agree on the ingress side, the one is the other's ingress side beside its own rest. -/
theorem beside_of_sameIngress {s t : State} (h : SameIngress s t) : beside t { s with events := [] } = t := by
  obtain ⟨hparams, hmap, hsession, hjb, hnext, hsync, hever, hmissing, hlast, hrate, hg722, hopus, hfail, hidsp,
    hirs⟩ := h
  simp only [beside, hparams, hmap, hsession, hjb, hnext, hsync, hever, hmissing, hlast, hrate, hg722, hopus,
    hfail, hidsp, hirs, List.append_nil]

/-! `Prod.map id`: a stage that answers a value with the state answers the same value. -/

section
variable (u s : State)

theorem emit_beside (e : Event) : emit e (beside u s) = beside u (emit e s) :=
  congrArg (fun events => { beside u s with events := events }) (List.append_assoc ..)

/-! ## The jitter buffer's pull (R425 to R429) -/

theorem resync_beside (nx inc : U32) :
    resync nx inc (beside u s) = Prod.map id (beside u) (resync nx inc s) := by
  simp only [resync, beside_everSynced, beside_nextExpected, beside_jbMap]
  cases lowest s.everSynced s.nextExpected s.jbMap with
  | none => rfl
  | some k =>
    dsimp only
    cases jbLookup k s.jbMap with
    | none => rfl
    | some f => exact congrArg (fun t => (PullResult.frame f, drain k inc t)) (emit_beside u s _)

theorem pullMissing_beside (nx inc : U32) :
    pullMissing nx inc (beside u s) = Prod.map id (beside u) (pullMissing nx inc s) := by
  have hresync := resync_beside u { s with missingCount := satInc s.missingCount } nx inc
  simp only [pullMissing, beyondPlc, apply_ite (Prod.map id (beside u)), ← hresync]
  rfl

theorem jbPull_beside (inc : U32) : jbPull inc (beside u s) = Prod.map id (beside u) (jbPull inc s) := by
  simp only [jbPull, beside_isSynchronized, beside_nextExpected, beside_jbMap, pullMissing_beside,
    apply_ite (Prod.map id (beside u))]
  cases jbLookup s.nextExpected s.jbMap <;> rfl

/-! ## The decode stage (R211, R281, R282) -/

theorem checkLength_beside (f : RtpFrame) : checkLength f (beside u s) = beside u (checkLength f s) := by
  simp only [checkLength, apply_ite (beside u), raiseWarning, emit_beside]

theorem callErrorAt_beside (direction : Direction) (before after : U32) :
    callErrorAt direction before after (beside u s) = beside u (callErrorAt direction before after s) := by
  simp only [callErrorAt, apply_ite (beside u), beside_params, emit_beside]

theorem opusDecodeAnswer_beside (r : OpusDecResult) :
    opusDecodeAnswer r (beside u s) = Prod.map id (beside u) (opusDecodeAnswer r s) := by
  cases r with
  | fail =>
    have hwarning := emit_beside u { s with opusDecFail := satInc s.opusDecFail }
      (.warning .opusDecodeFail (satInc s.opusDecFail))
    have herror := callErrorAt_beside u
      (raiseWarning .opusDecodeFail (satInc s.opusDecFail) { s with opusDecFail := satInc s.opusDecFail })
      .decoder s.opusDecFail (satInc s.opusDecFail)
    exact congrArg (Prod.mk (zeros 960))
      ((congrArg (callErrorAt .decoder s.opusDecFail (satInc s.opusDecFail)) hwarning).trans herror)
  | ok samples stereo => rfl

theorem decodeRtp_beside (session : Codec) (f : RtpFrame) :
    decodeRtp session f (beside u s) = Prod.map id (beside u) (decodeRtp session f s) := by
  have hlength := checkLength_beside u s f
  simp only [decodeRtp, beside_codecMap]
  cases codecAt f.payloadType s.codecMap with
  | none => exact congrArg (Prod.mk _) (emit_beside ..)
  | some c =>
    cases c with
    | pcmu | pcma => exact congrArg (Prod.mk _) hlength
    | g722 =>
      dsimp only
      rw [hlength]
      rfl
    | opus =>
      have hanswer := opusDecodeAnswer_beside u { s with opusDec := (opusDecode s.opusDec f.payload).1 }
        (opusDecode s.opusDec f.payload).2
      exact congrArg (fun r => ((r.1, Rate.r48000), r.2)) hanswer

/-! ## The pull (R203) -/

theorem outputPcm_beside (pcm : Frame) (rate : Rate) :
    outputPcm pcm rate (beside u s) = beside u (outputPcm pcm rate s) :=
  emit_beside u { s with lastDecoded := pcm, lastDecodedRate := rate, idsp := _, irs := _ } _

theorem finishPull_beside (session : Codec) (r : PullResult) :
    finishPull session r (beside u s) = beside u (finishPull session r s) := by
  cases r with
  | nothing => rfl
  | frame f =>
    simp only [finishPull, decodeRtp_beside]
    exact outputPcm_beside ..
  | conceal => exact outputPcm_beside ..

/-- A pull neither reads nor writes what stands beside the ingress side. -/
theorem pull_beside : pull (beside u s) = beside u (pull s) := by
  simp only [pull, beside_sessionCodec, jbPull_beside]
  cases s.sessionCodec with
  | none => rfl
  | some c => exact finishPull_beside ..

end

theorem pull_of_sameIngress {s t : State} (h : SameIngress s t) :
    pull t = beside t (pull { s with events := [] }) := by
  rw [← pull_beside, beside_of_sameIngress h]

theorem sameEgress_pull (s : State) : SameEgress s (pull s) := by
  obtain ⟨_, _, _, _, _, _, _, _, _, _, _, _, hwrites, -⟩ := pull_writes s
  rw [hwrites]
  constructor <;> rfl

/-- Settles O44: both pulls are that of the shared ingress side, beside the rest of their own state. -/
theorem pullIgnoresTheEgressSide : Obligations.PullIgnoresTheEgressSide := by
  unfold Obligations.PullIgnoresTheEgressSide
  intro s t h
  have hs : SameIngress s s := by constructor <;> rfl
  have hpullS := pull_of_sameIngress hs
  have hpullT := pull_of_sameIngress h
  refine ⟨pull s, pull t, (pull { s with events := [] }).events, rfl, rfl, ?_, sameEgress_pull s, ?_, ?_⟩
  · rw [hpullS, hpullT]
    exact sameIngress_beside ..
  · rw [hpullS, beside_events]
  · rw [hpullT, beside_events]

end Sys2Proof.Laws
end

section
/-! Settles O4: malformed commands (30_encoding.md R128, R129; 40_commands.md R209). -/

namespace Sys2Proof.Laws

open Sys2Proof.Machine

theorem decode_malformed {h : Header} {body : List Byte} (hmalformed : IsMalformed h)
    (hlen : body.length = bodySize h) (rest : List Byte) :
    ∃ why, decode (headerBytes h ++ body ++ rest) = .malformed why (headerWord h) (commandSize h) := by
  rw [decode_whole h body rest hlen]
  cases hwhy : malformation h with
  | none => exact absurd hmalformed ((malformation_eq_none_iff_not_isMalformed h).mp hwhy)
  | some why => exact ⟨why, rfl⟩

theorem step_of_malformed {s : State} {why : Malformation} {hdr : U32} {size : Nat}
    (h : decode s.input = .malformed why hdr size) :
    step s = .next { s with
      input := s.input.drop size, events := s.events ++ [.warning .badCommand hdr] } := by
  simp only [step, fetch, h]
  rfl

/-- Settles O4: the header is malformed and its bytes are all there, so the step takes them. -/
theorem malformedCommandIsReportedAndSkipped : Obligations.MalformedCommandIsReportedAndSkipped := by
  unfold Obligations.MalformedCommandIsReportedAndSkipped
  intro s op arg8 len body rest hinput hlen hmalformed
  obtain ⟨why, hdecode⟩ := decode_malformed (h := ⟨op, arg8, len⟩) hmalformed hlen rest
  have hsize : (headerBytes ⟨op, arg8, len⟩ ++ body).length = commandSize ⟨op, arg8, len⟩ := by
    rw [List.length_append, headerBytes_length, hlen, commandSize, bodySize, argSize]
  have hrest : s.input.drop (commandSize ⟨op, arg8, len⟩) = rest := by
    rw [hinput, ← hsize]
    exact List.drop_left
  rw [step_of_malformed (hinput ▸ hdecode), hrest]
  rfl

end Sys2Proof.Laws
end

section
/-! Settles O13, O14 and O34: the configuration, the arrival of a frame and the two commands that write one
element (40_commands.md R201, R202, R206, R207; 45_jitter_buffer.md R423). -/

namespace Sys2Proof.Laws

open Sys2Proof.Machine

/-! ## CFG_CODEC (R201) -/

theorem codecOfId_eq_none {id : Byte} (h : id.toNat = 0 ∨ 5 ≤ id.toNat) : codecOfId id = none := by
  unfold codecOfId
  split
  case h_5 => rfl
  all_goals omega

/-- Settles O13: a legal id is accepted, any other refused. -/
theorem cfgCodecMapsThePayloadType : Obligations.CfgCodecMapsThePayloadType := by
  unfold Obligations.CfgCodecMapsThePayloadType
  intro pt codec rate s
  constructor
  · rintro c rfl
    exact ⟨mapCodec pt c s.codecMap, exec_cfgCodec_codecId pt c rate s, codecAt_mapCodec_same ..,
      fun q hq => codecAt_mapCodec_other hq ..⟩
  · intro hillegal
    simp only [exec, execCfgCodec, codecOfId_eq_none hillegal]
    rfl

/-! ## RTP_IN (R202, R423) -/

theorem exec_rtpIn_without_session {s : State} (h : s.sessionCodec = none) (pt : Byte) (ts : U32)
    (payload : List Byte) : exec (.rtpIn pt ts payload) s = .next (raiseWarning .noCodec ts s) := by
  simp only [exec, execRtpIn, h]

/-- A frame is late once synchronised, and at half the timestamp space or more past the expected one (R421,
R423). -/
theorem isLate_iff (ts : U32) (s : State) :
    isLate ts s = true ↔ s.everSynced = true ∧ 2 ^ 31 ≤ (ts - s.nextExpected).toNat := by
  simp only [isLate, serialBefore, Bool.and_eq_true, decide_eq_true_eq]

theorem jbHasKey_iff (ts : U32) (m : List RtpFrame) : jbHasKey ts m = true ↔ ∃ f ∈ m, f.rtpTimestamp = ts := by
  rw [jbHasKey, Option.isSome_iff_ne_none, Ne, jbLookup_none_iff]
  simp only [ne_eq, not_forall, not_not, exists_prop]

theorem jbInsertFrame_of_late {f : RtpFrame} {s : State} (hlate : isLate f.rtpTimestamp s = true) :
    jbInsertFrame f s = s := if_pos hlate

theorem jbInsertFrame_of_new {f : RtpFrame} {s : State} (hlate : ¬isLate f.rtpTimestamp s = true)
    (hkey : ¬jbHasKey f.rtpTimestamp s.jbMap = true) :
    jbInsertFrame f s = if s.params.jbCap ≤ s.jbMap.length then raiseWarning .jbOverflow f.rtpTimestamp s
      else syncCheck { s with jbMap := jbInsert f s.jbMap } := by
  rw [jbInsertFrame, if_neg hlate, if_neg hkey]

/-- Settles O14: the checks of the insert, one after the other. -/
theorem rtpInFollowsTheInsertChecks : Obligations.RtpInFollowsTheInsertChecks := by
  unfold Obligations.RtpInFollowsTheInsertChecks
  intro pt ts payload s
  dsimp only
  rw [← isLate_iff, ← jbHasKey_iff]
  refine ⟨fun hnone => exec_rtpIn_without_session hnone pt ts payload, ?_, ?_, ?_⟩ <;> intro hsession <;>
    rw [exec_rtpIn_of_session hsession]
  · rintro (hlate | hkey)
    · rw [jbInsertFrame_of_late hlate]
    · obtain ⟨g, hg, hts⟩ := (jbHasKey_iff ..).mp hkey
      rw [jbInsertFrame_of_stored hg hts]
  · intro hlate hkey hfull
    rw [jbInsertFrame_of_new hlate hkey, if_pos hfull]
    rfl
  · intro hlate hkey hroom
    have hfree : jbLookup ts s.jbMap = none := by
      rwa [jbHasKey, Option.not_isSome_iff_eq_none] at hkey
    rw [jbInsertFrame_of_new hlate hkey, if_neg (not_le.mpr hroom)]
    exact ⟨_, rfl, jbInsert_length hfree, jbLookup_jbInsert_same (f := ⟨pt, payload, ts⟩) hfree,
      fun k hk => jbLookup_jbInsert_other hk.symm s.jbMap⟩

/-! ## FADE_RESET and EGR_CLEAR (R206, R207) -/

/-- Settles O34: both commands are the one write. -/
theorem fadeResetAndEgrClearWriteOneElement : Obligations.FadeResetAndEgrClearWriteOneElement := by
  unfold Obligations.FadeResetAndEgrClearWriteOneElement
  exact fun s => ⟨rfl, rfl⟩

end Sys2Proof.Laws
end

section
/-! Settles O17, O21 and O23: what a pull decodes and emits (40_commands.md R203, R211 to R214;
60_exceptions.md R605). -/

namespace Sys2Proof.Laws

open Sys2Proof.Machine

/-! ## The pull of the jitter buffer (R425 to R429) -/

theorem pull_of_session {s : State} {c : Codec} (h : s.sessionCodec = some c) :
    pull s = finishPull c (jbPull (rtpIncrement c) s).1 (jbPull (rtpIncrement c) s).2 := by
  rw [pull, h]

theorem jbPull_of_filling {s : State} (h : s.isSynchronized = false) (inc : U32) :
    jbPull inc s = (.nothing, s) := by
  rw [jbPull, h]
  rfl

/-- Settles O17: the pull ends before the jitter buffer, or the jitter buffer answers nothing. -/
theorem pullWithoutFrameDoesNothing : Obligations.PullWithoutFrameDoesNothing := by
  unfold Obligations.PullWithoutFrameDoesNothing
  intro s h
  have hpull : pull s = s := by
    cases hsession : s.sessionCodec with
    | none => rw [pull, hsession]
    | some c =>
      have hfilling : s.isSynchronized = false := h.resolve_left (by simp [hsession])
      rw [pull_of_session hsession, jbPull_of_filling hfilling]
      rfl
  exact congrArg Host.Outcome.next hpull

/-- The one event of the jitter buffer's pull is the jump to the frame it answers (R429). -/
theorem jbPull_events (inc : U32) (s : State) :
    (jbPull inc s).2.events = s.events
    ∨ ((jbPull inc s).1 ≠ .nothing
      ∧ ∃ k, (jbPull inc s).2.events = s.events ++ [.jbResync s.nextExpected k]) := by
  rcases jbPull_cases inc s with ⟨-, h⟩ | ⟨f, -, -, h⟩ | ⟨-, -, -, h⟩ | ⟨-, -, -, -, h⟩ | ⟨-, -, -, -, h⟩ <;>
    rw [h]
  case inr.inr.inr.inr =>
    rcases resync_cases s.nextExpected inc { s with missingCount := satInc s.missingCount } with
      h | ⟨k, f, h⟩ <;> rw [h]
    · exact .inl rfl
    · exact .inr ⟨nofun, k, rfl⟩
  all_goals exact .inl rfl

/-! ## The decode stage (R211, R281, R282) -/

theorem checkLength_eq (f : RtpFrame) (s : State) :
    checkLength f s = { s with
      events := s.events ++
        if f.payload.length = 160 then []
        else [.warning .malformedLength (BitVec.ofNat 32 f.payload.length)] } := by
  unfold checkLength fixedPayload
  split
  · rw [List.append_nil]
  · rfl

/-- Settles O21, codec by codec. -/
theorem decodeFollowsThePayloadType : Obligations.DecodeFollowsThePayloadType := by
  unfold Obligations.DecodeFollowsThePayloadType
  intro session f s
  simp only [decodeRtp, checkLength_eq]
  cases codecAt f.payloadType s.codecMap with
  | none => rfl
  | some c => cases c <;> rfl

/-- What the decode of one frame adds to the events: no warning, that of the payload type or of the length, or
the reports of an Opus failure (R211, R282). -/
def DecodeWarnings (warnings : List Event) : Prop :=
  warnings = [] ∨ (∃ n, warnings = [.warning .unsupportedPt n])
    ∨ (∃ n, warnings = [.warning .malformedLength n])
    ∨ (∃ n, warnings = [.warning .opusDecodeFail n])
    ∨ (∃ n, warnings = [.warning .opusDecodeFail n, .callError .decoder n])

theorem checkLength_warns (f : RtpFrame) (s : State) :
    ∃ warnings, DecodeWarnings warnings ∧ (checkLength f s).events = s.events ++ warnings := by
  rw [checkLength_eq]
  refine ⟨_, ?_, rfl⟩
  split
  · exact .inl rfl
  · exact .inr (.inr (.inl ⟨_, rfl⟩))

theorem opusDecodeFail_warns (s : State) :
    ∃ warnings, DecodeWarnings warnings ∧ (opusDecodeFail s).2.events = s.events ++ warnings := by
  unfold opusDecodeFail callErrorAt
  dsimp only
  split
  · exact ⟨_, .inr (.inr (.inr (.inr ⟨satInc s.opusDecFail, rfl⟩))), List.append_assoc ..⟩
  · exact ⟨_, .inr (.inr (.inr (.inl ⟨satInc s.opusDecFail, rfl⟩))), rfl⟩

theorem opusDecodeAnswer_warns (r : OpusDecResult) (s : State) :
    ∃ warnings, DecodeWarnings warnings ∧ (opusDecodeAnswer r s).2.events = s.events ++ warnings := by
  cases r with
  | fail => exact opusDecodeFail_warns s
  | ok samples stereo => exact ⟨[], .inl rfl, (List.append_nil _).symm⟩

theorem decodeRtp_warns (session : Codec) (f : RtpFrame) (s : State) :
    ∃ warnings, DecodeWarnings warnings ∧ (decodeRtp session f s).2.events = s.events ++ warnings := by
  unfold decodeRtp
  cases codecAt f.payloadType s.codecMap with
  | none => exact ⟨_, .inr (.inl ⟨_, rfl⟩), rfl⟩
  | some c =>
    cases c with
    | pcmu | pcma | g722 => exact checkLength_warns f s
    | opus => exact opusDecodeAnswer_warns _ { s with opusDec := (opusDecode s.opusDec f.payload).1 }

/-! ## The output of the pull (R203, R212, R214) -/

theorem outputPcm_emits (pcm : Frame) (rate : Rate) (s : State) :
    ∃ out, (outputPcm pcm rate s).events = s.events ++ [.pcmFrameReady out]
      ∧ out.length = frameLen s.params.targetRate :=
  ⟨_, rfl, convert_length ..⟩

/-- A frame or a concealment is put out as one full frame, behind the warnings of its decode. -/
theorem finishPull_emits (c : Codec) {r : PullResult} (h : r ≠ .nothing) (s : State) :
    ∃ warnings out, DecodeWarnings warnings
      ∧ (finishPull c r s).events = s.events ++ warnings ++ [.pcmFrameReady out]
      ∧ out.length = frameLen s.params.targetRate := by
  cases r with
  | nothing => exact absurd rfl h
  | frame f =>
    obtain ⟨warnings, hwarnings, hevents⟩ := decodeRtp_warns c f s
    obtain ⟨_, _, _, _, hwrites⟩ := decodeRtp_writes c f s
    obtain ⟨out, hout, hlen⟩ :=
      outputPcm_emits (decodeRtp c f s).1.1 (decodeRtp c f s).1.2 (decodeRtp c f s).2
    rw [hwrites] at hlen
    exact ⟨warnings, out, hwarnings, hevents ▸ hout, hlen⟩
  | conceal =>
    obtain ⟨out, hout, hlen⟩ := outputPcm_emits (concealFrame s).1 (concealFrame s).2 s
    exact ⟨[], out, .inl rfl, (List.append_nil s.events).symm ▸ hout, hlen⟩

/-- Settles O23: the jump, then the warnings of the decode, then the frame. -/
theorem pullEmitsOneFrameLast : Obligations.PullEmitsOneFrameLast := by
  unfold Obligations.PullEmitsOneFrameLast
  intro s c hsession
  refine ⟨pull s, rfl, ?_⟩
  rw [pull_of_session hsession]
  have hjump := jbPull_events (rtpIncrement c) s
  obtain ⟨_, _, _, _, _, hwrites, -⟩ := jbPull_writes (rtpIncrement c) s
  have hparams : (jbPull (rtpIncrement c) s).2.params = s.params := by rw [hwrites]
  generalize jbPull (rtpIncrement c) s = answered at hjump hparams ⊢
  obtain ⟨r, u⟩ := answered
  by_cases hr : r = .nothing
  · subst hr
    exact .inl ⟨rfl, hjump.resolve_right fun hjumped => hjumped.1 rfl⟩
  · obtain ⟨warnings, out, hwarnings, hevents, hlen⟩ := finishPull_emits c hr u
    rw [hparams] at hlen
    rcases hjump with hnone | ⟨-, k, hresync⟩
    · rw [hnone, ← List.append_nil s.events] at hevents
      exact .inr ⟨hr, [], warnings, out, hevents, hlen, .inl rfl, hwarnings⟩
    · rw [hresync] at hevents
      exact .inr ⟨hr, _, warnings, out, hevents, hlen, .inr ⟨k, rfl⟩, hwarnings⟩

end Sys2Proof.Laws
end

section
/-! Settles O42: which commands write which part of the state (40_commands.md R201 to R208). -/

namespace Sys2Proof.Laws

open Sys2Proof.Machine

/-- The parts of the state by the commands that write them. -/
inductive StatePart where
  | decoding | jitterBuffer | playout | egressDsp | queue | codecs

/-- The elements of a part have in `t` the values they have in `s`. -/
def KeepsPart (part : StatePart) (s t : State) : Prop :=
  match part with
  | .decoding =>
    (t.g722Dec, t.opusDec, t.opusDecFail, t.idsp, t.irs, t.lastDecoded, t.lastDecodedRate, t.missingCount) =
      (s.g722Dec, s.opusDec, s.opusDecFail, s.idsp, s.irs, s.lastDecoded, s.lastDecodedRate, s.missingCount)
  | .jitterBuffer =>
    (t.jbMap, t.nextExpected, t.isSynchronized, t.everSynced) =
      (s.jbMap, s.nextExpected, s.isSynchronized, s.everSynced)
  | .playout =>
    (t.g722Enc, t.opusEnc, t.opusEncFail, t.ers, t.primed, t.underrunCount, t.tickBusy) =
      (s.g722Enc, s.opusEnc, s.opusEncFail, s.ers, s.primed, s.underrunCount, s.tickBusy)
  | .egressDsp => t.edsp = s.edsp
  | .queue => t.queue = s.queue
  | .codecs => (t.codecMap, t.sessionCodec) = (s.codecMap, s.sessionCodec)

/-- The commands that may write a part, `CALL_RESET` aside: the lists of state written of R201 to R207. -/
def MayWrite (i : Instr) (part : StatePart) : Prop :=
  match part with
  | .decoding => i = .ingPull
  | .jitterBuffer => i = .ingPull ∨ ∃ pt ts payload, i = .rtpIn pt ts payload
  | .playout => i = .egrTick
  | .egressDsp => i = .egrTick ∨ i = .fadeReset
  | .queue => i = .egrTick ∨ i = .egrClear ∨ ∃ payload, i = .egrEnq payload
  | .codecs => ∃ pt codec rate, i = .cfgCodec pt codec rate

/-- From `s` to `t` every part is kept that the command may not write. -/
def PartsWrittenBy (i : Instr) (s t : State) : Prop :=
  ∀ part : StatePart, MayWrite i part ∨ KeepsPart part s t

theorem partsWrittenBy_rtpIn (pt : Byte) (ts : U32) (payload : List Byte) (f : RtpFrame) (s : State) :
    PartsWrittenBy (.rtpIn pt ts payload) s (jbInsertFrame f s) := by
  obtain ⟨_, _, _, _, _, hwrites, -⟩ := jbInsertFrame_writes f s
  rw [hwrites]
  intro part
  cases part
  case jitterBuffer => exact .inl (.inr ⟨pt, ts, payload, rfl⟩)
  all_goals exact .inr rfl

theorem partsWrittenBy_ingPull (s : State) : PartsWrittenBy .ingPull s (pull s) := by
  obtain ⟨_, _, _, _, _, _, _, _, _, _, _, _, hwrites, -⟩ := pull_writes s
  rw [hwrites]
  intro part
  cases part
  case decoding => exact .inl rfl
  case jitterBuffer => exact .inl (.inl rfl)
  all_goals exact .inr rfl

theorem partsWrittenBy_egrTick (s : State) : PartsWrittenBy .egrTick s (tick s) := by
  intro part
  cases part
  case playout => exact .inl rfl
  case egressDsp | queue => exact .inl (.inl rfl)
  all_goals
    rcases tick_cases s with hidle | ⟨_, _, _, _, _, _, _, hwrites, -⟩ |
      ⟨_, _, _, _, _, _, _, _, hwrites, -, -⟩
    · rw [hidle]
      exact .inr rfl
    · rw [hwrites]
      exact .inr rfl
    · rw [hwrites]
      exact .inr rfl

theorem exec_parts {i : Instr} {s t : State} (h : exec i s = .next t) (hreset : i ≠ .callReset) :
    PartsWrittenBy i s t := by
  cases i with
  | cfgCodec pt codec rate =>
    rcases exec_cfgCodec_cases h with rfl | ⟨c, rfl⟩ <;> intro part <;> cases part
    case inr.codecs => exact .inl ⟨pt, codec, rate, rfl⟩
    all_goals exact .inr rfl
  | rtpIn pt ts payload =>
    rcases exec_rtpIn_cases h with rfl | rfl
    · intro part
      cases part <;> exact .inr rfl
    · exact partsWrittenBy_rtpIn pt ts payload _ s
  | ingPull => exact exec_ingPull h ▸ partsWrittenBy_ingPull s
  | egrEnq payload =>
    rw [exec_egrEnq h]
    intro part
    cases part
    case queue => exact .inl (.inr (.inr ⟨payload, rfl⟩))
    all_goals exact .inr rfl
  | egrTick => exact exec_egrTick h ▸ partsWrittenBy_egrTick s
  | fadeReset =>
    rw [exec_fadeReset h]
    intro part
    cases part
    case egressDsp => exact .inl (.inr rfl)
    all_goals exact .inr rfl
  | egrClear =>
    rw [exec_egrClear h]
    intro part
    cases part
    case queue => exact .inl (.inr (.inl rfl))
    all_goals exact .inr rfl
  | callReset => exact absurd rfl hreset

/-- Settles O42, part by part. -/
theorem eachDirectionWritesItsOwnState : Obligations.EachDirectionWritesItsOwnState := by
  unfold Obligations.EachDirectionWritesItsOwnState
  intro i s t h hreset
  have hkeeps (part : StatePart) (hpart : ¬MayWrite i part) : KeepsPart part s t :=
    (exec_parts h hreset part).resolve_left hpart
  refine ⟨fun hpull => ?_, fun htick => ?_, fun hcfg => ?_⟩
  · have hjitter (hrtp : ∀ pt ts payload, i ≠ .rtpIn pt ts payload) : ¬MayWrite i .jitterBuffer := by
      rintro (hpull' | ⟨pt, ts, payload, hrtp'⟩)
      · exact hpull hpull'
      · exact hrtp pt ts payload hrtp'
    have hdecoding := hkeeps .decoding hpull
    simp only [KeepsPart, Prod.mk.injEq] at hdecoding
    obtain ⟨hg722, hopus, hfail, hidsp, hirs, hlast, hrate, hmissing⟩ := hdecoding
    refine ⟨hg722, hopus, hfail, hidsp, hirs, hlast, hrate, hmissing, fun hrtp => ?_⟩
    simpa only [KeepsPart, Prod.mk.injEq] using hkeeps .jitterBuffer (hjitter hrtp)
  · have hplayout := hkeeps .playout htick
    simp only [KeepsPart, Prod.mk.injEq] at hplayout
    obtain ⟨hg722, hopus, hfail, hers, hprimed, hcount, hbusy⟩ := hplayout
    refine ⟨hg722, hopus, hfail, hers, hprimed, hcount, hbusy, fun hfade => hkeeps .egressDsp ?_,
      fun hclear henq => hkeeps .queue ?_⟩
    · exact not_or.mpr ⟨htick, hfade⟩
    · exact not_or.mpr ⟨htick, not_or.mpr ⟨hclear, not_exists.mpr henq⟩⟩
  · have hcodecs : ¬MayWrite i .codecs := fun ⟨pt, codec, rate, hcfg'⟩ => hcfg pt codec rate hcfg'
    simpa only [KeepsPart, Prod.mk.injEq] using hkeeps .codecs hcodecs

end Sys2Proof.Laws
end

section
/-! Settles O46: the G.722 decoder follows the encoder (41_codecs.md R260 to R267). -/

namespace Sys2Proof.Laws

open Sys2Proof.Machine

/-! ## The code of one pair (R262, R263) -/

theorem nearestLevel_lt (d : Int) (levels : List Int) {n i bestAt : Nat} (bestErr : Nat) (hbest : bestAt < n)
    (hlen : i + levels.length ≤ n) : nearestLevel d levels i bestAt bestErr < n := by
  induction levels generalizing i bestAt bestErr with
  | nil => exact hbest
  | cons q rest ih =>
    rw [List.length_cons] at hlen
    rw [nearestLevel]
    split
    · exact ih _ (by omega) (by omega)
    · exact ih _ hbest (by omega)

/-- The index that `Quant` answers is one of the table's. -/
theorem quant_lt (d : Int) {levels : List Int} (h : levels ≠ []) : quant d levels < levels.length := by
  cases levels with
  | nil => exact absurd rfl h
  | cons q rest =>
    exact nearestLevel_lt d rest _ (Nat.succ_pos _) (by simp only [List.length_cons]; omega)

theorem g722LowIndex_lt (g : G722State) (x0 x1 : Sample) : g722LowIndex g x0 x1 < 8 :=
  quant_lt _ (levels := qlTable) (by decide)

theorem g722HighIndex_lt (g : G722State) (x0 x1 : Sample) : g722HighIndex g x0 x1 < 4 :=
  quant_lt _ (levels := qhTable) (by decide)

theorem g722Low_g722Byte (ch : Nat) {cl : Nat} (h : cl < 8) : g722Low (g722Byte ch cl) = cl := by
  have hfield : (g722Byte ch cl).extractLsb' 0 3 = BitVec.ofNat 3 cl := BitVec.extractLsb'_append_eq_right
  rw [g722Low, hfield, BitVec.toNat_ofNat, Nat.mod_eq_of_lt h]

theorem g722High_g722Byte {ch : Nat} (h : ch < 4) (cl : Nat) : g722High (g722Byte ch cl) = ch := by
  have hfield : (g722Byte ch cl).extractLsb' 6 2 = BitVec.ofNat 2 ch :=
    (BitVec.extractLsb'_append_eq_of_le (by decide)).trans BitVec.extractLsb'_append_eq_left
  rw [g722High, hfield, BitVec.toNat_ofNat, Nat.mod_eq_of_lt h]

/-! ## One pair, encoded and decoded (R264 to R266) -/

/-- The two samples that the decoder puts out for its integrators (R266). -/
def g722Pair (g : G722State) : Frame := [sat16 (g.lo.toInt + g.hi.toInt), sat16 (g.lo.toInt - g.hi.toInt)]

theorem g722DecodeByte_eq (g : G722State) (b : Byte) :
    g722DecodeByte g b =
      (g722Pair (g722Update g (g722Low b) (g722High b)), g722Update g (g722Low b) (g722High b)) := rfl

/-- The byte carries both indices, so the decoder makes the encoder's update. -/
theorem g722DecodeByte_encodePair (g : G722State) (x0 x1 : Sample) :
    g722DecodeByte g (g722EncodePair g x0 x1).1 =
      (g722Pair (g722EncodePair g x0 x1).2, (g722EncodePair g x0 x1).2) := by
  simp only [g722DecodeByte_eq, g722EncodePair, g722Low_g722Byte _ (g722LowIndex_lt g x0 x1),
    g722High_g722Byte (g722HighIndex_lt g x0 x1)]

theorem g722Decode_cons (g : G722State) (b : Byte) (payload : List Byte) :
    g722Decode g (b :: payload) =
      ((g722DecodeByte g b).1 ++ (g722Decode (g722DecodeByte g b).2 payload).1,
        (g722Decode (g722DecodeByte g b).2 payload).2) := rfl

/-! ## A frame (R265 to R267) -/

theorem g722Decode_length (g : G722State) (payload : List Byte) :
    (g722Decode g payload).1.length = 2 * payload.length := by
  induction payload generalizing g with
  | nil => rfl
  | cons b rest ih =>
    rw [g722Decode_cons, List.length_append, ih, g722DecodeByte_eq, List.length_cons]
    simp only [g722Pair, List.length_cons, List.length_nil]
    omega

theorem g722Encode_cons_cons (g : G722State) (x0 x1 : Sample) (rest : Frame) :
    g722Encode g (x0 :: x1 :: rest) =
      ((g722EncodePair g x0 x1).1 :: (g722Encode (g722EncodePair g x0 x1).2 rest).1,
        (g722Encode (g722EncodePair g x0 x1).2 rest).2) := by
  rw [g722Encode]

/-- An odd last sample is repeated (R265). -/
theorem g722Encode_singleton (g : G722State) (x : Sample) : g722Encode g [x] = g722Encode g [x, x] := by
  rw [g722Encode, g722Encode_cons_cons, g722Encode]

theorem g722Decode_encode_cons_cons (g : G722State) (x0 x1 : Sample) (rest : Frame) :
    g722Decode g (g722Encode g (x0 :: x1 :: rest)).1 =
      let g' := (g722EncodePair g x0 x1).2
      (g722Pair g' ++ (g722Decode g' (g722Encode g' rest).1).1, (g722Decode g' (g722Encode g' rest).1).2) := by
  rw [g722Encode_cons_cons, g722Decode_cons, g722DecodeByte_encodePair]

theorem g722Decode_encode_state (g : G722State) (f : Frame) :
    (g722Decode g (g722Encode g f).1).2 = (g722Encode g f).2 := by
  match f with
  | [] => rfl
  | [x] =>
    rw [g722Encode_singleton, g722Decode_encode_cons_cons, g722Encode_cons_cons]
    rfl
  | x0 :: x1 :: rest =>
    rw [g722Decode_encode_cons_cons, g722Encode_cons_cons]
    exact g722Decode_encode_state _ rest

/-- Pair `k` of the output is that of the encoder's integrators after pair `k` of the input. -/
theorem g722Decode_encode_getD (g : G722State) (f : Frame) (k : Nat) (hk : k < (f.length + 1) / 2) :
    let after := (g722Encode g (f.take (2 * (k + 1)))).2
    let out := (g722Decode g (g722Encode g f).1).1
    out.getD (2 * k) 0#16 = sat16 (after.lo.toInt + after.hi.toInt)
    ∧ out.getD (2 * k + 1) 0#16 = sat16 (after.lo.toInt - after.hi.toInt) := by
  match f, k with
  | [], _ => exact absurd hk (by simp)
  | [x], 0 =>
    rw [g722Encode_singleton, g722Decode_encode_cons_cons]
    exact ⟨rfl, rfl⟩
  | [_], k + 1 => exact absurd hk (by simp)
  | x0 :: x1 :: rest, 0 =>
    rw [g722Decode_encode_cons_cons]
    exact ⟨rfl, rfl⟩
  | x0 :: x1 :: rest, k + 1 =>
    have hrest : k < (rest.length + 1) / 2 := by
      simp only [List.length_cons] at hk
      omega
    have htake : (x0 :: x1 :: rest).take (2 * (k + 1 + 1)) = x0 :: x1 :: rest.take (2 * (k + 1)) := rfl
    rw [g722Decode_encode_cons_cons, htake, g722Encode_cons_cons]
    exact g722Decode_encode_getD _ rest k hrest

/-- Settles O46, pair by pair. -/
theorem g722DecoderTracksTheEncoder : Obligations.G722DecoderTracksTheEncoder := by
  unfold Obligations.G722DecoderTracksTheEncoder
  intro g f
  refine ⟨g722Decode_encode_state g f, ?_, g722Decode_encode_getD g f⟩
  rw [g722Decode_length, g722Encode_length]

end Sys2Proof.Laws
end

section
/-! Settles O47: the round trips of both laws of G.711 (41_codecs.md R253 to R258). Above its linear part a law
cuts the magnitudes into segments, each twice as long as the one before, and a segment into 16 steps: the code of
a magnitude is its segment and its step, and the decoder answers the step's midpoint. -/

namespace Sys2Proof.Laws

open Sys2Proof.Machine

/-! ## Steps and their midpoints -/

/-- The magnitude lies in step `m` of segment `e`, whose length is `2 ^ (e + 3)`. -/
def InStep (e m mag : Nat) : Prop := (16 + m) * 2 ^ (e + 3) ≤ mag ∧ mag < (17 + m) * 2 ^ (e + 3)

/-- What the decoders answer for every magnitude of a step, the μ-law with its bias still added. -/
def stepMidpoint (e m : Nat) : Nat := (2 * (16 + m) + 1) * 2 ^ (e + 2)

theorem log2_shiftRight (n k : Nat) : (n >>> k).log2 = n.log2 - k := by
  rw [Nat.shiftRight_eq_div_pow, Nat.log2_eq_log_two, Nat.log2_eq_log_two, Nat.log_div_base_pow]

theorem and_0x0F_lt (n : Nat) : n &&& 0x0F < 16 := Nat.and_lt_two_pow n (n := 4) (by decide)

/-- The step that the encoders compute is the magnitude's own. -/
theorem inStep_of_log2 {mag e : Nat} (h : mag.log2 = e + 7) : InStep e ((mag >>> (e + 3)) &&& 0x0F) mag := by
  have hmag : mag ≠ 0 := by
    rintro rfl
    simp at h
  obtain ⟨hlow, hhigh⟩ := (Nat.log2_eq_iff hmag).mp h
  have hlow' : 16 ≤ mag / 2 ^ (e + 3) := by
    rw [Nat.le_div_iff_mul_le (by positivity)]
    exact le_of_eq_of_le (by ring) hlow
  have hhigh' : mag / 2 ^ (e + 3) < 32 := by
    rw [Nat.div_lt_iff_lt_mul (by positivity)]
    exact lt_of_lt_of_eq hhigh (by ring)
  have hstep : (mag >>> (e + 3)) &&& 0x0F = mag / 2 ^ (e + 3) - 16 := by
    rw [Nat.shiftRight_eq_div_pow, Nat.and_two_pow_sub_one_eq_mod _ 4]
    omega
  rw [hstep, InStep, show 16 + (mag / 2 ^ (e + 3) - 16) = mag / 2 ^ (e + 3) by omega,
    show 17 + (mag / 2 ^ (e + 3) - 16) = mag / 2 ^ (e + 3) + 1 by omega]
  exact ⟨Nat.div_mul_le_self .., Nat.lt_mul_of_div_lt (Nat.lt_succ_self _) (by positivity)⟩

/-- Both encoders find the segment of a magnitude of at least 2^7 as its logarithm, from a shifted copy. -/
theorem segment_spec {k mag : Nat} (hk : 7 ≤ k) (hlow : 2 ^ k ≤ mag) (hhigh : mag < 2 ^ 15) :
    let e := (mag >>> k).log2 + (k - 7)
    e < 8 ∧ (mag >>> (e + 3)) &&& 0x0F < 16 ∧ InStep e ((mag >>> (e + 3)) &&& 0x0F) mag := by
  have hmag : mag ≠ 0 := (Nat.two_pow_pos k |>.trans_le hlow).ne'
  have hge : k ≤ mag.log2 := (Nat.le_log2 hmag).mpr hlow
  have hlt : mag.log2 < 15 := (Nat.log2_lt hmag).mpr hhigh
  have hshift := log2_shiftRight mag k
  exact ⟨by omega, and_0x0F_lt _, inStep_of_log2 (by omega)⟩

theorem stepMidpoint_near {e m mag : Nat} (h : InStep e m mag) :
    ((stepMidpoint e m : Int) - mag).natAbs ≤ 2 ^ (e + 2) := by
  obtain ⟨hlow, hhigh⟩ := h
  have hhalf : 2 ^ (e + 3) = 2 * 2 ^ (e + 2) := pow_succ' 2 (e + 2)
  have hmid : stepMidpoint e m = (16 + m) * 2 ^ (e + 3) + 2 ^ (e + 2) := by
    rw [stepMidpoint, hhalf]
    ring
  rw [show 17 + m = 16 + m + 1 by omega, Nat.add_one_mul] at hhigh
  omega

/-- The last step of the last segment begins at 31744. -/
theorem inStep_top {e m mag : Nat} (h : InStep e m mag) (he : e < 8) (hm : m < 16) (hmag : 31744 ≤ mag) :
    e = 7 ∧ m = 15 := by
  obtain ⟨-, hhigh⟩ := h
  interval_cases e <;> omega

theorem halfStep_le {e : Nat} (he : e < 8) : 2 ^ (e + 2) ≤ 512 :=
  Nat.pow_le_pow_right (n := 2) (by decide) (show e + 2 ≤ 9 by omega)

/-! ## The μ-law (R253, R254) -/

/-- The code of a sign, a segment and a step. -/
def mulawCode (negative : Bool) (e m : Nat) : Byte :=
  ~~~(BitVec.ofNat 8 ((if negative then 0x80 else 0x00) ||| (e <<< 4) ||| m))

/-- All 256 codes: the exponent is the code's field, and the value the midpoint less the bias. -/
theorem mulawCode_fields : ∀ (negative : Bool) (e : Fin 8) (m : Fin 16),
    ((~~~(mulawCode negative e m)).extractLsb' 4 3).toNat = e
    ∧ (mulawDecode (mulawCode negative e m)).toInt =
      if negative then 132 - (stepMidpoint e m : Int) else (stepMidpoint e m : Int) - 132 := by
  decide +kernel

/-- The encoder codes the clipped magnitude, with the bias that moves the first segment to a power of two. -/
theorem mulawEncode_eq (x : Sample) : ∃ e m, e < 8 ∧ m < 16 ∧ InStep e m (min x.toInt.natAbs 32635 + 132)
    ∧ mulawEncode x = mulawCode (decide (x.toInt < 0)) e m := by
  obtain ⟨he, hm, hstep⟩ :=
    segment_spec (k := 7) (mag := min x.toInt.natAbs 32635 + 132) (by decide) (by omega) (by omega)
  refine ⟨_, _, he, hm, hstep, ?_⟩
  simp only [mulawCode, decide_eq_true_eq]
  rfl

/-- The round trip answers the midpoint of the magnitude's step, with the sample's sign. -/
theorem mulaw_roundTrip (x : Sample) : ∃ e m, e < 8 ∧ m < 16 ∧ InStep e m (min x.toInt.natAbs 32635 + 132)
    ∧ ((~~~(mulawEncode x)).extractLsb' 4 3).toNat = e
    ∧ (mulawDecode (mulawEncode x)).toInt =
      if x.toInt < 0 then 132 - (stepMidpoint e m : Int) else (stepMidpoint e m : Int) - 132 := by
  obtain ⟨e, m, he, hm, hstep, hcode⟩ := mulawEncode_eq x
  obtain ⟨hfield, hvalue⟩ := mulawCode_fields (decide (x.toInt < 0)) ⟨e, he⟩ ⟨m, hm⟩
  rw [hcode]
  exact ⟨e, m, he, hm, hstep, hfield, by simpa only [decide_eq_true_eq] using hvalue⟩

theorem mulaw_bounds (x : Sample) :
    let u := mulawDecode (mulawEncode x)
    let e := ((~~~(mulawEncode x)).extractLsb' 4 3).toNat
    (x.toInt.natAbs ≤ 32124 → (u.toInt - x.toInt).natAbs ≤ 2 ^ (e + 2))
    ∧ (32124 < x.toInt.natAbs → u.toInt.natAbs = 32124)
    ∧ (u.toInt - x.toInt).natAbs ≤ 644 := by
  obtain ⟨e, m, he, hm, hstep, hfield, hvalue⟩ := mulaw_roundTrip x
  dsimp only
  rw [hfield, hvalue]
  have hnear := stepMidpoint_near hstep
  have hhalf := halfStep_le he
  have hclip : 32124 < x.toInt.natAbs → stepMidpoint e m = 32256 := by
    intro hx
    obtain ⟨rfl, rfl⟩ := inStep_top hstep he hm (by omega)
    rfl
  have := x.le_toInt
  have := x.toInt_lt
  refine ⟨fun hx => ?_, fun hx => ?_, ?_⟩
  · split <;> omega
  · have := hclip hx
    split <;> omega
  · by_cases hx : 32124 < x.toInt.natAbs
    · have := hclip hx
      split <;> omega
    · split <;> omega

/-! ## The A-law (R255, R256) -/

/-- The code of a sign, a segment and a step; segment 0 is the linear part. -/
def alawCode (negative : Bool) (seg m : Nat) : Byte :=
  BitVec.ofNat 8 ((seg <<< 4) ||| m) ^^^ ((if negative then 0x00#8 else 0x80#8) ^^^ 0x55#8)

/-- What the decoder answers for every magnitude of a step. -/
def alawLevel (seg m : Nat) : Nat := if seg = 0 then (2 * m + 1) * 8 else stepMidpoint seg m

/-- The linear part has 16 steps of 16. -/
def InAlawStep (seg m mag : Nat) : Prop :=
  (seg = 0 ∧ 16 * m ≤ mag ∧ mag < 16 * (m + 1)) ∨ (seg ≠ 0 ∧ InStep seg m mag)

/-- Half a step of the segment (R258). -/
def alawTolerance (seg : Nat) : Nat := if seg < 2 then 8 else 2 ^ (seg + 2)

theorem alawTolerance_le {seg : Nat} (hseg : seg < 8) : alawTolerance seg ≤ 512 := by
  unfold alawTolerance
  split
  · decide
  · exact halfStep_le hseg

/-- All 256 codes: the segment is the code's field, and the value the level. -/
theorem alawCode_fields : ∀ (negative : Bool) (seg : Fin 8) (m : Fin 16),
    ((alawCode negative seg m ^^^ 0x55#8).extractLsb' 4 3).toNat = seg
    ∧ (alawDecode (alawCode negative seg m)).toInt =
      if negative then -(alawLevel seg m : Int) else (alawLevel seg m : Int) := by
  decide +kernel

theorem alawEncode_eq (x : Sample) : ∃ seg m, seg < 8 ∧ m < 16 ∧ InAlawStep seg m (min x.toInt.natAbs 32635)
    ∧ alawEncode x = alawCode (decide (x.toInt < 0)) seg m := by
  have hsign : (if 0 ≤ x.toInt then 0x80#8 else 0x00#8) =
      if decide (x.toInt < 0) = true then 0x00#8 else 0x80#8 := by
    simp only [decide_eq_true_eq, ← not_le, ite_not]
  unfold alawEncode
  dsimp only
  rw [hsign]
  split
  case isTrue hsegment =>
    obtain ⟨hseg, hm, hstep⟩ :=
      segment_spec (k := 8) (mag := min x.toInt.natAbs 32635) (by decide) hsegment (by omega)
    exact ⟨_, _, hseg, hm, .inr ⟨Nat.succ_ne_zero _, hstep⟩, rfl⟩
  case isFalse hlinear =>
    have hstep := Nat.shiftRight_eq_div_pow (min x.toInt.natAbs 32635) 4
    refine ⟨0, min x.toInt.natAbs 32635 >>> 4, by decide, by omega, .inl ⟨rfl, by omega, by omega⟩, ?_⟩
    rw [alawCode, Nat.zero_shiftLeft, Nat.zero_or]

/-- The round trip answers the level of the magnitude's step, with the sample's sign. -/
theorem alaw_roundTrip (x : Sample) : ∃ seg m, seg < 8 ∧ m < 16 ∧ InAlawStep seg m (min x.toInt.natAbs 32635)
    ∧ ((alawEncode x ^^^ 0x55#8).extractLsb' 4 3).toNat = seg
    ∧ (alawDecode (alawEncode x)).toInt =
      if x.toInt < 0 then -(alawLevel seg m : Int) else (alawLevel seg m : Int) := by
  obtain ⟨seg, m, hseg, hm, hstep, hcode⟩ := alawEncode_eq x
  obtain ⟨hfield, hvalue⟩ := alawCode_fields (decide (x.toInt < 0)) ⟨seg, hseg⟩ ⟨m, hm⟩
  rw [hcode]
  exact ⟨seg, m, hseg, hm, hstep, hfield, by simpa only [decide_eq_true_eq] using hvalue⟩

theorem alawLevel_near {seg m mag : Nat} (h : InAlawStep seg m mag) :
    ((alawLevel seg m : Int) - mag).natAbs ≤ alawTolerance seg := by
  rcases h with ⟨hlinear, hlow, hhigh⟩ | ⟨hseg, hstep⟩
  · rw [alawLevel, alawTolerance, if_pos hlinear, if_pos (by omega)]
    omega
  · rw [alawLevel, alawTolerance, if_neg hseg]
    have hnear := stepMidpoint_near hstep
    split
    · obtain rfl : seg = 1 := by omega
      exact hnear
    · exact hnear

theorem alawLevel_top {seg m mag : Nat} (h : InAlawStep seg m mag) (hseg : seg < 8) (hm : m < 16)
    (hmag : 31744 ≤ mag) : alawLevel seg m = 32256 := by
  rcases h with ⟨-, -, hhigh⟩ | ⟨-, hstep⟩
  · omega
  · obtain ⟨rfl, rfl⟩ := inStep_top hstep hseg hm hmag
    rfl

theorem alaw_bounds (x : Sample) :
    let a := alawDecode (alawEncode x)
    let seg := ((alawEncode x ^^^ 0x55#8).extractLsb' 4 3).toNat
    (x.toInt.natAbs ≤ 32256 → (a.toInt - x.toInt).natAbs ≤ alawTolerance seg)
    ∧ (a.toInt - x.toInt).natAbs ≤ 512 := by
  obtain ⟨seg, m, hseg, hm, hstep, hfield, hvalue⟩ := alaw_roundTrip x
  dsimp only
  rw [hfield, hvalue]
  have hnear := alawLevel_near hstep
  have htolerance := alawTolerance_le hseg
  have hclip : 32635 < x.toInt.natAbs → alawLevel seg m = 32256 :=
    fun hx => alawLevel_top hstep hseg hm (by omega)
  have := x.le_toInt
  have := x.toInt_lt
  refine ⟨fun hx => ?_, ?_⟩
  · split <;> omega
  · by_cases hx : 32635 < x.toInt.natAbs
    · have := hclip hx
      split <;> omega
    · split <;> omega

/-! ## Both laws (R258) -/

/-- Settles O47: the bounds are those of the steps; the extremes and the codes are finitely many. -/
theorem g711RoundTripsWithinItsBounds : Obligations.G711RoundTripsWithinItsBounds := by
  unfold Obligations.G711RoundTripsWithinItsBounds
  refine ⟨fun x => ?_, by decide, by decide, by decide, by decide, by decide, by decide +kernel, by decide +kernel⟩
  obtain ⟨hmulaw, hclip, hworst⟩ := mulaw_bounds x
  obtain ⟨halaw, hworst'⟩ := alaw_bounds x
  exact ⟨hmulaw, hclip, hworst, halaw, hworst'⟩

end Sys2Proof.Laws
end

section
/-! Settles O32 and O22: the encode stage of a sent frame and the Opus decode stage (41_codecs.md R281 to R285;
46_playout.md R472). -/

namespace Sys2Proof.Laws

open Sys2Proof.Machine

/-! ## A failure of the Opus library (R282, R284, R285) -/

/-- The error is reported when the count changes to the limit, and nothing else is written. -/
theorem callErrorAt_eq (direction : Direction) (before after : U32) (s : State) :
    callErrorAt direction before after s = { s with
      events := s.events ++
        if after ≠ before ∧ after.toNat = s.params.opusFailLimit then [.callError direction after] else [] } := by
  simp only [callErrorAt, becomes, Bool.and_eq_true, decide_eq_true_eq]
  split
  · rfl
  · rw [List.append_nil]

/-- The warning stands before the error. -/
theorem callErrorAt_raiseWarning (direction : Direction) (code : WarningCode) (before after : U32) (s : State) :
    callErrorAt direction before after (raiseWarning code after s) = { s with
      events := s.events ++ [.warning code after] ++
        if after ≠ before ∧ after.toNat = s.params.opusFailLimit then [.callError direction after] else [] } :=
  callErrorAt_eq ..

/-! ## Sending a frame (R472) -/

/-- Settles O32, codec by codec: `sendEncoded` of the encoder's answer. -/
theorem emitEncodedNotesAndSends : Obligations.EmitEncodedNotesAndSends := by
  unfold Obligations.EmitEncodedNotesAndSends
  intro c f real s
  rw [emitEncoded_eq]
  cases c with
  | pcmu | pcma | g722 => rfl
  | opus =>
    simp only [encodeFrame, opusEncodeStage]
    cases (opusEncode s.opusEnc f).2 with
    | ok payload => rfl
    | fail => exact callErrorAt_raiseWarning ..

/-! ## The downmix (R281) -/

theorem sat16_toInt_of_mem {n : Int} (hlow : -32768 ≤ n) (hhigh : n ≤ 32767) : (sat16 n).toInt = n := by
  rw [sat16, min_eq_left hhigh, max_eq_right hlow, BitVec.toInt_ofInt, Int.bmod_eq_of_le] <;> omega

/-- The mean of two samples needs no saturation. -/
theorem sat16_tdiv2_toInt (l r : Sample) : (sat16 (tdiv2 (l.toInt + r.toInt))).toInt = (l.toInt + r.toInt).tdiv 2 := by
  have := l.le_toInt
  have := l.toInt_lt
  have := r.le_toInt
  have := r.toInt_lt
  have hmean : -32768 ≤ (l.toInt + r.toInt).tdiv 2 ∧ (l.toInt + r.toInt).tdiv 2 ≤ 32767 := by
    rw [Int.tdiv_eq_ediv, show Int.sign 2 = 1 from rfl]
    split <;> omega
  exact sat16_toInt_of_mem hmean.1 hmean.2

theorem downmix_length (f : Frame) : (downmix f).length = f.length / 2 := by
  match f with
  | [] => rfl
  | [_] => simp [downmix]
  | l :: r :: rest =>
    simp only [downmix, List.length_cons, downmix_length rest]
    omega

theorem downmix_getD (f : Frame) (i : Nat) (hi : i < f.length / 2) :
    ((downmix f).getD i 0#16).toInt =
      ((f.getD (2 * i) 0#16).toInt + (f.getD (2 * i + 1) 0#16).toInt).tdiv 2 := by
  match f, i with
  | [], _ => exact absurd hi (by simp)
  | [_], _ => exact absurd hi (by simp)
  | l :: r :: rest, 0 => exact sat16_tdiv2_toInt l r
  | l :: r :: rest, i + 1 =>
    exact downmix_getD rest i (by simp only [List.length_cons] at hi; omega)

/-- Settles O22, by the library's answer. -/
theorem opusDecodeDownmixesOrCountsTheFailure : Obligations.OpusDecodeDownmixesOrCountsTheFailure := by
  unfold Obligations.OpusDecodeDownmixesOrCountsTheFailure
  intro payload s
  simp only [opusDecodeStage]
  cases (opusDecode s.opusDec payload).2 with
  | ok samples stereo =>
    refine ⟨rfl, ?_⟩
    cases stereo with
    | true => exact ⟨downmix_length samples, downmix_getD samples⟩
    | false => rfl
  | fail => exact congrArg (Prod.mk (zeros 960)) (callErrorAt_raiseWarning ..)

end Sys2Proof.Laws
end

section
/-! Settles O55: the length of a conversion (R310). -/

namespace Sys2Proof.Laws

open Sys2Proof.Machine

/-- Settles O55: each of the three paths of R311 builds one sample for each index of the request. -/
theorem convertReturnsExactlyTheRequest : Obligations.ConvertReturnsExactlyTheRequest := by
  unfold Obligations.ConvertReturnsExactlyTheRequest
  intro p inp src dst rs n
  exact convert_length p inp src dst rs n

end Sys2Proof.Laws
end

section
/-! Settles O48: the ceiling of the ingress output (43_ingress_dsp.md R356, R359). -/

namespace Sys2Proof.Laws

open Sys2Proof.Machine

/-! ## Rounding to an integer (R12) -/

theorem nearestEven_mono {m n : Nat} (h : m ≤ n) (den : Nat) : nearestEven m den ≤ nearestEven n den := by
  have hm := Nat.div_add_mod m den
  have hn := Nat.div_add_mod n den
  rcases Nat.lt_or_eq_of_le (Nat.div_le_div_right (c := den) h) with hlt | heq
  · unfold nearestEven
    split <;> split <;> omega
  · rw [heq] at hm
    unfold nearestEven
    rw [heq]
    split <;> split <;> omega

theorem toNearestInt_of_isNan {f : FloatFormat} {a : Nat} (h : isNan f a = true) : toNearestInt f a = 0 :=
  if_pos h

theorem natAbs_toNearestInt {f : FloatFormat} {a : Nat} (h : isNan f a = false) :
    (toNearestInt f a).natAbs = nearestEven (magUnits f (magOf f a)) (2 ^ f.unit) := by
  rw [toNearestInt, h, if_neg Bool.false_ne_true]
  split
  · rw [Int.natAbs_neg, Int.natAbs_natCast]
  · exact Int.natAbs_natCast _

theorem toNearestInt_of_le_inf {f : FloatFormat} (hf : SoundFormat f) {a : Nat} (ha : a ≤ f.inf) :
    toNearestInt f a = nearestEven (magUnits f a) (2 ^ f.unit) := by
  simp [toNearestInt, isNan_of_le_inf hf ha, signOf_of_le_inf hf ha, magOf_of_le_inf hf ha]

/-- The word has no value beyond `c` on either side: it is a NaN, or its magnitude is at most `c`. -/
def MagAtMost (v c : F32) : Prop := isNan binary32 v.toNat = true ∨ magOf binary32 v.toNat ≤ c.toNat

/-- What is within a legal ceiling is within the ceiling's sample when converted (R12): no saturation
separates the two signs. -/
theorem natAbs_f32ToI16_le {v c : F32} (hv : MagAtMost v c) (hc : c.toNat ≤ (f32OfInt 32767).toNat) :
    (f32ToI16 v).toInt.natAbs ≤ (f32ToI16 c).toInt.natAbs := by
  have hinf : c.toNat ≤ binary32.inf := hc.trans (by decide)
  have hceil := toNearestInt_of_le_inf soundFormat_binary32 hinf
  have hlargest : nearestEven (magUnits binary32 c.toNat) (2 ^ binary32.unit) ≤ 32767 :=
    (nearestEven_mono (magUnits_mono binary32 hc) _).trans (by decide +kernel)
  have hround : (toNearestInt binary32 v.toNat).natAbs
      ≤ nearestEven (magUnits binary32 c.toNat) (2 ^ binary32.unit) := by
    cases hnan : isNan binary32 v.toNat
    · rw [natAbs_toNearestInt hnan]
      have hmag : magOf binary32 v.toNat ≤ c.toNat := hv.resolve_left (by simp [hnan])
      exact nearestEven_mono (magUnits_mono binary32 hmag) _
    · rw [toNearestInt_of_isNan hnan]
      exact Nat.zero_le _
  rw [f32ToI16, f32ToI16, sat16_toInt_of_mem (by omega) (by omega), sat16_toInt_of_mem (by omega) (by omega)]
  omega

/-! ## The hard clip (R13, R356) -/

theorem f32Lt_of_unordered {a b : F32} (h : f32Unordered a b = true) : f32Lt a b = false := by
  simp only [f32Unordered, Bool.or_eq_true] at h
  rcases h with h | h <;> simp [f32Lt, ltPattern, h]

theorem f32Either_eq_or (a b : F32) : f32Either a b = a ∨ f32Either a b = b := by
  unfold f32Either
  split <;> simp

/-- `max` answers its second operand, or its first where that is not the smaller one; on a NaN neither is. -/
theorem f32Max_eq_or (a b : F32) : f32Max a b = b ∨ f32Max a b = a ∧ f32Lt a b = false := by
  unfold f32Max
  cases hnan : f32Unordered a b
  · cases hlt : f32Lt a b <;> simp
  · rw [if_pos rfl, f32Lt_of_unordered hnan]
    rcases f32Either_eq_or a b with h | h <;> simp [h]

/-- `min` answers its second operand, or its first where that is not the greater one; on a NaN neither is. -/
theorem f32Min_eq_or (a b : F32) : f32Min a b = b ∨ f32Min a b = a ∧ f32Lt b a = false := by
  unfold f32Min
  cases hnan : f32Unordered a b
  · cases hlt : f32Lt b a <;> simp
  · have hba : f32Unordered b a = true := by rwa [f32Unordered, Bool.or_comm]
    rw [if_pos rfl, f32Lt_of_unordered hba]
    rcases f32Either_eq_or a b with h | h <;> simp [h]

theorem f32Neg_toNat (a : F32) : (f32Neg a).toNat = negPattern binary32 a.toNat :=
  Nat.mod_eq_of_lt (withSign_lt (f := binary32) (Nat.mod_lt _ (Nat.two_pow_pos _)) _)

theorem magOf_f32Neg (a : F32) : magOf binary32 (f32Neg a).toNat = magOf binary32 a.toNat := by
  rw [f32Neg_toNat]
  exact magOf_withSign (Nat.mod_lt _ (Nat.two_pow_pos _)) _

theorem unitsOf_f32Neg (a : F32) : unitsOf binary32 (f32Neg a).toNat = -unitsOf binary32 a.toNat := by
  rw [f32Neg_toNat, unitsOf_negPattern]

theorem natAbs_unitsOf (f : FloatFormat) (a : Nat) : (unitsOf f a).natAbs = magUnits f (magOf f a) := by
  unfold unitsOf
  split <;> simp

/-- What is neither below `-c` nor above `c` has no value beyond `c`. -/
theorem magAtMost_of_between {w c : F32} (hc : c.toNat ≤ binary32.inf) (hlow : f32AtMost (f32Neg c) w = true)
    (hhigh : f32AtMost w c = true) : MagAtMost w c := by
  have hmag := magOf_of_le_inf soundFormat_binary32 hc
  cases hnan : isNan binary32 w.toNat
  · have hw : magOf binary32 w.toNat ≤ binary32.inf := not_lt.mp (of_decide_eq_false hnan)
    rw [f32AtMost_iff (by rwa [magOf_f32Neg, hmag]) hw, unitsOf_f32Neg] at hlow
    rw [f32AtMost_iff hw (by rwa [hmag])] at hhigh
    rw [unitsOf_of_le_inf soundFormat_binary32 hc] at hlow hhigh
    have habs := natAbs_unitsOf binary32 w.toNat
    exact .inr ((magUnits_strictMono binary32).le_iff_le.mp (by omega))
  · exact .inl hnan

/-- The clip leaves no value beyond the ceiling, whichever operand `max` and `min` answer on a NaN. -/
theorem clip_magAtMost (w : F32) {c : F32} (hc : c.toNat ≤ binary32.inf) :
    MagAtMost (f32Min (f32Max w (f32Neg c)) c) c := by
  have hmag := magOf_of_le_inf soundFormat_binary32 hc
  rcases f32Min_eq_or (f32Max w (f32Neg c)) c with hmin | ⟨hmin, hhigh⟩
  · exact .inr (by rw [hmin, hmag])
  · rw [hmin]
    rcases f32Max_eq_or w (f32Neg c) with hmax | ⟨hmax, hlow⟩
    · exact .inr (by rw [hmax, magOf_f32Neg, hmag])
    · rw [hmax] at hhigh ⊢
      exact magAtMost_of_between hc (by simp [f32AtMost, hlow]) (by simp [f32AtMost, hhigh])

theorem ingCeil_le_of_legalParams {p : Params} (h : legalParams p = true) :
    p.ingCeil.toNat ≤ (f32OfInt 32767).toNat := by
  obtain ⟨-, hingress, -⟩ := legalParams_parts h
  simp only [legalIngress, Bool.and_eq_true, and_assoc] at hingress
  obtain ⟨-, -, -, -, -, -, -, -, -, -, -, -, -, -, -, -, -, hpos, hle⟩ := hingress
  exact (f32AtMost_of_le_inf (toNat_of_f32Positive hpos).2.le (by decide)).mp hle

/-- Every sample behind the gain and the clip is within the ceiling's, whatever the gain (R356). -/
theorem gainAndLimit_le {p : Params} (h : legalParams p = true) (gain y : F32) :
    (gainAndLimit p gain y).toInt.natAbs ≤ (f32ToI16 p.ingCeil).toInt.natAbs := by
  have hceil := ingCeil_le_of_legalParams h
  exact natAbs_f32ToI16_le (clip_magAtMost _ (hceil.trans (by decide))) hceil

/-! ## The chain (R350, R357) -/

/-- What the chain does to a frame that leaves the gate closed (R350, R357). -/
theorem ingressDsp_closed {p : Params} {d : IngressDspState} {x : Frame}
    (hclosed : (ingressDsp p d x).2.gateOpen = false) :
    ingressDsp p d x = (zeros x.length, gateStage p d x) := by
  unfold ingressDsp at hclosed ⊢
  dsimp only at hclosed ⊢
  split at hclosed
  · rename_i hgate
    exact absurd (hclosed.symm.trans hgate) Bool.false_ne_true
  · rename_i hgate
    rw [if_neg hgate]

/-- Settles O48: a closed gate puts out zeros, and behind an open one every sample is clipped. -/
theorem ingressOutputIsWithinItsCeiling : Obligations.IngressOutputIsWithinItsCeiling := by
  unfold Obligations.IngressOutputIsWithinItsCeiling
  refine ⟨by decide +kernel, fun p d x hp v hv => ?_⟩
  cases hgate : (ingressDsp p d x).2.gateOpen
  · rw [ingressDsp_closed hgate] at hv
    rw [List.eq_of_mem_replicate hv]
    exact Nat.zero_le _
  · rw [ingressDsp_open hgate] at hv
    obtain ⟨y, -, rfl⟩ := List.mem_map.mp hv
    exact gainAndLimit_le hp _ y

end Sys2Proof.Laws
end

section
/-! Settles O49: what runs on every frame, and what a closed gate leaves alone (43_ingress_dsp.md R350, R357). -/

namespace Sys2Proof.Laws

open Sys2Proof.Machine

/-- The chain keeps a frame's length (R350). -/
@[simp] theorem ingressDsp_length (p : Params) (d : IngressDspState) (x : Frame) :
    (ingressDsp p d x).1.length = x.length := by
  cases hgate : (ingressDsp p d x).2.gateOpen
  · rw [ingressDsp_closed hgate, zeros, List.length_replicate]
  · rw [ingressDsp_open hgate, applyGainAndLimit_length, dcAndPreemphasis_length]

/-- After the filters and the gate the chain writes the AGC's two elements alone (R350). -/
theorem ingressDsp_writes (p : Params) (d : IngressDspState) (x : Frame) :
    ∃ estimate gain,
      (ingressDsp p d x).2 = { gateStage p d x with rmsEstimate := estimate, agcGain := gain } := by
  cases hgate : (ingressDsp p d x).2.gateOpen
  · rw [ingressDsp_closed hgate]
    exact ⟨_, _, rfl⟩
  · rw [ingressDsp_open hgate]
    exact ⟨_, _, rfl⟩

/-- The gate leaves the filters' elements alone (R354). -/
theorem gateStage_filters (p : Params) (d : IngressDspState) (x : Frame) :
    (gateStage p d x).dcEstimate = (dcAndPreemphasis p d x).2.dcEstimate
      ∧ (gateStage p d x).preemphasisPrev = (dcAndPreemphasis p d x).2.preemphasisPrev := by
  obtain ⟨opened, n, hgate⟩ :=
    gateUpdate_writes p (dcAndPreemphasis p d x).2 (frameRms (dcAndPreemphasis p d x).1)
  rw [gateStage, hgate]
  exact ⟨rfl, rfl⟩

/-- Settles O49: the gate's half of the chain runs on every frame, and with a closed gate it is the whole
chain. -/
theorem closedGateMutesAndFreezesTheAgc : Obligations.ClosedGateMutesAndFreezesTheAgc := by
  unfold Obligations.ClosedGateMutesAndFreezesTheAgc
  intro p d x r filtered gate
  obtain ⟨estimate, gain, hstate⟩ : ∃ estimate gain,
    r.2 = { gateStage p d x with rmsEstimate := estimate, agcGain := gain } := ingressDsp_writes p d x
  obtain ⟨hdc, hpre⟩ := gateStage_filters p d x
  refine ⟨ingressDsp_length p d x, ?_, ?_, ?_, ?_, fun hclosed => ?_⟩
  · rw [hstate]
    exact hdc
  · rw [hstate]
    exact hpre
  · rw [hstate]
    rfl
  · rw [hstate]
    rfl
  · have hmuted : r = (zeros x.length, gateStage p d x) := ingressDsp_closed hclosed
    rw [hmuted]
    exact ⟨rfl, gateStage_agc p d x⟩

end Sys2Proof.Laws
end

section
/-! Settles O50: the noise gate and its hold (43_ingress_dsp.md R354). -/

namespace Sys2Proof.Laws

open Sys2Proof.Machine

/-! ## The gate on one frame -/

section
variable {p : Params} {d : IngressDspState} {rms : F32}

/-- An open gate counts a quiet frame while the count stays below the hold. -/
theorem gateUpdate_holds (hopen : d.gateOpen = true) (hquiet : f32Lt rms p.gateClose = true)
    (hhold : (satInc d.gateHoldCounter).toNat < p.gateHold) :
    gateUpdate p d rms = { d with gateHoldCounter := satInc d.gateHoldCounter } := by
  rw [gateUpdate, if_pos hopen, if_pos hquiet, if_neg hhold.not_ge]

/-- An open gate closes on the quiet frame that brings the count to the hold. -/
theorem gateUpdate_closes (hopen : d.gateOpen = true) (hquiet : f32Lt rms p.gateClose = true)
    (hhold : p.gateHold ≤ (satInc d.gateHoldCounter).toNat) :
    gateUpdate p d rms = { d with gateOpen := false, gateHoldCounter := 0#32 } := by
  rw [gateUpdate, if_pos hopen, if_pos hquiet, if_pos hhold]

/-- A frame that is not quiet starts an open gate's count again. -/
theorem gateUpdate_restarts (hopen : d.gateOpen = true) (hloud : f32Lt rms p.gateClose = false) :
    gateUpdate p d rms = { d with gateHoldCounter := 0#32 } := by
  rw [gateUpdate, if_pos hopen, hloud, if_neg Bool.false_ne_true]

/-- A closed gate opens exactly on a frame above the open threshold. -/
theorem gateUpdate_opens_iff (hclosed : d.gateOpen = false) :
    (gateUpdate p d rms).gateOpen = true ↔ f32Lt p.gateOpen rms = true := by
  rw [gateUpdate, hclosed, if_neg Bool.false_ne_true]
  split
  · rename_i hloud
    exact iff_of_true rfl hloud
  · rename_i hquiet
    exact iff_of_false (by simp [hclosed]) hquiet
end

/-! ## Consecutive quiet frames -/

/-- Through fewer quiet frames than the hold asks for the gate stays open and counts them. -/
theorem gateUpdate_foldl_holds {p : Params} (hu32 : p.gateHold < 2 ^ 32) {quiet : List F32}
    (hquiet : ∀ q ∈ quiet, f32Lt q p.gateClose = true) {d : IngressDspState} (hopen : d.gateOpen = true)
    (hfew : d.gateHoldCounter.toNat + quiet.length < p.gateHold) :
    (quiet.foldl (gateUpdate p) d).gateOpen = true
      ∧ (quiet.foldl (gateUpdate p) d).gateHoldCounter.toNat = d.gateHoldCounter.toNat + quiet.length := by
  induction quiet generalizing d with
  | nil => exact ⟨hopen, rfl⟩
  | cons q quiet ih =>
    rw [List.forall_mem_cons] at hquiet
    obtain ⟨hq, hquiet⟩ := hquiet
    rw [List.length_cons] at hfew ⊢
    have hcount := satInc_toNat d.gateHoldCounter
    rw [List.foldl_cons, gateUpdate_holds hopen hq (by omega)]
    obtain ⟨hopen', hcount'⟩ :=
      ih hquiet (d := { d with gateHoldCounter := satInc d.gateHoldCounter }) hopen (by dsimp only; omega)
    exact ⟨hopen', hcount'.trans (by dsimp only; omega)⟩

/-- The quiet frame that brings the count to the hold closes the gate and clears the count. -/
theorem gateUpdate_foldl_closes {p : Params} (hpos : 1 ≤ p.gateHold) (hu32 : p.gateHold < 2 ^ 32)
    {quiet : List F32} (hquiet : ∀ q ∈ quiet, f32Lt q p.gateClose = true) {d : IngressDspState}
    (hopen : d.gateOpen = true) (hcount : d.gateHoldCounter = 0#32) (hlen : quiet.length = p.gateHold) :
    (quiet.foldl (gateUpdate p) d).gateOpen = false
      ∧ (quiet.foldl (gateUpdate p) d).gateHoldCounter = 0#32 := by
  rcases List.eq_nil_or_concat' quiet with rfl | ⟨before, last, rfl⟩
  · rw [List.length_nil] at hlen
    omega
  · rw [List.length_append, List.length_singleton] at hlen
    rw [List.forall_mem_append] at hquiet
    obtain ⟨hbefore, hlast⟩ := hquiet
    have hzero : d.gateHoldCounter.toNat = 0 := by rw [hcount]; rfl
    obtain ⟨hopen', hcount'⟩ := gateUpdate_foldl_holds hu32 hbefore hopen (by omega)
    have hnext := satInc_toNat (before.foldl (gateUpdate p) d).gateHoldCounter
    rw [List.foldl_append, List.foldl_cons, List.foldl_nil,
      gateUpdate_closes hopen' (hlast last (List.mem_singleton_self _)) (by omega)]
    exact ⟨rfl, rfl⟩

theorem gateHold_range {p : Params} (h : legalParams p = true) : 1 ≤ p.gateHold ∧ p.gateHold < 2 ^ 32 := by
  obtain ⟨-, hingress, -⟩ := legalParams_parts h
  simp only [legalIngress, isU32, Bool.and_eq_true, decide_eq_true_eq, and_assoc] at hingress
  obtain ⟨-, -, -, -, -, -, -, hpos, hu32, -⟩ := hingress
  exact ⟨hpos, hu32⟩

/-- Settles O50: the hold by induction on the quiet frames, the rest by the gate's cases on one frame. -/
theorem gateClosesOnlyAfterTheHold : Obligations.GateClosesOnlyAfterTheHold := by
  unfold Obligations.GateClosesOnlyAfterTheHold
  intro p d quiet rms hp
  obtain ⟨hpos, hu32⟩ := gateHold_range hp
  refine ⟨fun hopen hcount hquiet => ⟨fun hfew => ?_, fun hlen => ?_⟩, gateUpdate_restarts, gateUpdate_opens_iff⟩
  · have hzero : d.gateHoldCounter.toNat = 0 := by rw [hcount]; rfl
    obtain ⟨hopen', hcount'⟩ := gateUpdate_foldl_holds hu32 hquiet hopen (by omega)
    exact ⟨hopen', by omega⟩
  · exact gateUpdate_foldl_closes hpos hu32 hquiet hopen hcount hlen

end Sys2Proof.Laws
end

section
/-! SUPPORT. The operations of binary32 on finite words of either sign (00_scope.md R12, R13): the magnitude of
the result, how far its rounding goes, and the sample it is converted to. -/

namespace Sys2Proof.Laws

open Sys2Proof.Machine

/-! ## The magnitude of a result -/

theorem magOf_f32Of_withSign {a b : F32} {m : Nat} (hm : m ≤ binary32.inf) (negative : Bool) :
    magOf binary32 (f32Of a b (some (withSign binary32 negative m))).toNat = m := by
  have hsign : m < 2 ^ binary32.sign := hm.trans_lt (by decide)
  rw [f32Of_toNat (withSign_lt hsign negative), magOf_withSign hsign]

/-- A quotient of finite patterns without a sign. -/
theorem divPattern_of_lt_inf {f : FloatFormat} (hf : SoundFormat f) {a b : Nat} (ha : a < f.inf) (hb : 0 < b)
    (hb' : b < f.inf) :
    divPattern f a b = some (roundMag f (magUnits f a * 2 ^ f.unit) (magUnits f b)) := by
  simp only [divPattern, isNan_of_le_inf hf ha.le, isNan_of_le_inf hf hb'.le, isInf, isZero,
    magOf_of_le_inf hf ha.le, magOf_of_le_inf hf hb'.le, signOf_of_le_inf hf ha.le, signOf_of_le_inf hf hb'.le,
    ha.ne, hb'.ne, hb.ne', decide_false, Bool.false_eq_true, Bool.or_false, Bool.and_false, if_false,
    bne_self_eq_false, withSign_false]

section
variable {a b : F32}

/-- The product of two finite words is no NaN. -/
theorem magOf_f32Mul (ha : magOf binary32 a.toNat < binary32.inf) (hb : magOf binary32 b.toNat < binary32.inf) :
    magOf binary32 (f32Mul a b).toNat = roundMag binary32
      (magUnits binary32 (magOf binary32 a.toNat) * magUnits binary32 (magOf binary32 b.toNat))
      (2 ^ binary32.unit) := by
  rw [f32Mul, mulPattern_finite ha hb]
  exact magOf_f32Of_withSign (roundMag_le_inf ..) _

theorem magOf_f32Add (ha : magOf binary32 a.toNat < binary32.inf) (hb : magOf binary32 b.toNat < binary32.inf) :
    magOf binary32 (f32Add a b).toNat =
      roundMag binary32 (unitsOf binary32 a.toNat + unitsOf binary32 b.toNat).natAbs 1 := by
  rw [f32Add, addPattern_finite soundFormat_binary32 ha hb]
  exact magOf_f32Of_withSign (roundMag_le_inf ..) _

theorem f32Mul_toNat (ha : a.toNat < binary32.inf) (hb : b.toNat < binary32.inf) :
    (f32Mul a b).toNat = roundMag binary32 (magUnits binary32 a.toNat * magUnits binary32 b.toNat)
      (2 ^ binary32.unit) := by
  have hmul := mulPattern_of_lt_inf soundFormat_binary32 ha hb false
  rw [withSign_false, withSign_false] at hmul
  rw [f32Mul, hmul]
  exact f32Of_toNat ((roundMag_le_inf ..).trans_lt (by decide))

theorem f32Mul_comm (ha : a.toNat < binary32.inf) (hb : b.toNat < binary32.inf) : f32Mul a b = f32Mul b a :=
  BitVec.eq_of_toNat_eq (by rw [f32Mul_toNat ha hb, f32Mul_toNat hb ha, Nat.mul_comm])

theorem f32Sub_toNat (ha : a.toNat < binary32.inf) (hba : b.toNat ≤ a.toNat) :
    (f32Sub a b).toNat = roundMag binary32 (magUnits binary32 a.toNat - magUnits binary32 b.toNat) 1 := by
  rw [f32Sub, negPattern_eq soundFormat_binary32 (hba.trans ha.le),
    addPattern_neg_of_le soundFormat_binary32 ha hba]
  exact f32Of_toNat ((roundMag_le_inf ..).trans_lt (by decide))

theorem f32Sub_le (ha : a.toNat < binary32.inf) (hba : b.toNat ≤ a.toNat) : (f32Sub a b).toNat ≤ a.toNat := by
  rw [f32Sub_toNat ha hba]
  exact roundMag_sub_le soundFormat_binary32 ha.le _

/-- The difference from a larger word, an infinite one among them, has the sign bit. -/
theorem f32Sub_of_lt (hb : b.toNat ≤ binary32.inf) (hab : a.toNat < b.toNat) :
    ∃ m, m ≤ binary32.inf ∧ (f32Sub a b).toNat = withSign binary32 true m := by
  have ha : a.toNat < binary32.inf := hab.trans_le hb
  rw [f32Sub, negPattern_eq soundFormat_binary32 hb]
  rcases Nat.lt_or_eq_of_le hb with hfinite | hinf
  · rw [addPattern_neg_of_lt soundFormat_binary32 hfinite hab]
    exact ⟨_, roundMag_le_inf _ _ _, f32Of_toNat (withSign_lt ((roundMag_le_inf ..).trans_lt (by decide)) true)⟩
  · rw [hinf]
    refine ⟨binary32.inf, le_rfl, ?_⟩
    have hmag : magOf binary32 a.toNat = a.toNat := magOf_of_le_inf soundFormat_binary32 ha.le
    simp only [addPattern, isNan, isInf, hmag, ha.not_gt, ha.ne, decide_false]
    rfl

theorem f32Div_toNat (ha : a.toNat < binary32.inf) (hb : 0 < b.toNat) (hb' : b.toNat < binary32.inf) :
    (f32Div a b).toNat = roundMag binary32 (magUnits binary32 a.toNat * 2 ^ binary32.unit)
      (magUnits binary32 b.toNat) := by
  rw [f32Div, divPattern_of_lt_inf soundFormat_binary32 ha hb hb']
  exact f32Of_toNat ((roundMag_le_inf ..).trans_lt (by decide))
end

/-! ## Quotients up to 1.0 -/

theorem magUnits_f32One : magUnits binary32 f32One.toNat = 2 ^ binary32.unit :=
  magUnits_onePattern soundFormat_binary32

/-- A fraction that is at least a value of the format is rounded to at least its pattern. -/
theorem le_roundMag_div {f : FloatFormat} (hf : 1 ≤ f.mant) {num den q : Nat} (hden : 0 < den)
    (hq : q ≤ f.inf) (h : magUnits f q * den ≤ num) : q ≤ roundMag f num den := by
  have := roundMag_mono hf Nat.one_pos hden (num := magUnits f q) (num' := num) (by omega)
  rwa [roundMag_exact hf hq] at this

theorem magUnits_pos {f : FloatFormat} {q : Nat} (hq : 0 < q) : 0 < magUnits f q := by
  simpa using magUnits_strictMono f hq

/-- Neighbours are apart by at least `2 ^ -(mant + 1)` of the larger one. -/
theorem magUnits_succ_le_gap (f : FloatFormat) (p : Nat) :
    2 ^ (f.mant + 1) * magUnits f p + magUnits f (p + 1) ≤ 2 ^ (f.mant + 1) * magUnits f (p + 1) := by
  obtain ⟨s, m, rfl, hm, hs⟩ := exists_binade f p
  rw [Nat.add_assoc, magUnits_binade f hm.le hs, magUnits_binade f hm (by omega)]
  have := Nat.mul_le_mul_right (2 ^ s) (Nat.succ_le_of_lt hm)
  nlinarith

section
variable {a b : F32} (hb : 0 < b.toNat) (hb' : b.toNat < binary32.inf)
include hb hb'

theorem f32Div_le_one (hab : a.toNat ≤ b.toNat) : (f32Div a b).toNat ≤ f32One.toNat := by
  rw [f32Div_toNat (hab.trans_lt hb') hb hb']
  refine roundMag_div_le (by decide) (magUnits_pos hb) (by decide) ?_
  rw [magUnits_f32One, Nat.mul_comm]
  exact Nat.mul_le_mul_left _ (magUnits_mono binary32 hab)

theorem f32Div_eq_one (hab : a.toNat = b.toNat) : f32Div a b = f32One := by
  refine BitVec.eq_of_toNat_eq (le_antisymm (f32Div_le_one hb hb' hab.le) ?_)
  rw [f32Div_toNat (hab.trans_lt hb') hb hb']
  refine le_roundMag_div (by decide) (magUnits_pos hb) (by decide) ?_
  rw [magUnits_f32One, hab, Nat.mul_comm]

/-- The value just below 1.0 is above every quotient of a smaller word by a larger one: neighbours are closest
together, next to their values, just below a power of two. -/
theorem f32Div_lt_one (hab : a.toNat < b.toNat) : (f32Div a b).toNat < f32One.toNat := by
  obtain ⟨c, hc⟩ := Nat.exists_eq_add_of_lt hab
  have hvalue : magUnits binary32 a.toNat ≤ magUnits binary32 (b.toNat - 1) := magUnits_mono binary32 (by omega)
  have hgap := magUnits_succ_le_gap binary32 (b.toNat - 1)
  rw [Nat.sub_add_cancel hb] at hgap
  refine Nat.lt_of_le_sub_one (by decide) ?_
  rw [f32Div_toNat (hab.trans hb') hb hb']
  refine roundMag_div_le (by decide) (magUnits_pos hb) (by decide) ?_
  rw [show magUnits binary32 (f32One.toNat - 1) = 2 ^ 149 - 2 ^ 125 by decide +kernel,
    show binary32.unit = 149 from rfl]
  rw [show binary32.mant = 23 from rfl] at hgap
  omega
end

/-! ## Whole numbers (R12) -/

theorem f32OfInt_natCast_toNat (n : Nat) :
    (f32OfInt n).toNat = roundMag binary32 (n * 2 ^ binary32.unit) 1 := by
  rw [f32OfInt, ofIntPattern_natCast, BitVec.toNat_ofNat]
  exact Nat.mod_eq_of_lt ((roundMag_le_inf ..).trans_lt (by decide))

theorem f32OfInt_natCast_mono {n m : Nat} (h : n ≤ m) : (f32OfInt n).toNat ≤ (f32OfInt m).toNat := by
  rw [f32OfInt_natCast_toNat, f32OfInt_natCast_toNat]
  exact roundMag_mono (by decide) Nat.one_pos Nat.one_pos
    (Nat.mul_le_mul_right _ (Nat.mul_le_mul_right _ h))

/-- A u32 is finite in binary32. -/
theorem f32OfInt_natCast_lt_inf {n : Nat} (h : n < 2 ^ 32) : (f32OfInt n).toNat < binary32.inf :=
  (f32OfInt_natCast_mono h.le).trans_lt (by decide +kernel)

theorem f32OfInt_natCast_pos {n : Nat} (h : 0 < n) : 0 < (f32OfInt n).toNat :=
  lt_of_lt_of_le (by decide +kernel) (f32OfInt_natCast_mono (Nat.succ_le_of_lt h))

/-- The quotient of a count by a larger one is at most 1.0: the weights of the ramps and the crossfade. -/
theorem f32Div_count_le_one {n m : Nat} (hnm : n ≤ m) (hpos : 0 < m) (hu32 : m < 2 ^ 32) :
    (f32Div (f32OfInt n) (f32OfInt m)).toNat ≤ f32One.toNat :=
  f32Div_le_one (f32OfInt_natCast_pos hpos) (f32OfInt_natCast_lt_inf hu32) (f32OfInt_natCast_mono hnm)

/-! ## Bounded words -/

/-- The word is finite, and its magnitude is at most `bound` units. -/
structure FiniteWithin (v : F32) (bound : Nat) : Prop where
  finite : magOf binary32 v.toNat < binary32.inf
  within : magUnits binary32 (magOf binary32 v.toNat) ≤ bound

/-- The values below 2^16, by the largest of them. -/
def smallLimit : Nat := 2 ^ 165 - 2 ^ 141

/-- The last place of the largest value below 2^16. -/
def smallPlace : Nat := 2 ^ 141

theorem exists_smallLimit : ∃ q, magUnits binary32 q = smallLimit
    ∧ magUnits binary32 (q + 1) = smallLimit + smallPlace ∧ q + 1 < binary32.inf :=
  ⟨0x477FFFFF, by decide +kernel, by decide +kernel, by decide⟩

/-- 32768 and eight places more are small. -/
theorem smallLimit_ge : 2 ^ 15 * 2 ^ binary32.unit + 8 * smallPlace ≤ smallLimit := by
  decide +kernel

theorem FiniteWithin.mono {v : F32} {bound bound' : Nat} (h : FiniteWithin v bound) (hle : bound ≤ bound') :
    FiniteWithin v bound' := ⟨h.finite, h.within.trans hle⟩

theorem finiteWithin_of_lt_inf {v : F32} (h : v.toNat < binary32.inf) :
    FiniteWithin v (magUnits binary32 v.toNat) := by
  have hmag := magOf_of_le_inf soundFormat_binary32 h.le
  exact ⟨by rwa [hmag], by rw [hmag]⟩

/-- A sample is exact in binary32 (R12). -/
theorem finiteWithin_f32OfSample (s : Sample) :
    FiniteWithin (f32OfSample s) (s.toInt.natAbs * 2 ^ binary32.unit) := by
  have hs := sample_natAbs_lt s
  obtain ⟨q, hq, hvalue, hpattern⟩ := exists_ofIntPattern holdsInt16_binary32 hs
  have hmag : magOf binary32 (f32OfSample s).toNat = q := by
    rw [f32OfSample, f32OfInt_toNat hs, hpattern, magOf_withSign (hq.trans (by decide))]
  exact ⟨by rwa [hmag], by rw [hmag, hvalue]⟩

/-- A factor of at most 1.0 does not enlarge a word. -/
theorem FiniteWithin.mul_of_le_one {a b : F32} {bound : Nat} (ha : FiniteWithin a bound)
    (hb : b.toNat ≤ f32One.toNat) : FiniteWithin (f32Mul a b) bound := by
  have hb' : b.toNat < binary32.inf := hb.trans_lt (by decide)
  have hmag := magOf_of_le_inf soundFormat_binary32 hb'.le
  have hle : magOf binary32 (f32Mul a b).toNat ≤ magOf binary32 a.toNat := by
    rw [magOf_f32Mul ha.finite (by rwa [hmag]), hmag, Nat.mul_comm]
    exact roundMag_mul_le soundFormat_binary32 hb ha.finite.le
  exact ⟨hle.trans_lt ha.finite, (magUnits_mono binary32 hle).trans ha.within⟩

/-- A rounding errs by no more than the last place of any value above the fraction. -/
theorem roundMag_div_error {f : FloatFormat} (hf : 1 ≤ f.mant) {num den q : Nat} (hden : 0 < den)
    (h : num ≤ den * magUnits f q) :
    roundMag f num den ≤ q + 1
      ∧ den * (magUnits f (roundMag f num den) + magUnits f q) ≤ num + den * magUnits f (q + 1) := by
  obtain ⟨p, ⟨hlow, -⟩, hround⟩ := roundMag_brackets hf num hden
  have hp : p ≤ q := (magUnits_strictMono f).le_iff_le.mp (Nat.le_of_mul_le_mul_left (hlow.trans h) hden)
  have hup : roundMag f num den ≤ p + 1 := by omega
  refine ⟨by omega, ?_⟩
  calc den * (magUnits f (roundMag f num den) + magUnits f q)
      ≤ den * (magUnits f (p + 1) + magUnits f q) :=
        Nat.mul_le_mul_left _ (Nat.add_le_add_right (magUnits_mono f hup) _)
    _ ≤ den * (magUnits f p + magUnits f (q + 1)) := Nat.mul_le_mul_left _ (magUnits_gap_mono hp)
    _ ≤ num + den * magUnits f (q + 1) := by
      rw [Nat.mul_add]
      exact Nat.add_le_add_right hlow _

/-- A rounding to a small value errs by no more than a small place. -/
theorem roundMag_small {num den : Nat} (hden : 0 < den) (h : num ≤ den * smallLimit) :
    roundMag binary32 num den < binary32.inf
      ∧ den * magUnits binary32 (roundMag binary32 num den) ≤ num + den * smallPlace := by
  obtain ⟨q, hlimit, hnext, hq⟩ := exists_smallLimit
  rw [← hlimit] at h
  obtain ⟨hle, herror⟩ := roundMag_div_error (f := binary32) (by decide) hden h
  rw [hnext, hlimit, Nat.mul_add, Nat.mul_add] at herror
  exact ⟨hle.trans_lt hq, by omega⟩

/-- A small product, rounded. -/
theorem FiniteWithin.mul {a b : F32} {x y : Nat} (ha : FiniteWithin a x) (hb : FiniteWithin b y)
    (h : x * y ≤ 2 ^ binary32.unit * smallLimit) :
    ∃ z, FiniteWithin (f32Mul a b) z ∧ 2 ^ binary32.unit * z ≤ x * y + 2 ^ binary32.unit * smallPlace := by
  have hxy := Nat.mul_le_mul ha.within hb.within
  obtain ⟨hfinite, hvalue⟩ := roundMag_small (Nat.two_pow_pos binary32.unit) (hxy.trans h)
  rw [← magOf_f32Mul ha.finite hb.finite] at hfinite hvalue
  exact ⟨_, ⟨hfinite, le_rfl⟩, hvalue.trans (Nat.add_le_add_right hxy _)⟩

/-- A small sum, rounded. -/
theorem FiniteWithin.add {a b : F32} {x y : Nat} (ha : FiniteWithin a x) (hb : FiniteWithin b y)
    (h : x + y ≤ smallLimit) : FiniteWithin (f32Add a b) (x + y + smallPlace) := by
  have hsum : (unitsOf binary32 a.toNat + unitsOf binary32 b.toNat).natAbs ≤ x + y := by
    have hx := natAbs_unitsOf binary32 a.toNat ▸ ha.within
    have hy := natAbs_unitsOf binary32 b.toNat ▸ hb.within
    omega
  obtain ⟨hfinite, hvalue⟩ := roundMag_small Nat.one_pos ((hsum.trans h).trans_eq (Nat.one_mul _).symm)
  rw [← magOf_f32Add ha.finite hb.finite] at hfinite hvalue
  rw [Nat.one_mul, Nat.one_mul] at hvalue
  exact ⟨hfinite, hvalue.trans (Nat.add_le_add_right hsum _)⟩

/-! ## Conversion to a sample (R12) -/

theorem natAbs_sat16_le (n : Int) : (sat16 n).toInt.natAbs ≤ n.natAbs := by
  have hclamp : (sat16 n).toInt = max (-32768) (min n 32767) := by
    rw [sat16, BitVec.toInt_ofInt_eq_self (by decide) (by omega) (by omega)]
  omega

/-- What is within less than half of a whole number beyond `n` is converted to a sample within `n`. -/
theorem FiniteWithin.natAbs_toI16_le {v : F32} {n : Nat}
    (h : FiniteWithin v (n * 2 ^ binary32.unit + 8 * smallPlace)) : (f32ToI16 v).toInt.natAbs ≤ n := by
  refine (natAbs_sat16_le _).trans ?_
  have hnan : isNan binary32 v.toNat = false := decide_eq_false h.finite.not_gt
  rw [natAbs_toNearestInt hnan]
  refine (nearestEven_mono h.within _).trans ?_
  have hsmall : 2 * (8 * smallPlace) < 2 ^ binary32.unit := by decide +kernel
  have hdiv : (n * 2 ^ binary32.unit + 8 * smallPlace) / 2 ^ binary32.unit = n := by
    rw [Nat.mul_comm, Nat.mul_add_div (Nat.two_pow_pos _), Nat.div_eq_of_lt (by omega), Nat.add_zero]
  have hmod : (n * 2 ^ binary32.unit + 8 * smallPlace) % 2 ^ binary32.unit = 8 * smallPlace := by
    rw [Nat.mul_comm, Nat.mul_add_mod, Nat.mod_eq_of_lt (by omega)]
  rw [nearestEven, hdiv, hmod, if_neg (by omega)]

/-- A sample times a factor of at most 1.0 is within the sample: ramps and replayed frames (R395, R470). -/
theorem natAbs_scaledSample_le (s : Sample) {gain : F32} (h : gain.toNat ≤ f32One.toNat) :
    (f32ToI16 (f32Mul (f32OfSample s) gain)).toInt.natAbs ≤ s.toInt.natAbs :=
  (((finiteWithin_f32OfSample s).mul_of_le_one h).mono (Nat.le_add_right _ _)).natAbs_toI16_le

end Sys2Proof.Laws
end

section
/-! SUPPORT. The stages of the egress chain (44_egress_dsp.md R391 to R395): the legal constants, the faded frame, the
soft knee and the ramp. -/

namespace Sys2Proof.Laws

open Sys2Proof.Machine

/-! ## What the legal constants give (R7) -/

theorem f32Lt_trans {a b c : F32} (hab : f32Lt a b = true) (hbc : f32Lt b c = true) : f32Lt a c = true := by
  simp only [f32Lt, ltPattern, Bool.and_eq_true, decide_eq_true_eq] at *
  exact ⟨⟨hab.1.1, hbc.1.2⟩, hab.2.trans hbc.2⟩

/-- What the legal constants say of the egress chain (R7), the limiter's as patterns. -/
structure EgressLegal (p : Params) : Prop where
  fadeIn : p.fadeInLen < 2 ^ 32
  threshold : 0 < p.limT.toNat
  thresholdCeiling : p.limT.toNat < p.limC.toNat
  ceilingMax : p.limC.toNat ≤ (f32OfInt 32767).toNat
  ceilingWhole : f32OfInt (toNearestInt binary32 p.limC.toNat) = p.limC
  attack : p.limAttack.toNat ≤ f32One.toNat
  release : p.limRelease.toNat < p.limAttack.toNat
  crossfade : p.xfadeLen ≤ 160
  silence : 1 ≤ p.silRampLen ∧ p.silRampLen < 2 ^ 32

theorem egressLegal_of_legalParams {p : Params} (h : legalParams p = true) : EgressLegal p := by
  obtain ⟨-, -, -, hegress, -⟩ := legalParams_parts h
  simp only [legalEgress, isU32, Bool.and_eq_true, decide_eq_true_eq, and_assoc] at hegress
  obtain ⟨-, hfade, hthreshold, hbelow, hmax, hwhole, hattack, hattackOne, hrelease, hreleaseBelow, -, hcross,
    hsilence, hsilenceU32⟩ := hegress
  obtain ⟨ht0, ht⟩ := toNat_of_f32Positive hthreshold
  obtain ⟨-, hr⟩ := toNat_of_f32Positive hrelease
  obtain ⟨-, ha⟩ := toNat_of_f32Positive hattack
  rw [f32Positive, Bool.and_eq_true] at hthreshold
  obtain ⟨-, hc⟩ := le_inf_of_f32Lt_zero (f32Lt_trans hthreshold.1 hbelow)
  rw [f32Lt_of_le_inf hr.le ha.le, decide_eq_true_eq] at hreleaseBelow
  rw [f32Lt_of_le_inf ht.le hc, decide_eq_true_eq] at hbelow
  exact
    { fadeIn := hfade
      threshold := ht0
      thresholdCeiling := hbelow
      ceilingMax := (f32AtMost_of_le_inf hc (by decide)).mp hmax
      ceilingWhole := hwhole
      attack := (f32AtMost_of_le_inf ha.le (by decide)).mp hattackOne
      release := hreleaseBelow
      crossfade := hcross
      silence := ⟨hsilence, hsilenceU32⟩ }

section
variable {p : Params} (h : EgressLegal p)
include h

theorem EgressLegal.ceiling_lt_inf : p.limC.toNat < binary32.inf := h.ceilingMax.trans_lt (by decide +kernel)

/-- `LIM_C` is the whole number `ceilingOf`, a sample's magnitude (R7). -/
theorem EgressLegal.ceiling_eq :
    magUnits binary32 p.limC.toNat = ceilingOf p * 2 ^ binary32.unit ∧ ceilingOf p ≤ 32767 := by
  have hnearest := toNearestInt_of_le_inf soundFormat_binary32 h.ceiling_lt_inf.le
  have hmax : nearestEven (magUnits binary32 p.limC.toNat) (2 ^ binary32.unit) ≤ 32767 :=
    (nearestEven_mono (magUnits_mono binary32 h.ceilingMax) _).trans (by decide +kernel)
  have hceiling : toNearestInt binary32 p.limC.toNat = (ceilingOf p : Int) := by
    rw [ceilingOf, hnearest, Int.toNat_natCast]
  have hle : ceilingOf p ≤ 32767 := by
    rwa [ceilingOf, hnearest, Int.toNat_natCast]
  obtain ⟨q, -, hvalue, hpattern⟩ :=
    exists_ofIntPattern holdsInt16_binary32 (n := (ceilingOf p : Int)) (by omega)
  have hwhole := congrArg BitVec.toNat h.ceilingWhole
  rw [hceiling, f32OfInt_toNat (by omega), hpattern, decide_eq_false (by omega), withSign_false] at hwhole
  exact ⟨by rw [← hwhole, hvalue, Int.natAbs_natCast], hle⟩
end

/-! ## Ramped silence (R395) -/

/-- The ramp's factor at sample `k`. -/
theorem silenceWeight_le_one {ramp k : Nat} (hk : k < ramp) (hu32 : ramp < 2 ^ 32) :
    (f32Sub f32One (f32Div (f32OfInt (k + 1)) (f32OfInt ramp))).toNat ≤ f32One.toNat := by
  rw [← Nat.cast_succ]
  exact f32Sub_le (by decide) (f32Div_count_le_one hk (by omega) hu32)

/-- No sample of ramped silence is beyond the one it starts from. -/
theorem natAbs_silenceSample_le {ramp : Nat} (hu32 : ramp < 2 ^ 32) (last : Sample) (k : Nat) :
    (silenceSample ramp last k).toInt.natAbs ≤ last.toInt.natAbs := by
  unfold silenceSample
  split
  · rename_i hk
    exact natAbs_scaledSample_le last (silenceWeight_le_one hk hu32)
  · exact Nat.zero_le _

/-! ## Fade-in (R391) -/

theorem exists_of_mem_mapFrom {α β : Type} {f : Nat → α → β} {n : Nat} {l : List α} {y : β}
    (h : y ∈ mapFrom f n l) : ∃ i, ∃ x ∈ l, y = f i x := by
  induction l generalizing n with
  | nil => cases h
  | cons x xs ih =>
    rcases List.mem_cons.mp h with rfl | h
    · exact ⟨n, x, List.mem_cons_self, rfl⟩
    · obtain ⟨i, x', hx', rfl⟩ := ih h
      exact ⟨i, x', List.mem_cons_of_mem x hx', rfl⟩

theorem finiteWithin_fadeSample {x : F32} {bound : Nat} (hx : FiniteWithin x bound) {len : Nat}
    (hu32 : len < 2 ^ 32) (n : Nat) : FiniteWithin (fadeSample len n x) bound := by
  unfold fadeSample
  split
  · rename_i hn
    exact hx.mul_of_le_one (f32Div_count_le_one hn.le (by omega) hu32)
  · exact hx

/-- The limiter's input is finite and within the samples' range. -/
theorem finiteWithin_of_mem_fadedFrame {p : Params} (h : EgressLegal p) {e : EgressDspState} {f : Frame} {x : F32}
    (hx : x ∈ fadedFrame p e f) : FiniteWithin x (2 ^ 15 * 2 ^ binary32.unit) := by
  have hsample : ∀ v ∈ f.map f32OfSample, FiniteWithin v (2 ^ 15 * 2 ^ binary32.unit) := by
    intro v hv
    obtain ⟨s, -, rfl⟩ := List.mem_map.mp hv
    have hlow := s.le_toInt
    have hhigh := s.toInt_lt
    exact (finiteWithin_f32OfSample s).mono (Nat.mul_le_mul_right _ (by omega))
  unfold fadedFrame fadeIn at hx
  split at hx
  · obtain ⟨i, v, hv, rfl⟩ := exists_of_mem_mapFrom hx
    exact finiteWithin_fadeSample (hsample v hv) h.fadeIn i
  · exact hsample x hx

/-! ## The soft knee (R393) -/

theorem f32Abs_toNat (a : F32) : (f32Abs a).toNat = magOf binary32 a.toNat :=
  Nat.mod_eq_of_lt ((Nat.mod_lt _ (Nat.two_pow_pos _)).trans (by decide))

theorem tanh32_le_one (choice : TanhChoice) (u : F32) : (tanh32 choice u).toNat ≤ f32One.toNat := by
  rw [tanh32_toNat]
  exact tanhPattern_le_one choice _

/-- The knee's value is a move from `LIM_T` towards `LIM_C` by TANH32's factor: it passes `LIM_C` by one place at
most, where `LIM_C - LIM_T` was rounded up. -/
theorem kneeValue_le {p : Params} (h : EgressLegal p) (u : F32) :
    (f32Add p.limT (f32Mul (f32Sub p.limC p.limT) (tanh32 p.tanh u))).toNat ≤ p.limC.toNat + 1 := by
  have hceiling := h.ceiling_lt_inf
  have hbelow := h.thresholdCeiling
  have htanh := tanh32_le_one p.tanh u
  have hmove := f32Approach_le htanh (hbelow.trans hceiling) hceiling
  rw [f32Approach, f32Mul_comm (htanh.trans_lt (by decide)) ((f32Sub_le hceiling hbelow.le).trans_lt hceiling)] at hmove
  omega

/-- The knee brings every magnitude, an infinite one among them, to `LIM_C` or one place beyond. -/
theorem magOf_softKnee_le {p : Params} (h : EgressLegal p) {y : F32} (hy : magOf binary32 y.toNat ≤ binary32.inf) :
    magOf binary32 (softKnee p y).toNat ≤ p.limC.toNat + 1 := by
  have hceiling := h.ceiling_lt_inf
  have hbelow := h.thresholdCeiling
  unfold softKnee
  rw [f32Lt_of_le_inf (hbelow.trans hceiling).le ((f32Abs_toNat y).trans_le hy), f32Abs_toNat]
  split
  · have hknee := kneeValue_le h (f32Div (f32Sub (f32Abs y) p.limT) (f32Sub p.limC p.limT))
    have hmag := magOf_of_le_inf soundFormat_binary32 (hknee.trans (Nat.succ_le_of_lt hceiling))
    dsimp only
    split
    · rwa [hmag]
    · rwa [magOf_f32Neg, hmag]
  · rename_i hlow
    rw [decide_eq_true_eq] at hlow
    omega

end Sys2Proof.Laws
end

section
/-! Settles O40: the ceiling of the egress direction (44_egress_dsp.md R398). -/

namespace Sys2Proof.Laws

open Sys2Proof.Machine

/-! ## Real frames (R390) -/

/-- Neighbours of small values are apart by a small place at most. -/
theorem magUnits_succ_le_of_small {q : Nat} (h : magUnits binary32 q ≤ smallLimit) :
    magUnits binary32 (q + 1) ≤ magUnits binary32 q + smallPlace := by
  obtain ⟨a, hlimit, hnext, -⟩ := exists_smallLimit
  have hgap := magUnits_gap_mono (f := binary32) ((magUnits_strictMono binary32).le_iff_le.mp (h.trans_eq hlimit.symm))
  omega

/-- Every sample behind the limiter is within a place of `LIM_C`, whatever the gain (R393). -/
theorem finiteWithin_limitSample {p : Params} (h : EgressLegal p) {gain x : F32} (hgain : f32Finite gain = true)
    (hx : magOf binary32 x.toNat < binary32.inf) :
    FiniteWithin (limitSample p gain x) (ceilingOf p * 2 ^ binary32.unit + smallPlace) := by
  obtain ⟨hceiling, hmax⟩ := h.ceiling_eq
  have hproduct : magOf binary32 (f32Mul x gain).toNat ≤ binary32.inf := by
    rw [magOf_f32Mul hx (of_decide_eq_true hgain)]
    exact roundMag_le_inf ..
  have hknee : magOf binary32 (limitSample p gain x).toNat ≤ p.limC.toNat + 1 := magOf_softKnee_le h hproduct
  have hsmall : magUnits binary32 p.limC.toNat ≤ smallLimit := by
    have hscaled := Nat.mul_le_mul_right (2 ^ binary32.unit) (hmax.trans (show 32767 ≤ 2 ^ 15 by decide))
    have hlimit := smallLimit_ge
    omega
  have hplace := magUnits_succ_le_of_small hsmall
  have hinf : p.limC.toNat + 1 < binary32.inf :=
    (Nat.succ_le_succ h.ceilingMax).trans_lt (by decide +kernel)
  refine ⟨hknee.trans_lt hinf, ((magUnits_mono binary32 hknee).trans hplace).trans_eq ?_⟩
  rw [hceiling]

/-- The weights of the two sides of the crossfade, the second one rounded, add up to 1.0 or a place beyond. -/
theorem fadeWeight_le {w n : Nat} (hw : w ≤ 160) (hn : n < w) :
    (fadeWeight w n).toNat ≤ f32One.toNat
    ∧ (f32Sub f32One (fadeWeight w n)).toNat ≤ f32One.toNat
    ∧ magUnits binary32 (f32Sub f32One (fadeWeight w n)).toNat + magUnits binary32 (fadeWeight w n).toNat
      ≤ 2 ^ binary32.unit + 2 ^ 126 := by
  have hle : (fadeWeight w n).toNat ≤ f32One.toNat := by
    rw [fadeWeight, ← Nat.cast_succ, ← Nat.cast_succ]
    exact f32Div_count_le_one (by omega) (by omega) (by omega)
  have hrest := f32Sub_le (a := f32One) (by decide) hle
  refine ⟨hle, hrest, ?_⟩
  have hround := magUnits_roundMag_le (f := binary32) (a := f32One.toNat) (by decide)
    (Nat.sub_le (magUnits binary32 f32One.toNat) (magUnits binary32 (fadeWeight w n).toNat))
  have hmono := magUnits_mono binary32 hle
  rw [f32Sub_toNat (by decide) hle]
  have hnext : magUnits binary32 (f32One.toNat + 1) = 2 ^ binary32.unit + 2 ^ 126 := by decide +kernel
  rw [hnext] at hround
  omega

/-- Two words within a bound, blended with weights that add up to 1.0, are within the bound but for the roundings. -/
theorem blend_le {unit place small bound weight rest x y : Nat} (hunit : 0 < unit)
    (htail : unit * x ≤ bound * rest + unit * place) (hcurrent : unit * y ≤ (bound + place) * weight + unit * place)
    (hsum : rest + weight ≤ unit + small) (hweight : weight ≤ unit) (hsmall : bound * small ≤ unit * place) :
    x + y ≤ bound + 4 * place := by
  refine Nat.le_of_mul_le_mul_left ?_ hunit
  have h1 := Nat.mul_le_mul_left bound hsum
  have h2 := Nat.mul_le_mul_left place hweight
  nlinarith

theorem finiteWithin_blend {w n bound : Nat} (hw : w ≤ 160) (hn : n < w)
    (hbound : bound ≤ 2 ^ 15 * 2 ^ binary32.unit) {t x : F32} (ht : FiniteWithin t bound) (hx : FiniteWithin x (bound + smallPlace)) :
    FiniteWithin (f32Add (f32Mul t (f32Sub f32One (fadeWeight w n))) (f32Mul x (fadeWeight w n)))
      (bound + 5 * smallPlace) := by
  obtain ⟨hweight, hrest, hsum⟩ := fadeWeight_le hw hn
  have hlimit := smallLimit_ge
  have hfactor : ∀ v : F32, v.toNat ≤ f32One.toNat →
      FiniteWithin v (magUnits binary32 v.toNat) ∧ magUnits binary32 v.toNat ≤ 2 ^ binary32.unit := fun v hv =>
    ⟨finiteWithin_of_lt_inf (hv.trans_lt (by decide)), magUnits_f32One ▸ magUnits_mono binary32 hv⟩
  obtain ⟨hrestWithin, hrestUnits⟩ := hfactor _ hrest
  obtain ⟨hweightWithin, hweightUnits⟩ := hfactor _ hweight
  obtain ⟨y, hy, hyUnits⟩ := ht.mul hrestWithin
    ((Nat.mul_le_mul (show bound ≤ smallLimit by omega) hrestUnits).trans_eq (Nat.mul_comm _ _))
  obtain ⟨z, hz, hzUnits⟩ := hx.mul hweightWithin
    ((Nat.mul_le_mul (show bound + smallPlace ≤ smallLimit by omega) hweightUnits).trans_eq (Nat.mul_comm _ _))
  have hsmall : bound * 2 ^ 126 ≤ 2 ^ binary32.unit * smallPlace := by
    calc bound * 2 ^ 126 ≤ 2 ^ 15 * 2 ^ binary32.unit * 2 ^ 126 := Nat.mul_le_mul_right _ hbound
      _ = 2 ^ binary32.unit * smallPlace := by decide +kernel
  have htotal := blend_le (Nat.two_pow_pos binary32.unit) hyUnits hzUnits hsum hweightUnits hsmall
  exact (hy.add hz (by omega)).mono (by omega)

/-- A blend of a tail within `LIM_C` and a limited sample is within five places of `LIM_C` (R394). -/
theorem finiteWithin_blendSample {p : Params} (h : EgressLegal p) {tail : Frame}
    (htail : ∀ v ∈ tail, WithinCeiling p v) (n : Nat) {x : F32}
    (hx : FiniteWithin x (ceilingOf p * 2 ^ binary32.unit + smallPlace)) :
    FiniteWithin (blendSample p.xfadeLen tail n x) (ceilingOf p * 2 ^ binary32.unit + 5 * smallPlace) := by
  obtain ⟨-, hmax⟩ := h.ceiling_eq
  unfold blendSample
  split
  · rename_i hn
    have hkept : WithinCeiling p (tail.getD n 0#16) := by
      rw [List.getD_eq_getElem?_getD]
      cases hget : tail[n]? with
      | none => exact Nat.zero_le _
      | some v => exact htail v (List.mem_of_getElem? hget)
    exact finiteWithin_blend h.crossfade hn (Nat.mul_le_mul_right _ (by omega))
      ((finiteWithin_f32OfSample _).mono (Nat.mul_le_mul_right _ hkept)) hx
  · exact hx.mono (by omega)

/-- Every sample of a real frame is within `LIM_C` (R393, R394). -/
theorem withinCeiling_egressDsp {p : Params} (h : EgressLegal p) {e : EgressDspState}
    (htail : ∀ v ∈ e.tail, WithinCeiling p v) (f : Frame) : ∀ v ∈ (egressDsp p e f).1, WithinCeiling p v := by
  intro v hv
  obtain ⟨y, hy, rfl⟩ := List.mem_map.mp hv
  have hlimited : ∀ x ∈ (fadedFrame p e f).map (limitSample p (frameGain p e f)),
      FiniteWithin x (ceilingOf p * 2 ^ binary32.unit + smallPlace) := by
    intro y hy
    obtain ⟨x, hx, rfl⟩ := List.mem_map.mp hy
    exact finiteWithin_limitSample h (keepFinite_finite ..) (finiteWithin_of_mem_fadedFrame h hx).finite
  have hblended : FiniteWithin y (ceilingOf p * 2 ^ binary32.unit + 5 * smallPlace) := by
    unfold crossfade at hy
    split at hy
    · obtain ⟨n, x, hx, rfl⟩ := exists_of_mem_mapFrom hy
      exact finiteWithin_blendSample h htail n (hlimited x hx)
    · exact (hlimited y hy).mono (by omega)
  exact (hblended.mono (by omega)).natAbs_toI16_le

/-! ## Frames of the engine's own making (R395, R470) -/

theorem f32Max_zero_of_sign {b : F32} {m : Nat} (hm : m ≤ binary32.inf) (hb : b.toNat = withSign binary32 true m) :
    f32Max f32Zero b = f32Zero := by
  have hnan : isNan binary32 b.toNat = false := by
    rw [isNan, hb, magOf_withSign (hm.trans_lt (by decide))]
    exact decide_eq_false hm.not_gt
  have hlow : ¬f32Lt f32Zero b = true := fun hlt => by
    have hle := (le_inf_of_f32Lt_zero hlt).2
    have hsign : 2 ^ binary32.sign ≤ b.toNat := hb ▸ Nat.le_add_right _ _
    exact absurd (hsign.trans hle) (by decide)
  have hordered : f32Unordered f32Zero b = false := by
    rw [f32Unordered, hnan]
    rfl
  rw [f32Max, hordered, if_neg Bool.false_ne_true, if_neg hlow]

/-- The gain of an interpolated frame is in [0, 1], for a step that overflows too (R470). -/
theorem underrunGain_le_one {p : Params} (h : legalParams p = true) (count : U32) :
    (underrunGain p count).toNat ≤ f32One.toNat := by
  obtain ⟨-, -, -, -, hplayout⟩ := legalParams_parts h
  simp only [legalPlayout, Bool.and_eq_true, and_assoc] at hplayout
  obtain ⟨-, -, -, -, -, -, -, hstep, -⟩ := hplayout
  have hfall : (f32Mul (f32OfInt count.toNat) p.underrunStep).toNat ≤ binary32.inf := by
    rw [f32Mul_toNat (f32OfInt_natCast_lt_inf count.isLt) (toNat_of_f32Positive hstep).2]
    exact roundMag_le_inf ..
  unfold underrunGain
  rcases le_or_gt (f32Mul (f32OfInt count.toNat) p.underrunStep).toNat f32One.toNat with hle | hgt
  · have hsub := f32Sub_le (by decide) hle
    rw [f32Max_toNat (by decide) (hsub.trans (by decide))]
    exact max_le (by decide) hsub
  · obtain ⟨m, hm, hsub⟩ := f32Sub_of_lt hfall hgt
    rw [f32Max_zero_of_sign hm hsub]
    decide

theorem withinCeiling_interpolatedFrame {p : Params} (h : legalParams p = true) {f : Frame}
    (hf : ∀ v ∈ f, WithinCeiling p v) (count : U32) : ∀ v ∈ interpolatedFrame p count f, WithinCeiling p v := by
  intro v hv
  obtain ⟨x, hx, rfl⟩ := List.mem_map.mp hv
  exact (natAbs_scaledSample_le x (underrunGain_le_one h count)).trans (hf x hx)

theorem withinCeiling_rampedSilence {p : Params} (h : EgressLegal p) {e : EgressDspState}
    (hlast : WithinCeiling p e.lastOutputSample) (n : Nat) : ∀ v ∈ rampedSilence p e n, WithinCeiling p v := by
  intro v hv
  obtain ⟨k, -, rfl⟩ := List.mem_map.mp hv
  exact (natAbs_silenceSample_le h.silence.2 _ k).trans hlast

/-! ## What the engine keeps of the frames it sends (R396) -/

/-- The ceiling's invariant reads the constants and the egress chain's state alone. -/
theorem ceilingInv_congr {s t : State} (h : CeilingInv s) (hparams : t.params = s.params) (hedsp : t.edsp = s.edsp) :
    CeilingInv t := by
  obtain ⟨hlast, htail, hfull⟩ := h
  rw [← hparams, ← hedsp] at hlast htail hfull
  exact ⟨hlast, htail, hfull⟩

theorem ceilingInv_emitEncoded {s : State} (h : CeilingInv s) {f : Frame} (hf : ∀ v ∈ f, WithinCeiling s.params v)
    (c : Codec) (real : Bool) : CeilingInv (emitEncoded c f real s) := by
  obtain ⟨g, o, n, es, hwrites⟩ := emitEncoded_writes c f real s
  rw [hwrites]
  refine ⟨?_, fun v hv => ?_, h.lastFull⟩
  · change WithinCeiling s.params (f.getLast?.getD s.edsp.lastOutputSample)
    cases hlast : f.getLast? with
    | none => exact h.lastOutput
    | some v => exact hf v (List.mem_of_getLast? hlast)
  · rcases List.mem_append.mp (List.mem_of_mem_drop hv) with hv | hv
    · exact h.tail v hv
    · exact hf v hv

/-! ## The tick (R465 to R471) -/

section
variable {s : State} (hp : legalParams s.params = true) (h : CeilingInv s) (c : Codec)
include hp h

theorem ceilingInv_silentTick : CeilingInv (silentTick c s) :=
  ceilingInv_emitEncoded h (withinCeiling_rampedSilence (egressLegal_of_legalParams hp) h.lastOutput _) c false

theorem ceilingInv_steadyTick (f : Frame) (rest : List Frame) : CeilingInv (steadyTick c f rest s) := by
  have hframe := withinCeiling_egressDsp (egressLegal_of_legalParams hp) h.tail
    (convert s.params f s.params.targetRate (nativeRate c) s.ers (egressLen c)).1
  unfold steadyTick
  apply ceilingInv_emitEncoded
  · exact ⟨h.lastOutput, h.tail, hframe⟩
  · exact hframe

theorem ceilingInv_underrunTick : CeilingInv (underrunTick c s) := by
  have hcounted : CeilingInv { s with underrunCount := satInc s.underrunCount } := ceilingInv_congr h rfl rfl
  unfold underrunTick
  dsimp only
  split
  · exact ceilingInv_emitEncoded hcounted (withinCeiling_interpolatedFrame hp h.lastFull _) c false
  · obtain ⟨primed, evs, hdrained, -⟩ := noteDrained_writes s.underrunCount
      (silentTick c { s with underrunCount := satInc s.underrunCount })
    rw [hdrained]
    exact ceilingInv_congr
      (ceilingInv_silentTick (s := { s with underrunCount := satInc s.underrunCount }) hp hcounted c) rfl rfl

theorem ceilingInv_playTick : CeilingInv (playTick c s) := by
  unfold playTick
  split
  · exact ceilingInv_steadyTick hp h c _ _
  · exact ceilingInv_underrunTick hp h c

theorem ceilingInv_tickBody : CeilingInv (tickBody c s) := by
  unfold tickBody
  split
  · exact ceilingInv_playTick hp h c
  · split
    · exact ceilingInv_playTick hp (s := { s with primed := true }) (ceilingInv_congr h rfl rfl) c
    · exact ceilingInv_silentTick hp h c

omit c in
theorem ceilingInv_tick : CeilingInv (tick s) := by
  unfold tick
  split
  · exact h
  · split
    · exact h
    · rename_i c _
      exact ceilingInv_congr
        (ceilingInv_tickBody (s := { s with tickBusy := true }) hp (ceilingInv_congr h rfl rfl) c) rfl rfl
end

/-! ## Every step -/

theorem ceilingInv_resetState (s : State) : CeilingInv (resetState s) where
  lastOutput := Nat.zero_le _
  tail v hv := by
    rw [List.eq_of_mem_replicate hv]
    exact Nat.zero_le _
  lastFull _ hv := nomatch hv

/-- Every command keeps the ceiling's invariant: only a tick, `FADE_RESET` and a reset write the egress chain's state
(R201 to R208). -/
theorem exec_ceilingInv {i : Instr} {s t : State} (hp : legalParams s.params = true) (h : CeilingInv s)
    (hexec : exec i s = .next t) : CeilingInv t := by
  cases i with
  | cfgCodec =>
    rcases exec_cfgCodec_cases hexec with rfl | ⟨c, rfl⟩
    · exact ceilingInv_congr h rfl rfl
    · exact ceilingInv_congr h rfl rfl
  | rtpIn pt ts payload =>
    rcases exec_rtpIn_cases hexec with rfl | rfl
    · exact ceilingInv_congr h rfl rfl
    · obtain ⟨_, _, _, _, _, hwrites, -⟩ := jbInsertFrame_writes ⟨pt, payload, ts⟩ s
      rw [hwrites]
      exact ceilingInv_congr h rfl rfl
  | ingPull =>
    obtain ⟨_, _, _, _, _, _, _, _, _, _, _, _, hwrites, -⟩ := pull_writes s
    rw [exec_ingPull hexec, hwrites]
    exact ceilingInv_congr h rfl rfl
  | egrEnq => exact exec_egrEnq hexec ▸ ceilingInv_congr h rfl rfl
  | egrTick => exact exec_egrTick hexec ▸ ceilingInv_tick hp h
  | fadeReset => exact exec_fadeReset hexec ▸ ⟨h.lastOutput, h.tail, h.lastFull⟩
  | egrClear => exact exec_egrClear hexec ▸ ceilingInv_congr h rfl rfl
  | callReset => exact exec_callReset hexec ▸ ceilingInv_resetState s

theorem step_ceilingInv {s t : State} (hp : legalParams s.params = true) (h : CeilingInv s)
    (hstep : step s = .next t) : CeilingInv t := by
  unfold step at hstep
  split at hstep
  · cases hstep
    exact h
  · cases hstep
    exact ceilingInv_congr h rfl rfl
  · rename_i i size _
    exact exec_ceilingInv (s := consume size s) hp (ceilingInv_congr h rfl rfl) hstep

/-- Settles O40: the limiter and the blend bound real frames but for roundings far below half of a whole number, and
all other frames are samples within the ceiling times a factor of at most 1.0. -/
theorem egressNeverExceedsTheCeiling : Obligations.EgressNeverExceedsTheCeiling := by
  unfold Obligations.EgressNeverExceedsTheCeiling
  intro s hp h
  have hlegal := egressLegal_of_legalParams hp
  exact ⟨fun _ hstep => step_ceilingInv hp h hstep, withinCeiling_egressDsp hlegal h.tail,
    withinCeiling_interpolatedFrame hp h.lastFull, withinCeiling_rampedSilence hlegal h.lastOutput⟩

end Sys2Proof.Laws
end

section
/-! Settles O51: the limiter's gain (44_egress_dsp.md R392). -/

namespace Sys2Proof.Laws

open Sys2Proof.Machine

/-- The range (0, 1], by the patterns. -/
def InUnitRange (gain : F32) : Prop := 0 < gain.toNat ∧ gain.toNat ≤ f32One.toNat

theorem inUnitRange_iff (gain : F32) :
    InUnitRange gain ↔ f32Lt f32Zero gain = true ∧ f32Lt f32One gain = false := by
  have hzero : f32Zero.toNat = 0 := rfl
  constructor
  · rintro ⟨hpos, hle⟩
    have hinf : gain.toNat ≤ binary32.inf := hle.trans (by decide)
    rw [f32Lt_of_le_inf (by decide) hinf, f32Lt_of_le_inf (by decide) hinf, hzero]
    exact ⟨decide_eq_true hpos, decide_eq_false hle.not_gt⟩
  · rintro ⟨hpos, hle⟩
    obtain ⟨hpos, hinf⟩ := le_inf_of_f32Lt_zero hpos
    rw [f32Lt_of_le_inf (by decide) hinf, decide_eq_false_iff_not, not_lt] at hle
    exact ⟨hpos, hle⟩

/-! ## The peak of a frame -/

/-- The peak is the largest magnitude: it is within what every sample is within. -/
theorem peakOf_le {l : List F32} {bound : Nat} (hbound : bound ≤ binary32.inf)
    (hl : ∀ v ∈ l, magOf binary32 v.toNat ≤ bound) : (peakOf l).toNat ≤ bound := by
  induction l with
  | nil => exact Nat.zero_le _
  | cons v rest ih =>
    rw [List.forall_mem_cons] at hl
    obtain ⟨hv, hrest⟩ := hl
    rw [← f32Abs_toNat] at hv
    have hpeak := ih hrest
    rw [peakOf, f32Max_toNat (hv.trans hbound) (hpeak.trans hbound)]
    exact max_le hv hpeak

/-- The pattern of 32768.0. -/
def samplePeak : F32 := f32OfInt 32768

theorem magUnits_samplePeak : magUnits binary32 samplePeak.toNat = 2 ^ 15 * 2 ^ binary32.unit := by
  decide +kernel

theorem peakOf_fadedFrame_le {p : Params} (h : EgressLegal p) (e : EgressDspState) (f : Frame) :
    (peakOf (fadedFrame p e f)).toNat ≤ samplePeak.toNat :=
  peakOf_le (by decide +kernel) fun _ hv => (magUnits_strictMono binary32).le_iff_le.mp
    ((finiteWithin_of_mem_fadedFrame h hv).within.trans_eq magUnits_samplePeak.symm)

/-! ## The attack (R392) -/

/-- The pattern of 2^-15, 1.0 divided by 32768.0. -/
def leastTarget : Nat := 0x38000000

/-- The place below 1.0 is below 2^-15. -/
theorem magUnits_one_le : magUnits binary32 f32One.toNat
    ≤ magUnits binary32 (f32One.toNat - 1) + magUnits binary32 leastTarget := by
  decide +kernel

/-- The gain that takes a peak of samples to the ceiling is 2^-15 or more, and below 1.0. -/
theorem attackTarget_range {p : Params} (h : EgressLegal p) {peak : F32} (hover : p.limC.toNat < peak.toNat)
    (hpeak : peak.toNat ≤ samplePeak.toNat) :
    leastTarget ≤ (f32Div p.limC peak).toNat ∧ (f32Div p.limC peak).toNat < f32One.toNat := by
  have hpos : 0 < peak.toNat := Nat.zero_lt_of_lt hover
  have hfinite : peak.toNat < binary32.inf := hpeak.trans_lt (by decide +kernel)
  refine ⟨?_, f32Div_lt_one hpos hfinite hover⟩
  have hunits : magUnits binary32 peak.toNat ≤ 2 ^ 15 * 2 ^ binary32.unit :=
    magUnits_samplePeak ▸ magUnits_mono binary32 hpeak
  have hceiling : 2 ^ binary32.unit ≤ magUnits binary32 p.limC.toNat := by
    obtain ⟨hvalue, -⟩ := h.ceiling_eq
    have hceilingPos : 0 < magUnits binary32 p.limC.toNat := magUnits_pos (Nat.zero_lt_of_lt h.thresholdCeiling)
    rw [hvalue] at hceilingPos ⊢
    exact Nat.le_mul_of_pos_left _ (Nat.pos_of_mul_pos_right hceilingPos)
  rw [f32Div_toNat h.ceiling_lt_inf hpos hfinite]
  refine le_roundMag_div (by decide) (magUnits_pos hpos) (by decide) ?_
  calc magUnits binary32 leastTarget * magUnits binary32 peak.toNat
      ≤ magUnits binary32 leastTarget * (2 ^ 15 * 2 ^ binary32.unit) := Nat.mul_le_mul_left _ hunits
    _ = 2 ^ binary32.unit * 2 ^ binary32.unit := by decide +kernel
    _ ≤ magUnits binary32 p.limC.toNat * 2 ^ binary32.unit := Nat.mul_le_mul_right _ hceiling

/-- A move by a whole rounded difference to a target from 2^-15 on stays above 0.0: the difference is at least a
place of the gain below it. -/
theorem movePattern_lt {step gain target : Nat} (hstep : step ≤ f32One.toNat) (hpos : 0 < gain)
    (hgain : gain ≤ f32One.toNat) (htarget : leastTarget ≤ target) :
    movePattern binary32 step gain target < gain := by
  have hgap := magUnits_gap_mono (f := binary32) (show gain - 1 ≤ f32One.toNat - 1 by omega)
  have hone := magUnits_one_le
  have hvalue := magUnits_mono binary32 htarget
  rw [Nat.sub_add_cancel hpos, Nat.sub_add_cancel (by decide)] at hgap
  have hround : roundMag binary32 (magUnits binary32 gain - magUnits binary32 target) 1 ≤ gain - 1 :=
    roundMag_le_of_le (by decide) ((Nat.sub_le _ _).trans (hgain.trans (by decide))) (by omega)
  have hmove := movePattern_le soundFormat_binary32 hstep gain target
  omega

/-- An attack keeps the gain in (0, 1], with the factor 1.0 too (R392). -/
theorem inUnitRange_attack {step gain target : F32} (hstep : step.toNat ≤ f32One.toNat) (hgain : InUnitRange gain)
    (hlow : leastTarget ≤ target.toNat) (hhigh : target.toNat < f32One.toNat) :
    InUnitRange (f32Approach step gain target) := by
  obtain ⟨hpos, hone⟩ := hgain
  have hgainInf : gain.toNat < binary32.inf := hone.trans_lt (by decide)
  have htargetInf : target.toNat < binary32.inf := hhigh.trans (by decide)
  rcases le_or_gt gain.toNat target.toNat with hup | hdown
  · have hmax := f32Approach_le hstep hgainInf htargetInf
    have hmin : gain.toNat ≤ (f32Approach step gain target).toNat := by
      rw [f32Approach_up hstep hgainInf htargetInf hup]
      exact le_roundMag_of_le (by decide) hgainInf.le (Nat.le_add_right _ _)
    exact ⟨hpos.trans_le hmin, by omega⟩
  · have hmove := magUnits_strictMono binary32 (movePattern_lt hstep hpos hone hlow)
    have hfirst : magUnits binary32 1 = 1 := rfl
    unfold InUnitRange
    rw [f32Approach_down hstep hgainInf hdown]
    exact ⟨le_roundMag_of_le (q := 1) (by decide) (by decide) (by omega),
      (roundMag_le_of_le (by decide) hgainInf.le (Nat.sub_le _ _)).trans hone⟩

/-! ## The update (R392) -/

theorem inUnitRange_limiterStep {p : Params} (h : EgressLegal p) {gain peak : F32} (hgain : InUnitRange gain)
    (hpeak : peak.toNat ≤ samplePeak.toNat) : InUnitRange (limiterStep p gain peak) := by
  have hpeakInf : peak.toNat ≤ binary32.inf := hpeak.trans (by decide +kernel)
  unfold limiterStep
  split
  · rename_i hover
    rw [f32Lt_of_le_inf h.ceiling_lt_inf.le hpeakInf, decide_eq_true_eq] at hover
    obtain ⟨hlow, hhigh⟩ := attackTarget_range h hover hpeak
    exact inUnitRange_attack h.attack hgain hlow hhigh
  · split
    · obtain ⟨hpos, hone⟩ := hgain
      obtain ⟨hmin, hmax⟩ := f32Approach_between (gain := gain) (target := f32One) (hone.trans_lt (by decide))
        (by decide) (h.release.trans_le h.attack)
      rw [min_eq_left hone] at hmin
      rw [max_eq_right hone] at hmax
      exact ⟨hpos.trans_le hmin, hmax⟩
    · exact hgain

/-- Settles O51: the release moves the gain towards 1.0 by a part, and an attack towards a target in (0, 1). -/
theorem limiterGainStaysInTheUnitRange : Obligations.LimiterGainStaysInTheUnitRange := by
  unfold Obligations.LimiterGainStaysInTheUnitRange
  intro p e f hp hpos hone
  have hlegal := egressLegal_of_legalParams hp
  have hstep := inUnitRange_limiterStep hlegal ((inUnitRange_iff _).mpr ⟨hpos, hone⟩)
    (peakOf_fadedFrame_le hlegal e f)
  have hfinite := f32Finite_of_lt_inf (hstep.2.trans_lt (show f32One.toNat < binary32.inf by decide))
  have hgain : (egressDsp p e f).2.limiterGain = limiterStep p e.limiterGain (peakOf (fadedFrame p e f)) :=
    keepFinite_of_finite hfinite
  rw [hgain]
  exact (inUnitRange_iff _).mp hstep

end Sys2Proof.Laws
end

section
/-! Settles O53: ramped silence (44_egress_dsp.md R395). -/

namespace Sys2Proof.Laws

open Sys2Proof.Machine

theorem eq_zero_of_natAbs_toInt {v : Sample} (h : v.toInt.natAbs = 0) : v = 0#16 :=
  BitVec.toInt_inj.mp (Int.natAbs_eq_zero.mp h)

theorem scaledSample_zero (s : Sample) : f32ToI16 (f32Mul (f32OfSample s) f32Zero) = 0#16 := by
  obtain ⟨z, hz, hvalue⟩ := (finiteWithin_f32OfSample s).mul (b := f32Zero) (y := 0)
    ⟨by decide, by decide⟩ (Nat.zero_le _)
  rw [Nat.mul_zero, Nat.zero_add] at hvalue
  have hsmall : z ≤ 8 * smallPlace := by
    have := Nat.le_of_mul_le_mul_left hvalue (Nat.two_pow_pos _)
    omega
  refine eq_zero_of_natAbs_toInt (Nat.le_zero.mp (FiniteWithin.natAbs_toI16_le (hz.mono ?_)))
  rwa [Nat.zero_mul, Nat.zero_add]

/-- The last sample of the ramp has the factor 0.0 (R395). -/
theorem silenceSample_eq_zero {ramp k : Nat} (hpos : 1 ≤ ramp) (hu32 : ramp < 2 ^ 32) (hk : ramp ≤ k + 1)
    (last : Sample) : silenceSample ramp last k = 0#16 := by
  unfold silenceSample
  split
  · rename_i hlt
    obtain rfl : ramp = k + 1 := by omega
    have hlast : f32Sub f32One (f32Div (f32OfInt (k + 1)) (f32OfInt (k + 1 : Nat))) = f32Zero := by
      rw [← Nat.cast_succ, f32Div_eq_one (f32OfInt_natCast_pos hpos) (f32OfInt_natCast_lt_inf hu32) rfl]
      decide +kernel
    rw [hlast]
    exact scaledSample_zero last
  · rfl

theorem rampedSilence_getD (p : Params) (e : EgressDspState) {n k : Nat} (hk : k < n) (d : Sample) :
    (rampedSilence p e n).getD k d = silenceSample p.silRampLen e.lastOutputSample k := by
  simp [rampedSilence, List.getD_eq_getElem?_getD, hk]

/-- Settles O53: every factor of the ramp is at most 1.0, and its last one is 0.0. -/
theorem rampedSilenceFallsToZero : Obligations.RampedSilenceFallsToZero := by
  unfold Obligations.RampedSilenceFallsToZero
  intro p e n k hp hk
  obtain ⟨hpos, hu32⟩ := (egressLegal_of_legalParams hp).silence
  have hle := natAbs_silenceSample_le hu32 e.lastOutputSample k
  rw [rampedSilence_getD p e hk]
  refine ⟨hle, fun hend => silenceSample_eq_zero hpos hu32 hend _, fun hlast => ?_⟩
  rw [hlast] at hle ⊢
  exact eq_zero_of_natAbs_toInt (Nat.le_zero.mp hle)

end Sys2Proof.Laws
end

section
/-! Settles O15 and O16: the lowest key and the synchronisation on it (45_jitter_buffer.md R422, R424, R435). -/

namespace Sys2Proof.Laws

open Sys2Proof.Machine

/-! ## The lowest key (R422) -/

/-- The nearest key is a key of the map, and no key is nearer after the base. -/
theorem nearestKey_spec {base k : U32} {m : List RtpFrame} (h : nearestKey base m = some k) :
    (∃ f ∈ m, f.rtpTimestamp = k) ∧ ∀ j ∈ m, (k - base).toNat ≤ (j.rtpTimestamp - base).toNat := by
  induction m generalizing k with
  | nil => cases h
  | cons f rest ih =>
    simp only [List.exists_mem_cons_iff, List.forall_mem_cons]
    unfold nearestKey at h
    split at h
    · rename_i hrest
      cases h
      obtain rfl := nearestKey_eq_none hrest
      exact ⟨.inl rfl, le_rfl, nofun⟩
    · rename_i k' hrest
      obtain ⟨hmem, hnearest⟩ := ih hrest
      split at h <;> cases h
      · rename_i hle
        exact ⟨.inl rfl, le_rfl, fun j hj => le_trans hle (hnearest j hj)⟩
      · rename_i hlt
        exact ⟨.inr hmem, le_of_not_ge hlt, hnearest⟩

theorem isSerialEarliest_iff (m : List RtpFrame) (k : U32) :
    isSerialEarliest m k = true ↔ ∀ j ∈ m, (j.rtpTimestamp - k).toNat < 2 ^ 31 := by
  simp only [isSerialEarliest, List.all_eq_true, decide_eq_true_eq]

theorem serialEarliest_spec {k : U32} {m : List RtpFrame} (h : serialEarliest m = some k) :
    (∃ f ∈ m, f.rtpTimestamp = k) ∧ ∀ j ∈ m, (j.rtpTimestamp - k).toNat < 2 ^ 31 :=
  ⟨List.mem_map.mp (List.mem_of_find?_eq_some h), (isSerialEarliest_iff m k).mp (List.find?_some h)⟩

theorem serialEarliest_eq_none {m : List RtpFrame} (h : serialEarliest m = none) :
    ¬∃ f ∈ m, ∀ j ∈ m, (j.rtpTimestamp - f.rtpTimestamp).toNat < 2 ^ 31 := by
  rintro ⟨f, hf, hearliest⟩
  exact List.find?_eq_none.mp h _ (List.mem_map_of_mem hf) ((isSerialEarliest_iff ..).mpr hearliest)

/-- Before the first synchronisation, `Lowest()` is the serially earliest key, or there is none and it is the
unsigned smallest. -/
theorem lowest_of_never_synced {expected k : U32} {m : List RtpFrame} (h : lowest false expected m = some k) :
    serialEarliest m = some k ∨ (serialEarliest m = none ∧ nearestKey 0#32 m = some k) :=
  Option.or_eq_some_iff.mp h

theorem lowest_mem {ever : Bool} {expected k : U32} {m : List RtpFrame} (h : lowest ever expected m = some k) :
    ∃ f ∈ m, f.rtpTimestamp = k := by
  cases ever with
  | true => exact (nearestKey_spec h).1
  | false =>
    rcases lowest_of_never_synced h with h | ⟨-, h⟩
    · exact (serialEarliest_spec h).1
    · exact (nearestKey_spec h).1

theorem exists_lowest {m : List RtpFrame} (h : m ≠ []) (ever : Bool) (expected : U32) :
    ∃ k, lowest ever expected m = some k :=
  Option.ne_none_iff_exists'.mp (mt lowest_eq_none h)

/-- Two timestamps of which neither is after the other are the same. -/
theorem eq_of_serial_antisymm {a b : U32} (hab : (a - b).toNat < 2 ^ 31) (hba : (b - a).toNat < 2 ^ 31) :
    a = b := by
  bv_omega

/-- Settles O16, by whether the buffer has synchronised and whether there is an earliest key. -/
theorem lowestKeyIsTheSpecsChoice : Obligations.LowestKeyIsTheSpecsChoice := by
  unfold Obligations.LowestKeyIsTheSpecsChoice
  intro synced expected m hm
  dsimp only
  refine ⟨?_, fun f hf g hg hearlyF hearlyG => eq_of_serial_antisymm (hearlyG f hf) (hearlyF g hg)⟩
  obtain ⟨k, hk⟩ := exists_lowest hm synced expected
  refine ⟨k, hk, lowest_mem hk, ?_⟩
  cases synced with
  | true => exact ⟨fun _ => (nearestKey_spec hk).2, nofun, nofun⟩
  | false =>
    refine ⟨nofun, ?_⟩
    rcases lowest_of_never_synced hk with hk | ⟨hnone, hk⟩
    · obtain ⟨⟨f, hf, rfl⟩, hearliest⟩ := serialEarliest_spec hk
      exact ⟨fun _ _ => hearliest, fun _ hno => absurd ⟨f, hf, hearliest⟩ hno⟩
    · refine ⟨fun _ hexists => absurd hexists (serialEarliest_eq_none hnone), fun _ _ => ?_⟩
      simpa only [BitVec.sub_zero] using (nearestKey_spec hk).2

/-! ## The synchronisation (R424, R435) -/

/-- A purge keeps the keys less than half the timestamp space past the expected one. -/
theorem purged_eq_filter (k : U32) (m : List RtpFrame) :
    purged k m = m.filter fun f => decide ((f.rtpTimestamp - k).toNat < 2 ^ 31) := by
  simp only [purged, serialBefore, ← decide_not, not_le]

theorem noteJump_eq (k : U32) (s : State) :
    noteJump k s = { s with
      events := s.events ++
        if s.everSynced = true ∧ k ≠ s.nextExpected then [.jbResync s.nextExpected k] else [] } := by
  unfold noteJump
  split
  · rfl
  · rw [List.append_nil]

/-- Settles O15: the check's two conditions, and the synchronisation's writes. -/
theorem syncCheckStartsDraining : Obligations.SyncCheckStartsDraining := by
  unfold Obligations.SyncCheckStartsDraining
  intro s
  constructor
  · intro h
    refine if_neg fun ⟨hfilling, hdepth⟩ => h.elim (fun hsync => ?_) hdepth.not_gt
    rw [hfilling] at hsync
    cases hsync
  · intro k hfilling hdepth hlowest
    rw [syncCheck, if_pos ⟨hfilling, hdepth⟩, hlowest, ← purged_eq_filter]
    dsimp only
    rw [synchronise, noteJump_eq]
    rfl

end Sys2Proof.Laws
end

section
/-! Settles O18, O19 and O20: what a pull of a draining buffer does (40_commands.md R203;
45_jitter_buffer.md R426 to R430, R435). -/

namespace Sys2Proof.Laws

open Sys2Proof.Machine

/-! ## The drain and the jump (R426, R429) -/

/-- A drain leaves the other keys that are less than half the timestamp space past the new expected one. -/
theorem drain_eq (k inc : U32) (s : State) :
    drain k inc s = { s with
      jbMap := s.jbMap.filter fun g =>
        decide (g.rtpTimestamp ≠ k ∧ (g.rtpTimestamp - (k + inc)).toNat < 2 ^ 31)
      missingCount := 0#32
      nextExpected := k + inc } := by
  have hmap : purged (k + inc) (jbRemove k s.jbMap) = s.jbMap.filter fun g =>
      decide (g.rtpTimestamp ≠ k ∧ (g.rtpTimestamp - (k + inc)).toNat < 2 ^ 31) := by
    simp only [purged_eq_filter, jbRemove, List.filter_filter, Bool.decide_and, Bool.and_comm]
  rw [← hmap]
  rfl

/-- The jump of a map that is not empty finds a lowest key with its frame (R429). -/
theorem resync_of_ne_nil (nx inc : U32) {s : State} (h : s.jbMap ≠ []) :
    ∃ k f, lowest s.everSynced s.nextExpected s.jbMap = some k ∧ jbLookup k s.jbMap = some f
      ∧ resync nx inc s = (.frame f, drain k inc (emit (.jbResync nx k) s)) := by
  obtain ⟨k, hk⟩ := exists_lowest h s.everSynced s.nextExpected
  obtain ⟨g, hg, hgk⟩ := lowest_mem hk
  obtain ⟨f, hf⟩ := Option.ne_none_iff_exists'.mp fun hnone => (jbLookup_none_iff k _).mp hnone g hg hgk
  refine ⟨k, f, hk, hf, ?_⟩
  simp only [resync, hk, hf]

/-! ## The pull of the jitter buffer (R425) -/

theorem jbPull_of_present {s : State} {f : RtpFrame} (hsync : s.isSynchronized = true)
    (hf : jbLookup s.nextExpected s.jbMap = some f) (inc : U32) :
    jbPull inc s = (.frame f, drain s.nextExpected inc s) := by
  simp only [jbPull, hsync, hf, if_true]

section
variable {s : State} {count : U32} (hsync : s.isSynchronized = true)
  (hmissing : jbLookup s.nextExpected s.jbMap = none)
  (hcount : count.toNat = min (s.missingCount.toNat + 1) (2 ^ 32 - 1))
include hsync hmissing hcount

/-- A pull that misses raises the count, which decides between a concealment and what is beyond it (R425). -/
theorem jbPull_of_missing (inc : U32) :
    jbPull inc s =
      if count.toNat ≤ s.params.jbPlcMax then miss s.nextExpected inc { s with missingCount := count }
      else beyondPlc s.nextExpected inc { s with missingCount := count } := by
  have hsat : satInc s.missingCount = count := BitVec.eq_of_toNat_eq ((satInc_toNat _).trans hcount.symm)
  simp only [jbPull, hsync, hmissing, if_true, pullMissing, hsat]

theorem jbPull_of_concealed (hle : count.toNat ≤ s.params.jbPlcMax) (inc : U32) :
    jbPull inc s = (.conceal, advanceTo (s.nextExpected + inc) { s with missingCount := count }) := by
  rw [jbPull_of_missing hsync hmissing hcount, if_pos hle, miss]

theorem jbPull_of_beyond (hgt : s.params.jbPlcMax < count.toNat) (inc : U32) :
    jbPull inc s = beyondPlc s.nextExpected inc { s with missingCount := count } := by
  rw [jbPull_of_missing hsync hmissing hcount, if_neg hgt.not_ge]

end

/-! ## The rest of the pull (R203) -/

/-- The output of a frame that the pull drained: the decode leaves the constants, the DSP and the resampler as
they were. -/
theorem finishPull_frame (c : Codec) (f : RtpFrame) (s : State) :
    finishPull c (.frame f) s =
      let d := decodeRtp c f s
      let y := ingressDsp s.params s.idsp d.1.1
      let out := convert s.params y.1 d.1.2 s.params.targetRate s.irs (frameLen s.params.targetRate)
      { d.2 with
        lastDecoded := d.1.1
        lastDecodedRate := d.1.2
        idsp := y.2
        irs := out.2
        events := d.2.events ++ [.pcmFrameReady out.1] } := by
  obtain ⟨_, _, _, _, hwrites⟩ := decodeRtp_writes c f s
  have hparams : (decodeRtp c f s).2.params = s.params := by rw [hwrites]
  have hidsp : (decodeRtp c f s).2.idsp = s.idsp := by rw [hwrites]
  have hirs : (decodeRtp c f s).2.irs = s.irs := by rw [hwrites]
  dsimp only [finishPull, outputPcm]
  rw [hparams, hidsp, hirs]
  rfl

theorem exec_ingPull_of_session {s : State} {c : Codec} (h : s.sessionCodec = some c) :
    exec .ingPull s = .next (finishPull c (jbPull (rtpIncrement c) s).1 (jbPull (rtpIncrement c) s).2) :=
  congrArg Host.Outcome.next (pull_of_session h)

/-- Settles O18: the drain of the expected frame and its output. -/
theorem pullDrainsTheExpectedFrame : Obligations.PullDrainsTheExpectedFrame := by
  unfold Obligations.PullDrainsTheExpectedFrame
  intro s c f hsession hsync hf
  rw [exec_ingPull_of_session hsession, jbPull_of_present hsync hf, drain_eq, finishPull_frame]

/-- Settles O19: the miss and the output of the attenuated last frame. -/
theorem pullConcealsAMiss : Obligations.PullConcealsAMiss := by
  unfold Obligations.PullConcealsAMiss
  intro s c count hsession hsync hmissing hcount hle
  rw [exec_ingPull_of_session hsession, jbPull_of_concealed hsync hmissing hcount hle, advanceTo,
    purged_eq_filter]
  rfl

/-- Settles O20, by whether the priming depth is reached. -/
theorem pullBeyondPlcRefillsOrResynchronises : Obligations.PullBeyondPlcRefillsOrResynchronises := by
  unfold Obligations.PullBeyondPlcRefillsOrResynchronises
  intro s c count hsession hsync hmissing hcount hgt
  rw [exec_ingPull_of_session hsession, jbPull_of_beyond hsync hmissing hcount hgt, beyondPlc]
  constructor
  · intro hshort
    rw [if_neg hshort.not_ge]
    rfl
  · intro hdepth hne
    obtain ⟨k, f, hk, hf, hresync⟩ := resync_of_ne_nil s.nextExpected (rtpIncrement c)
      (s := { s with missingCount := count }) hne
    refine ⟨k, f, hk, hf, ?_⟩
    rw [if_pos hdepth, hresync, drain_eq, finishPull_frame]
    rfl

end Sys2Proof.Laws
end

section
/-! Settles O24 and O25: what the pulls of a run answer (45_jitter_buffer.md R431 to R433). -/

namespace Sys2Proof.Laws

open Sys2Proof.Machine

/-! ## The answers of one pull -/

/-- A jump answers a frame of the map, and the expected timestamp moves past it (R429). -/
theorem resync_frame {nx inc : U32} {s : State} {f : RtpFrame} (h : (resync nx inc s).1 = .frame f) :
    f ∈ s.jbMap ∧ (resync nx inc s).2.nextExpected = f.rtpTimestamp + inc := by
  unfold resync at h ⊢
  split at h
  · cases h
  · split at h <;> cases h
    rename_i k _ hf
    obtain ⟨rfl, hmem⟩ := jbLookup_key hf
    exact ⟨hmem, rfl⟩

/-- A drained frame is one of the map, and the expected timestamp moves past it (R426, R429). -/
theorem jbPull_frame {inc : U32} {s : State} {f : RtpFrame} (h : (jbPull inc s).1 = .frame f) :
    f ∈ s.jbMap ∧ (jbPull inc s).2.nextExpected = f.rtpTimestamp + inc := by
  rcases jbPull_cases inc s with ⟨-, hpull⟩ | ⟨g, -, hg, hpull⟩ | ⟨-, -, -, hpull⟩ | ⟨-, -, -, -, hpull⟩ |
    ⟨-, -, -, -, hpull⟩ <;> rw [hpull] at h ⊢
  case inr.inl =>
    cases h
    obtain ⟨hkey, hmem⟩ := jbLookup_key hg
    exact ⟨hmem, congrArg (· + inc) hkey.symm⟩
  case inr.inr.inr.inr => exact resync_frame h
  all_goals cases h

/-- A concealment is counted, within the limit (R425, R427). -/
theorem jbPull_conceal {inc : U32} {s : State} (h : (jbPull inc s).1 = .conceal) :
    (jbPull inc s).2.missingCount = satInc s.missingCount
      ∧ (satInc s.missingCount).toNat ≤ s.params.jbPlcMax := by
  rcases jbPull_cases inc s with ⟨-, hpull⟩ | ⟨g, -, -, hpull⟩ | ⟨-, -, hle, hpull⟩ | ⟨-, -, -, -, hpull⟩ |
    ⟨-, -, -, -, hpull⟩ <;> rw [hpull] at h ⊢
  case inr.inr.inl => exact ⟨rfl, hle⟩
  case inr.inr.inr.inr =>
    rcases resync_cases s.nextExpected inc { s with missingCount := satInc s.missingCount } with
      hresync | ⟨k, f, hresync⟩ <;> rw [hresync] at h <;> cases h
  all_goals cases h

/-! ## One command of a run -/

theorem exec_afterCommand (i : Instr) (s : State) : exec i s = .next (afterCommand i s) := by
  obtain ⟨t, ht⟩ := exec_completes s i
  rw [afterCommand, ht]

theorem afterCommand_params (i : Instr) (s : State) : (afterCommand i s).params = s.params :=
  (exec_appends (exec_afterCommand i s)).params

/-- What follows the jitter buffer's answer leaves its expected timestamp and its count as they are (R203). -/
theorem finishPull_jitterBuffer (c : Codec) (r : PullResult) (s : State) :
    (finishPull c r s).nextExpected = s.nextExpected ∧ (finishPull c r s).missingCount = s.missingCount := by
  cases r with
  | nothing | conceal => exact ⟨rfl, rfl⟩
  | frame f =>
    obtain ⟨_, _, _, _, hwrites⟩ := decodeRtp_writes c f s
    have hnext : (decodeRtp c f s).2.nextExpected = s.nextExpected := by rw [hwrites]
    have hmissing : (decodeRtp c f s).2.missingCount = s.missingCount := by rw [hwrites]
    exact ⟨hnext, hmissing⟩

/-- A command of a run pulls the jitter buffer and leaves it as the pull does, or it answers nothing and, but
for a reset, leaves the missing count as it is (R203, R425). -/
theorem pullOutcome_cases (i : Instr) (s : State) :
    (pullOutcome i s = [] ∧ (i ≠ .callReset → (afterCommand i s).missingCount = s.missingCount))
    ∨ ∃ c, pullOutcome i s = [(jbPull (rtpIncrement c) s).1]
        ∧ (afterCommand i s).nextExpected = (jbPull (rtpIncrement c) s).2.nextExpected
        ∧ (afterCommand i s).missingCount = (jbPull (rtpIncrement c) s).2.missingCount := by
  by_cases hi : i = .ingPull
  · subst hi
    have hafter : afterCommand .ingPull s = pull s := rfl
    rw [pullOutcome, if_pos rfl, hafter]
    cases hsession : s.sessionCodec with
    | none => exact .inl ⟨rfl, fun _ => by rw [pull, hsession]⟩
    | some c =>
      rw [pull_of_session hsession]
      exact .inr ⟨c, rfl, finishPull_jitterBuffer c _ _⟩
  · refine .inl ⟨if_neg hi, fun hreset => ?_⟩
    have hkept := (exec_parts (exec_afterCommand i s) hreset .decoding).resolve_left hi
    simp only [KeepsPart, Prod.mk.injEq] at hkept
    obtain ⟨-, -, -, -, -, -, -, hmissing⟩ := hkept
    exact hmissing

/-! ## Concealment (R432) -/

theorem jbPlcMax_le_two {p : Params} (h : legalParams p = true) : p.jbPlcMax ≤ 2 := by
  obtain ⟨hjb, -⟩ := legalParams_parts h
  simp only [legalJitterBuffer, Bool.and_eq_true, decide_eq_true_eq, and_assoc] at hjb
  omega

/-- A run that starts with `k` concealments raises the missing count by `k`, within the limit. -/
theorem concealments_le {is : List Instr} {s : State} {k : Nat} (hlegal : legalParams s.params = true)
    (hreset : ∀ i ∈ is, i ≠ .callReset) (h : List.replicate k .conceal <+: pullOutcomes is s) :
    k ≤ s.params.jbPlcMax - s.missingCount.toNat := by
  induction is generalizing s k with
  | nil =>
    have hk := h.length_le
    rw [List.length_replicate] at hk
    exact hk.trans (Nat.zero_le _)
  | cons i rest ih =>
    obtain ⟨hi, hrest⟩ := List.forall_mem_cons.mp hreset
    have hparams := afterCommand_params i s
    rw [pullOutcomes] at h
    rcases pullOutcome_cases i s with ⟨hnone, hkept⟩ | ⟨c, hpulled, -, hcount⟩
    · rw [hnone, List.nil_append] at h
      rw [← hparams, ← hkept hi]
      exact ih (hparams ▸ hlegal) hrest h
    · rw [hpulled, List.singleton_append] at h
      cases k with
      | zero => exact Nat.zero_le _
      | succ k =>
        rw [List.replicate_succ, List.cons_prefix_cons] at h
        obtain ⟨hconceal, hlater⟩ := h
        obtain ⟨hcounted, hlimit⟩ := jbPull_conceal hconceal.symm
        have hmax := jbPlcMax_le_two hlegal
        have hrun := ih (hparams ▸ hlegal) hrest hlater
        rw [hparams, hcount, hcounted] at hrun
        rw [satInc_toNat] at hlimit hrun
        omega

/-- Settles O25, by the command at which the concealments start. -/
theorem concealmentIsBounded : Obligations.ConcealmentIsBounded := by
  unfold Obligations.ConcealmentIsBounded
  intro is s k hlegal hreset h
  induction is generalizing s with
  | nil =>
    have hk := h.length_le
    rw [List.length_replicate] at hk
    exact hk.trans (Nat.zero_le _)
  | cons i rest ih =>
    have hparams := afterCommand_params i s
    have hlater (h : List.replicate k .conceal <:+: pullOutcomes rest (afterCommand i s)) :
        k ≤ s.params.jbPlcMax :=
      hparams ▸ ih (afterCommand i s) (hparams ▸ hlegal) (List.forall_mem_cons.mp hreset).2 h
    rcases pullOutcome_cases i s with ⟨hnone, -⟩ | ⟨c, hpulled, -⟩
    · rw [pullOutcomes, hnone, List.nil_append] at h
      exact hlater h
    · have hcons : pullOutcomes (i :: rest) s =
          (jbPull (rtpIncrement c) s).1 :: pullOutcomes rest (afterCommand i s) := by
        rw [pullOutcomes, hpulled, List.singleton_append]
      rcases List.infix_cons_iff.mp (hcons ▸ h) with hstart | hinside
      · exact (concealments_le hlegal hreset (hcons ▸ hstart)).trans (Nat.sub_le ..)
      · exact hlater hinside

/-! ## The order of the drained frames (R431) -/

/-- What a run keeps: the constants are legal, the buffer is well-formed and has synchronised. -/
structure Synced (s : State) : Prop where
  legal : legalParams s.params = true
  jitterBuffer : JbInv s
  ever : s.everSynced = true

theorem synced_afterCommand {i : Instr} {s : State} (h : Synced s) (hi : WellFormed i)
    (hreset : i ≠ .callReset) : Synced (afterCommand i s) := by
  obtain ⟨hlegal, hjb, hever⟩ := h
  have hexec := exec_afterCommand i s
  have hparams := afterCommand_params i s
  generalize afterCommand i s = t at hexec hparams ⊢
  have hlegalT : legalParams t.params = true := hparams ▸ hlegal
  rcases exec_parts hexec hreset .jitterBuffer with (rfl | ⟨pt, ts, payload, rfl⟩) | hkept
  · obtain rfl := exec_ingPull hexec
    refine ⟨hlegalT, jbInv_pull hjb, ?_⟩
    obtain ⟨_, _, _, _, _, _, _, _, _, _, _, _, hwrites, -⟩ := pull_writes s
    rwa [hwrites]
  · rcases exec_rtpIn_cases hexec with rfl | rfl
    · exact ⟨hlegal, jbInv_congr hjb rfl rfl rfl rfl rfl, hever⟩
    · refine ⟨hlegalT, jbInv_jbInsertFrame hjb (jbPrimeDepth_pos hlegal) hi, ?_⟩
      obtain ⟨_, _, _, _, _, hwrites, -, -, hkeeps⟩ := jbInsertFrame_writes ⟨pt, payload, ts⟩ s
      rw [hwrites]
      exact hkeeps hever
  · simp only [KeepsPart, Prod.mk.injEq] at hkept
    obtain ⟨hmap, hnext, hsync, hsynced⟩ := hkept
    exact ⟨hlegalT, jbInv_congr hjb hparams hmap hnext hsync hsynced, hsynced.trans hever⟩

/-- A command drains nothing, or a frame at or after the expected timestamp, which moves past it. -/
theorem drains_of_synced {s : State} (h : Synced s) (i : Instr) :
    (pullOutcome i s).filterMap drainedTimestamp = []
    ∨ ∃ k inc : U32, (pullOutcome i s).filterMap drainedTimestamp = [k] ∧ 0 < inc.toNat
        ∧ (afterCommand i s).nextExpected = k + inc
        ∧ ((afterCommand i s).nextExpected - s.nextExpected).toNat
          = (k - s.nextExpected).toNat + inc.toNat := by
  rcases pullOutcome_cases i s with ⟨hnone, -⟩ | ⟨c, hpulled, hnext, -⟩
  · exact .inl (by rw [hnone, List.filterMap_nil])
  · rw [hpulled, hnext]
    cases hanswer : (jbPull (rtpIncrement c) s).1 with
    | nothing | conceal => exact .inl rfl
    | frame f =>
      obtain ⟨hmem, hmoved⟩ := jbPull_frame hanswer
      obtain ⟨hpos, hsmall⟩ := rtpIncrement_pos c
      have hahead := (serialBefore_eq_false ..).mp (h.jitterBuffer.notBehind h.ever f hmem)
      refine .inr ⟨f.rtpTimestamp, rtpIncrement c, rfl, hpos, hmoved, ?_⟩
      rw [hmoved]
      bv_omega

/-- A timestamp is before every one less than half the timestamp space past it. -/
theorem serialBefore_of_past {k j inc : U32} (hpos : 0 < inc.toNat)
    (h : inc.toNat + (j - (k + inc)).toNat < 2 ^ 31) : serialBefore k j = true := by
  rw [serialBefore, decide_eq_true_eq]
  bv_omega

/-- Distances forward from `a` over `b` to `c` add up, but for whole turns of the timestamp space. -/
theorem sub_toNat_le_add (a b c : U32) : (c - a).toNat ≤ (b - a).toNat + (c - b).toNat := by
  bv_omega

/-- Every frame a run drains lies within the run's span. -/
theorem drained_lt_span {is : List Instr} {s : State} (h : Synced s)
    (his : ∀ i ∈ is, WellFormed i ∧ i ≠ .callReset) :
    ∀ j ∈ (pullOutcomes is s).filterMap drainedTimestamp,
      (j - s.nextExpected).toNat < timestampSpan is s := by
  induction is generalizing s with
  | nil => exact nofun
  | cons i rest ih =>
    obtain ⟨⟨hi, hreset⟩, hrest⟩ := List.forall_mem_cons.mp his
    intro j hj
    rw [pullOutcomes, List.filterMap_append, List.mem_append] at hj
    rw [timestampSpan]
    rcases hj with hj | hj
    · rcases drains_of_synced h i with hnone | ⟨k, inc, hk, hpos, -, hmoved⟩
      · rw [hnone] at hj
        cases hj
      · rw [hk, List.mem_singleton] at hj
        subst hj
        omega
    · have hlater := ih (synced_afterCommand h hi hreset) hrest j hj
      have hsum := sub_toNat_le_add s.nextExpected (afterCommand i s).nextExpected j
      omega

/-- The frame a command drains lies before the new expected timestamp, and those the rest of the run drains lie
at or after it, within the span. -/
theorem drained_pairwise {is : List Instr} {s : State} (h : Synced s)
    (his : ∀ i ∈ is, WellFormed i ∧ i ≠ .callReset) (hspan : timestampSpan is s < 2 ^ 31) :
    ((pullOutcomes is s).filterMap drainedTimestamp).Pairwise fun a b => serialBefore a b = true := by
  induction is generalizing s with
  | nil => exact .nil
  | cons i rest ih =>
    obtain ⟨⟨hi, hreset⟩, hrest⟩ := List.forall_mem_cons.mp his
    have hafter := synced_afterCommand h hi hreset
    rw [timestampSpan] at hspan
    have hlater := ih hafter hrest (by omega)
    rw [pullOutcomes, List.filterMap_append]
    rcases drains_of_synced h i with hnone | ⟨k, inc, hk, hpos, hnext, hmoved⟩
    · rwa [hnone, List.nil_append]
    · rw [hk, List.singleton_append]
      refine List.pairwise_cons.mpr ⟨fun j hj => ?_, hlater⟩
      have hj := drained_lt_span hafter hrest j hj
      rw [hnext] at hj
      exact serialBefore_of_past hpos (by omega)

/-- Settles O24, by induction on the commands. -/
theorem drainedTimestampsIncrease : Obligations.DrainedTimestampsIncrease := by
  unfold Obligations.DrainedTimestampsIncrease
  exact fun _ _ hlegal hjb hever his hspan => drained_pairwise ⟨hlegal, hjb, hever⟩ his hspan

end Sys2Proof.Laws
end

section
/-! SUPPORT. The tick (46_playout.md R465 to R472): the lock and the ingress side take no part in it, and one equation
for each of its cases. -/

namespace Sys2Proof.Laws

open Sys2Proof.Machine

/-! ## The end of a sustained underrun (R465, R471) -/

theorem noteDrained_eq (before : U32) (s : State) :
    noteDrained before s = { s with
      events := s.events ++
        if s.underrunCount ≠ before ∧ s.underrunCount.toNat = s.params.underrunInterp + 1 then [.queueDrained]
        else []
      primed :=
        if s.params.jitterPrimingMode = true ∧ s.params.underrunInterp < s.underrunCount.toNat then false
        else s.primed } := by
  have hnotify :
      (if becomes before s.underrunCount (s.params.underrunInterp + 1) then emit .queueDrained s else s) =
        { s with events := s.events ++
            if s.underrunCount ≠ before ∧ s.underrunCount.toNat = s.params.underrunInterp + 1 then [.queueDrained]
            else [] } := by
    simp only [becomes, Bool.and_eq_true, decide_eq_true_eq]
    split
    · rfl
    · rw [List.append_nil]
  rw [noteDrained, hnotify]
  dsimp only
  split <;> rfl

/-! ## The playout beside other elements (R460, R466) -/

/-- What a tick without its lock reads and writes, of `s`, beside the other elements of `u`, the events of `s` behind
those of `u`. -/
def besidePlayout (u s : State) : State :=
  { s with
    input := u.input, codecMap := u.codecMap, jbMap := u.jbMap, nextExpected := u.nextExpected
    isSynchronized := u.isSynchronized, everSynced := u.everSynced, missingCount := u.missingCount
    lastDecoded := u.lastDecoded, lastDecodedRate := u.lastDecodedRate, g722Dec := u.g722Dec, opusDec := u.opusDec
    opusDecFail := u.opusDecFail, idsp := u.idsp, irs := u.irs, tickBusy := u.tickBusy
    events := u.events ++ s.events }

@[simp] theorem besidePlayout_params (u s : State) : (besidePlayout u s).params = s.params := rfl
@[simp] theorem besidePlayout_queue (u s : State) : (besidePlayout u s).queue = s.queue := rfl
@[simp] theorem besidePlayout_events (u s : State) : (besidePlayout u s).events = u.events ++ s.events := rfl

section
variable (u s : State)

theorem emit_besidePlayout (e : Event) : emit e (besidePlayout u s) = besidePlayout u (emit e s) :=
  congrArg (fun events => { besidePlayout u s with events := events }) (List.append_assoc ..)

theorem callErrorAt_besidePlayout (direction : Direction) (before after : U32) :
    callErrorAt direction before after (besidePlayout u s) =
      besidePlayout u (callErrorAt direction before after s) := by
  simp only [callErrorAt, apply_ite (besidePlayout u), besidePlayout_params, emit_besidePlayout]

theorem opusEncodeAnswer_besidePlayout (r : OpusEncResult) :
    opusEncodeAnswer r (besidePlayout u s) = Prod.map id (besidePlayout u) (opusEncodeAnswer r s) := by
  cases r with
  | fail =>
    have hwarning := emit_besidePlayout u { s with opusEncFail := satInc s.opusEncFail }
      (.warning .opusEncodeFail (satInc s.opusEncFail))
    have herror := callErrorAt_besidePlayout u
      (raiseWarning .opusEncodeFail (satInc s.opusEncFail) { s with opusEncFail := satInc s.opusEncFail })
      .encoder s.opusEncFail (satInc s.opusEncFail)
    exact congrArg (Prod.mk none)
      ((congrArg (callErrorAt .encoder s.opusEncFail (satInc s.opusEncFail)) hwarning).trans herror)
  | ok payload => rfl

theorem encodeFrame_besidePlayout (c : Codec) (f : Frame) :
    encodeFrame c f (besidePlayout u s) = Prod.map id (besidePlayout u) (encodeFrame c f s) := by
  cases c with
  | pcmu | pcma | g722 => rfl
  | opus =>
    exact opusEncodeAnswer_besidePlayout u { s with opusEnc := (opusEncode s.opusEnc f).1 }
      (opusEncode s.opusEnc f).2

theorem sendEncoded_besidePlayout (c : Codec) (r : Option (List Byte) × State) :
    sendEncoded c (Prod.map id (besidePlayout u) r) = besidePlayout u (sendEncoded c r) := by
  obtain ⟨payload, s⟩ := r
  cases payload with
  | none => rfl
  | some payload => exact emit_besidePlayout ..

theorem emitEncoded_besidePlayout (c : Codec) (f : Frame) (real : Bool) :
    emitEncoded c f real (besidePlayout u s) = besidePlayout u (emitEncoded c f real s) := by
  rw [emitEncoded_eq, emitEncoded_eq, ← sendEncoded_besidePlayout, ← encodeFrame_besidePlayout]
  rfl

theorem noteDrained_besidePlayout (before : U32) :
    noteDrained before (besidePlayout u s) = besidePlayout u (noteDrained before s) := by
  rw [noteDrained_eq, noteDrained_eq, besidePlayout_events, List.append_assoc]
  rfl

theorem underrunTick_besidePlayout (c : Codec) :
    underrunTick c (besidePlayout u s) = besidePlayout u (underrunTick c s) := by
  simp only [underrunTick, silentTick, apply_ite (besidePlayout u), ← emitEncoded_besidePlayout,
    ← noteDrained_besidePlayout]
  rfl

theorem playTick_besidePlayout (c : Codec) :
    playTick c (besidePlayout u s) = besidePlayout u (playTick c s) := by
  simp only [playTick, besidePlayout_queue]
  cases s.queue with
  | nil => exact underrunTick_besidePlayout u s c
  | cons f rest =>
    exact emitEncoded_besidePlayout u { s with queue := rest, underrunCount := _, ers := _, edsp := _ } c _ true

theorem tickBody_besidePlayout (c : Codec) :
    tickBody c (besidePlayout u s) = besidePlayout u (tickBody c s) := by
  have hprimed := playTick_besidePlayout u { s with primed := true } c
  simp only [tickBody, silentTick, apply_ite (besidePlayout u), ← hprimed, ← emitEncoded_besidePlayout,
    ← playTick_besidePlayout]
  rfl
end

/-! ## The lock and the codec (R465, R466) -/

theorem tick_of_busy {s : State} (h : s.tickBusy = true) : tick s = s := if_pos h

/-- The lock is taken and given back: the tick is its body. -/
theorem tick_of_free {s : State} {c : Codec} (hfree : s.tickBusy = false) (hsession : s.sessionCodec = some c) :
    tick s = tickBody c s := by
  have hlocked : tickBody c { s with tickBusy := true } = _ :=
    tickBody_besidePlayout { s with tickBusy := true, events := [] } s c
  have hunlocked : tickBody c s = _ := tickBody_besidePlayout { s with events := [] } s c
  rw [tick_of_session hsession, hfree, if_neg Bool.false_ne_true, hlocked]
  refine Eq.trans ?_ hunlocked.symm
  simp only [besidePlayout, hfree]

theorem exec_egrTick_of_free {s : State} {c : Codec} (hfree : s.tickBusy = false)
    (hsession : s.sessionCodec = some c) : exec .egrTick s = .next (tickBody c s) :=
  congrArg Host.Outcome.next (tick_of_free hfree hsession)

/-- A tick neither reads nor writes what stands beside the playout. -/
theorem tick_besidePlayout {u s : State} (h : u.tickBusy = s.tickBusy) :
    tick (besidePlayout u s) = besidePlayout u (tick s) := by
  cases hbusy : s.tickBusy with
  | true => rw [tick_of_busy hbusy, tick_of_busy (s := besidePlayout u s) (h.trans hbusy)]
  | false =>
    cases hsession : s.sessionCodec with
    | none => rw [tick_without_session hsession, tick_without_session (s := besidePlayout u s) hsession]
    | some c =>
      rw [tick_of_free hbusy hsession, tick_of_free (s := besidePlayout u s) (h.trans hbusy) hsession,
        tickBody_besidePlayout]

/-! ## The body of a tick (R464, R465, R467) -/

theorem primeThreshold_eq (p : Params) (c : Codec) :
    primeThreshold p c = if c = .pcmu ∨ c = .pcma then p.egrPrimeNb else p.egrPrimeWb := by
  cases c <;> rfl

theorem tickBody_of_priming {s : State} {c : Codec} (hprimed : s.primed = false)
    (hbelow : s.queue.length < primeThreshold s.params c) : tickBody c s = silentTick c s := by
  rw [tickBody, hprimed, if_neg Bool.false_ne_true, if_neg hbelow.not_ge]

theorem tickBody_of_primed {s : State} {c : Codec}
    (h : s.primed = true ∨ primeThreshold s.params c ≤ s.queue.length) :
    tickBody c s = playTick c { s with primed := true } := by
  cases hprimed : s.primed with
  | true =>
    rw [tickBody, if_pos hprimed, ← hprimed]
  | false =>
    have hreached : primeThreshold s.params c ≤ s.queue.length :=
      h.resolve_left fun htrue => Bool.false_ne_true (hprimed.symm.trans htrue)
    rw [tickBody, hprimed, if_neg Bool.false_ne_true, if_pos hreached]

theorem playTick_of_cons {s : State} {f : Frame} {rest : List Frame} (h : s.queue = f :: rest) (c : Codec) :
    playTick c s = steadyTick c f rest s := by
  rw [playTick, h, fifoPop]

theorem playTick_of_nil {s : State} (h : s.queue = []) (c : Codec) : playTick c s = underrunTick c s := by
  rw [playTick, h, fifoPop]

/-- A primed tick on an empty queue (R470, R471). -/
theorem exec_egrTick_of_empty {s : State} {c : Codec} (hfree : s.tickBusy = false)
    (hsession : s.sessionCodec = some c) (hprimed : s.primed = true) (hempty : s.queue = []) :
    exec .egrTick s = .next (underrunTick c s) := by
  rw [exec_egrTick_of_free hfree hsession, tickBody, if_pos hprimed, playTick_of_nil hempty]

theorem satInc_eq {n count : U32} (h : count.toNat = min (n.toNat + 1) (2 ^ 32 - 1)) : satInc n = count :=
  BitVec.eq_of_toNat_eq ((satInc_toNat n).trans h.symm)

theorem interpolates_iff (p : Params) (e : EgressDspState) (count : U32) (n : Nat) :
    interpolates p e count n = true ↔ count.toNat ≤ p.underrunInterp ∧ e.lastFullFrame.length = n := by
  simp only [interpolates, Bool.and_eq_true, decide_eq_true_eq]

end Sys2Proof.Laws
end

section
/-! Settles O43: a tick and the ingress side (46_playout.md R460). -/

namespace Sys2Proof.Laws

open Sys2Proof.Machine

/-- Of two states that agree on the egress side, the one is the other's playout beside its own rest. -/
theorem besidePlayout_of_sameEgress {s t : State} (h : SameEgress s t) :
    besidePlayout t { s with events := [] } = t := by
  obtain ⟨hparams, hsession, hg722, hopus, hfail, hers, hqueue, hprimed, hcount, -, hedsp⟩ := h
  simp only [besidePlayout, hparams, hsession, hg722, hopus, hfail, hers, hqueue, hprimed, hcount, hedsp,
    List.append_nil]

theorem sameEgress_besidePlayout {u v : State} (h : u.tickBusy = v.tickBusy) (s : State) :
    SameEgress (besidePlayout u s) (besidePlayout v s) := by
  constructor
  case tickBusy => exact h
  all_goals rfl

theorem tick_of_sameEgress {s t : State} (h : SameEgress s t) :
    tick t = besidePlayout t (tick { s with events := [] }) := by
  have htick := tick_besidePlayout (u := t) (s := { s with events := [] }) h.tickBusy.symm
  rwa [besidePlayout_of_sameEgress h] at htick

theorem sameIngress_tick (s : State) : SameIngress s (tick s) := by
  rcases tick_cases s with h | ⟨_, _, _, _, _, _, _, h, -⟩ | ⟨_, _, _, _, _, _, _, _, h, -⟩ <;> rw [h] <;>
    constructor <;> rfl

/-- Settles O43: both ticks are that of the shared playout, beside the rest of their own state. -/
theorem tickIgnoresTheIngressSide : Obligations.TickIgnoresTheIngressSide := by
  unfold Obligations.TickIgnoresTheIngressSide
  intro s t h
  have hs : SameEgress s s := by constructor <;> rfl
  have htickS := tick_of_sameEgress hs
  have htickT := tick_of_sameEgress h
  refine ⟨tick s, tick t, (tick { s with events := [] }).events, rfl, rfl, ?_, sameIngress_tick s, ?_, ?_⟩
  · rw [htickS, htickT]
    exact sameEgress_besidePlayout h.tickBusy _
  · rw [htickS, besidePlayout_events]
  · rw [htickT, besidePlayout_events]

end Sys2Proof.Laws
end

section
/-! Settles O27 to O31: the cases of a tick (46_playout.md R464 to R471). -/

namespace Sys2Proof.Laws

open Sys2Proof.Machine

/-- Settles O27: the guard, or the missing codec, ends the tick. -/
theorem tickIsSkippedWhenBusyOrWithoutCodec : Obligations.TickIsSkippedWhenBusyOrWithoutCodec := by
  unfold Obligations.TickIsSkippedWhenBusyOrWithoutCodec
  rintro s (hbusy | hsession)
  · exact congrArg _ (tick_of_busy hbusy)
  · exact congrArg _ (tick_without_session hsession)

/-- Settles O28. -/
theorem primingTickSendsRampedSilence : Obligations.PrimingTickSendsRampedSilence := by
  unfold Obligations.PrimingTickSendsRampedSilence
  intro s c hfree hsession hprimed hbelow
  rw [← primeThreshold_eq] at hbelow
  rw [exec_egrTick_of_free hfree hsession, tickBody_of_priming hprimed hbelow]
  rfl

/-- Settles O29: both ways in are a primed tick. -/
theorem steadyTickPlaysTheOldestFrame : Obligations.SteadyTickPlaysTheOldestFrame := by
  unfold Obligations.SteadyTickPlaysTheOldestFrame
  intro s c f rest hfree hsession hqueue hplays
  rw [← primeThreshold_eq] at hplays
  rw [exec_egrTick_of_free hfree hsession, tickBody_of_primed hplays,
    playTick_of_cons (s := { s with primed := true }) hqueue]
  rfl

/-- Settles O30. -/
theorem briefUnderrunReplaysTheLastFrame : Obligations.BriefUnderrunReplaysTheLastFrame := by
  unfold Obligations.BriefUnderrunReplaysTheLastFrame
  intro s c count hfree hsession hprimed hempty hcount hinterp hheld
  have hinterpolates : interpolates s.params s.edsp count (egressLen c) = true :=
    (interpolates_iff ..).mpr ⟨hinterp, hheld⟩
  rw [exec_egrTick_of_empty hfree hsession hprimed hempty, underrunTick, satInc_eq hcount]
  dsimp only
  rw [if_pos hinterpolates]
  rfl

/-- Settles O31: the silence keeps the count and `primed`, on which the end of the tick depends. -/
theorem sustainedUnderrunDrains : Obligations.SustainedUnderrunDrains := by
  unfold Obligations.SustainedUnderrunDrains
  intro s c count hfree hsession hprimed hempty hcount hsustained
  have hinterpolates : ¬interpolates s.params s.edsp count (egressLen c) = true := by
    rw [interpolates_iff, not_and_or, not_le]
    exact hsustained
  intro t
  have hdrained : underrunTick c s = noteDrained s.underrunCount t := by
    rw [underrunTick, satInc_eq hcount]
    exact if_neg hinterpolates
  obtain ⟨hparams, hcounted, hkept⟩ : t.params = s.params ∧ t.underrunCount = count ∧ t.primed = s.primed := by
    obtain ⟨g, o, n, es, hsilence⟩ := emitEncoded_writes c
      (rampedSilence s.params s.edsp (frameLen (nativeRate c))) false { s with underrunCount := count }
    rw [show t = _ from hsilence]
    exact ⟨rfl, rfl, rfl⟩
  rw [exec_egrTick_of_empty hfree hsession hprimed hempty, hdrained, noteDrained_eq, hparams, hcounted, hkept,
    hprimed]

end Sys2Proof.Laws
end

section
/-! Settles O26: the enqueue of a payload (46_playout.md R462; 20_memory.md R93, R97). -/

namespace Sys2Proof.Laws

open Sys2Proof.Machine

/-! ## The frames of a payload (R462) -/

/-- Sample `k` is the little-endian pair at byte `2k`; past the end, both bytes and the sample are 0. -/
theorem pcmSamples_getD (bytes : List Byte) (k : Nat) :
    (pcmSamples bytes).getD k 0#16 = bytes.getD (2 * k + 1) 0#8 ++ bytes.getD (2 * k) 0#8 := by
  match bytes, k with
  | [], k => simp [pcmSamples]
  | [b], 0 => rfl
  | [b], k + 1 => simp [pcmSamples]
  | b0 :: b1 :: rest, 0 => rfl
  | b0 :: b1 :: rest, k + 1 => exact pcmSamples_getD rest k

theorem chunkFrames_getD (n : Nat) {count j : Nat} (hj : j < count) (bytes : List Byte) :
    (chunkFrames n count bytes).getD j [] = pcmSamples ((bytes.drop (2 * n * j)).take (2 * n)) := by
  induction count generalizing j bytes with
  | zero => cases hj
  | succ count ih =>
    cases j with
    | zero => rfl
    | succ j =>
      rw [chunkFrames, List.getD_cons_succ, ih (Nat.lt_of_succ_lt_succ hj), List.drop_drop, Nat.mul_succ,
        Nat.add_comm]

/-- The padding is not seen by a read that takes bytes past the end for 0. -/
theorem padPayload_getD (b : Nat) (payload : List Byte) (i : Nat) :
    (padPayload b payload).getD i 0#8 = payload.getD i 0#8 := by
  rw [padPayload]
  rcases Nat.lt_or_ge i payload.length with hin | hout
  · rw [List.getD_append _ _ _ _ hin]
  · rw [List.getD_append_right _ _ _ _ hout, List.getD_eq_default _ _ hout]
    rw [List.getD_eq_getElem?_getD, List.getElem?_replicate]
    split <;> rfl

theorem payloadFrames_length {n : Nat} (hn : 0 < n) (payload : List Byte) :
    (payloadFrames n payload).length = (payload.length + 2 * n - 1) / (2 * n) := by
  have hb : 0 < 2 * n := by omega
  rw [payloadFrames, chunkFrames_length, padPayload_length hb, Nat.mul_div_cancel_left _ hb]

theorem payloadFrames_getD {n j k : Nat} {payload : List Byte} (hj : j < (payloadFrames n payload).length)
    (hk : k < n) :
    ((payloadFrames n payload).getD j []).getD k 0#16 =
      payload.getD (2 * n * j + 2 * k + 1) 0#8 ++ payload.getD (2 * n * j + 2 * k) 0#8 := by
  have hbyte (i : Nat) (hi : i < 2 * n) :
      (((padPayload (2 * n) payload).drop (2 * n * j)).take (2 * n)).getD i 0#8 =
        payload.getD (2 * n * j + i) 0#8 := by
    rw [← padPayload_getD (2 * n) payload]
    simp [List.getD_eq_getElem?_getD, hi]
  rw [payloadFrames, chunkFrames_length] at hj
  rw [payloadFrames, chunkFrames_getD n hj, pcmSamples_getD, hbyte _ (by omega), hbyte _ (by omega), Nat.add_assoc]

/-! ## The queue (R97) -/

/-- Frames pushed one after the other drop as many of the oldest as are beyond the cap. -/
theorem foldl_fifoPush_eq {cap : Nat} (hcap : 1 ≤ cap) (added : List Frame) {q : List Frame} (h : q.length ≤ cap) :
    added.foldl (fifoPush cap) q = (q ++ added).drop (q.length + added.length - cap) := by
  induction added generalizing q with
  | nil => simp [Nat.sub_eq_zero_of_le h]
  | cons f rest ih =>
    rw [List.foldl_cons, ih (fifoPush_length h hcap f)]
    unfold fifoPush
    split
    case isTrue hfull =>
      cases q with
      | nil => exact absurd (hcap.trans_eq hfull.symm) (by decide)
      | cons oldest q =>
        have hdrop : (oldest :: q).length + (f :: rest).length - cap = rest.length + 1 := by
          rw [hfull, List.length_cons, Nat.add_sub_cancel_left]
        rw [hdrop, ← hfull]
        simp
    case isFalse =>
      rw [List.append_assoc, List.singleton_append, List.length_append, List.length_singleton, List.length_cons,
        Nat.add_assoc, Nat.add_comm 1]

/-- Settles O26. -/
theorem egrEnqQueuesWholeFrames : Obligations.EgrEnqQueuesWholeFrames := by
  unfold Obligations.EgrEnqQueuesWholeFrames
  intro payload s hcap hqueue n
  refine ⟨payloadFrames n payload, ?_, payloadFrames_length (frameLen_pos _) payload, payloadFrames_whole payload,
    fun j k hj hk => payloadFrames_getD hj hk⟩
  rw [← foldl_fifoPush_eq hcap _ hqueue]
  rfl

end Sys2Proof.Laws
end

section
/-! Settles O54: the fade of an underrun (46_playout.md R470, R474). -/

namespace Sys2Proof.Laws

open Sys2Proof.Machine

/-! ## The gain (R470) -/

/-- What is subtracted from 1.0 (R470): a step that overflows included. -/
theorem underrunFall_toNat {p : Params} (h : legalParams p = true) (count : U32) :
    (f32Mul (f32OfInt count.toNat) p.underrunStep).toNat = roundMag binary32
      (magUnits binary32 (f32OfInt count.toNat).toNat * magUnits binary32 p.underrunStep.toNat)
      (2 ^ binary32.unit) := by
  obtain ⟨-, -, -, -, hplayout⟩ := legalParams_parts h
  simp only [legalPlayout, Bool.and_eq_true, and_assoc] at hplayout
  obtain ⟨-, -, -, -, -, -, -, hstep, -⟩ := hplayout
  exact f32Mul_toNat (f32OfInt_natCast_lt_inf count.isLt) (toNat_of_f32Positive hstep).2

/-- The gain is what the fall leaves of 1.0, and 0.0 where it leaves nothing. -/
theorem underrunGain_toNat {p : Params} (h : legalParams p = true) (count : U32) :
    (underrunGain p count).toNat = roundMag binary32
      (2 ^ binary32.unit - magUnits binary32 (f32Mul (f32OfInt count.toNat) p.underrunStep).toNat) 1 := by
  have hfall : (f32Mul (f32OfInt count.toNat) p.underrunStep).toNat ≤ binary32.inf :=
    underrunFall_toNat h count ▸ roundMag_le_inf ..
  unfold underrunGain
  generalize f32Mul (f32OfInt count.toNat) p.underrunStep = fall at hfall ⊢
  rw [← magUnits_f32One]
  rcases le_or_gt fall.toNat f32One.toNat with hle | hgt
  · rw [f32Max_toNat (by decide) ((f32Sub_le (by decide) hle).trans (by decide)), f32Sub_toNat (by decide) hle]
    exact max_eq_right (Nat.zero_le _)
  · obtain ⟨m, hm, hsub⟩ := f32Sub_of_lt hfall hgt
    rw [f32Max_zero_of_sign hm hsub, Nat.sub_eq_zero_of_le (magUnits_mono binary32 hgt.le)]
    exact (roundMag_exact (f := binary32) (by decide) (Nat.zero_le _)).symm

theorem underrunGain_antitone {p : Params} (h : legalParams p = true) {i j : U32} (hij : i.toNat ≤ j.toNat) :
    (underrunGain p j).toNat ≤ (underrunGain p i).toNat := by
  have hfall : (f32Mul (f32OfInt i.toNat) p.underrunStep).toNat
      ≤ (f32Mul (f32OfInt j.toNat) p.underrunStep).toNat := by
    rw [underrunFall_toNat h, underrunFall_toNat h]
    refine roundMag_mono (by decide) (Nat.two_pow_pos _) (Nat.two_pow_pos _) ?_
    exact Nat.mul_le_mul_right _ (Nat.mul_le_mul_right _ (magUnits_mono binary32 (f32OfInt_natCast_mono hij)))
  rw [underrunGain_toNat h, underrunGain_toNat h]
  refine roundMag_mono (by decide) Nat.one_pos Nat.one_pos ?_
  exact Nat.mul_le_mul_right _ (Nat.sub_le_sub_left (magUnits_mono binary32 hfall) _)

/-! ## A scaled sample (R12, R470) -/

theorem roundMag_mul_mul_right {f : FloatFormat} (hf : 1 ≤ f.mant) (num : Nat) {den k : Nat} (hden : 0 < den)
    (hk : 0 < k) : roundMag f (num * k) (den * k) = roundMag f num den := by
  have hcross : num * k * den = num * (den * k) := by ring
  have hden' := Nat.mul_pos hden hk
  exact le_antisymm (roundMag_mono hf hden' hden hcross.le) (roundMag_mono hf hden hden' hcross.ge)

theorem toNearestInt_withSign {f : FloatFormat} (hf : SoundFormat f) {m : Nat} (hm : m ≤ f.inf) (negative : Bool) :
    toNearestInt f (withSign f negative m) =
      if negative then -(nearestEven (magUnits f m) (2 ^ f.unit) : Int)
      else nearestEven (magUnits f m) (2 ^ f.unit) := by
  have hsign := hm.trans_lt hf.sign
  simp [toNearestInt, isNan, magOf_withSign hsign, signOf_withSign hsign, hm.not_gt]

/-- The magnitude that a sample of magnitude `n` has after a gain of `gain` units: the product and then the sample are
rounded. -/
def scaledMag (n gain : Nat) : Nat :=
  nearestEven (magUnits binary32 (roundMag binary32 (n * gain) 1)) (2 ^ binary32.unit)

theorem scaledMag_mono (n : Nat) {gain gain' : Nat} (h : gain ≤ gain') : scaledMag n gain ≤ scaledMag n gain' := by
  refine nearestEven_mono (magUnits_mono binary32 (roundMag_mono (by decide) Nat.one_pos Nat.one_pos ?_)) _
  exact Nat.mul_le_mul_right _ (Nat.mul_le_mul_left _ h)

/-- The product of a sample's magnitude and a gain that the format has is rounded to an integer alone. -/
theorem scaledMag_exact {n gain q : Nat} (hq : q ≤ binary32.inf) (h : magUnits binary32 q = n * gain) :
    scaledMag n gain = nearestEven (n * gain) (2 ^ binary32.unit) := by
  rw [scaledMag, ← h, roundMag_exact (by decide) hq]

/-- A product of a sample and a factor without a sign has the sample's sign. -/
theorem f32Mul_f32OfSample_toNat (v : Sample) {gain : F32} (h : gain.toNat < binary32.inf) :
    (f32Mul (f32OfSample v) gain).toNat = withSign binary32 (decide (v.toInt < 0))
      (roundMag binary32 (v.toInt.natAbs * magUnits binary32 gain.toNat) 1) := by
  have hv := sample_natAbs_lt v
  obtain ⟨q, hq, hvalue, hpattern⟩ := exists_ofIntPattern holdsInt16_binary32 hv
  have hround : roundMag binary32 (v.toInt.natAbs * magUnits binary32 gain.toNat) 1 =
      roundMag binary32 (magUnits binary32 q * magUnits binary32 gain.toNat) (2 ^ binary32.unit) := by
    have hunit := Nat.two_pow_pos binary32.unit
    rw [hvalue, Nat.mul_right_comm, ← roundMag_mul_mul_right (by decide) _ Nat.one_pos hunit, Nat.one_mul]
  have hmag : magOf binary32 gain.toNat = gain.toNat := magOf_of_le_inf soundFormat_binary32 h.le
  have hsample : q < 2 ^ binary32.sign := hq.trans (by decide)
  rw [f32Mul, f32OfSample, f32OfInt_toNat hv, hpattern,
    mulPattern_finite (by rwa [magOf_withSign hsample]) (by rwa [hmag]), magOf_withSign hsample, hmag, ← hround,
    signOf_withSign hsample, signOf_of_le_inf soundFormat_binary32 h.le, Bool.bne_false]
  exact f32Of_toNat (withSign_lt ((roundMag_le_inf ..).trans_lt (by decide)) _)

theorem scaledMag_le (v : Sample) {gain : Nat} (h : gain ≤ 2 ^ binary32.unit) :
    scaledMag v.toInt.natAbs gain ≤ v.toInt.natAbs := by
  obtain ⟨q, hq, hvalue, -⟩ := exists_ofIntPattern holdsInt16_binary32 (sample_natAbs_lt v)
  refine (scaledMag_mono _ h).trans_eq ?_
  rw [scaledMag_exact hq.le hvalue, nearestEven_mul (Nat.two_pow_pos _)]

/-- A gain of at most 1.0 leaves the scaled sample in range, so that its magnitude is not saturated. -/
theorem natAbs_scaledSample_eq (v : Sample) {gain : F32} (h : gain.toNat ≤ f32One.toNat) :
    (f32ToI16 (f32Mul (f32OfSample v) gain)).toInt.natAbs =
      scaledMag v.toInt.natAbs (magUnits binary32 gain.toNat) := by
  have hle := scaledMag_le v ((magUnits_mono binary32 h).trans_eq magUnits_f32One)
  have hnearest : toNearestInt binary32 (f32Mul (f32OfSample v) gain).toNat =
      if decide (v.toInt < 0) then -(scaledMag v.toInt.natAbs (magUnits binary32 gain.toNat) : Int)
      else scaledMag v.toInt.natAbs (magUnits binary32 gain.toNat) := by
    rw [f32Mul_f32OfSample_toNat v (h.trans_lt (by decide)),
      toNearestInt_withSign soundFormat_binary32 (roundMag_le_inf ..), scaledMag]
  have hlow := v.le_toInt
  have hhigh := v.toInt_lt
  rw [f32ToI16, hnearest]
  rcases lt_or_ge v.toInt 0 with hneg | hpos
  · rw [decide_eq_true hneg, if_pos rfl, sat16_toInt_of_mem (by omega) (by omega), Int.natAbs_neg, Int.natAbs_natCast]
  · rw [decide_eq_false hpos.not_gt, if_neg Bool.false_ne_true, sat16_toInt_of_mem (by omega) (by omega),
      Int.natAbs_natCast]

/-! ## The fade at the defaults (R474) -/

theorem nearestEven_mul_mul_right (num den : Nat) {k : Nat} (hk : 0 < k) :
    nearestEven (num * k) (den * k) = nearestEven num den := by
  simp only [nearestEven, Nat.mul_mod_mul_right, Nat.mul_div_mul_right _ _ hk, ← Nat.mul_assoc,
    Nat.mul_lt_mul_right hk, Nat.mul_left_inj hk.ne', gt_iff_lt]

/-- A gain of whole quarters is exact on samples. -/
theorem scaledMag_quarters {n quarters : Nat} (hpos : 0 < n * quarters) (hsmall : n * quarters < 2 ^ 17) :
    scaledMag n (quarters * 2 ^ 147) = nearestEven (n * quarters) 4 := by
  have hlog : (n * quarters).log2 < 17 := (Nat.log2_lt hpos.ne').mpr hsmall
  obtain ⟨q, hvalue, hq⟩ := exists_magUnits_eq binary32 hpos.ne' (e := 147) (hlog.le.trans (by decide)) (by decide)
  have hinf : q ≤ binary32.inf := by
    refine hq.le.trans ((Nat.mul_le_mul_right _ ?_).trans (show 255 * 2 ^ binary32.mant ≤ binary32.inf by decide))
    omega
  rw [scaledMag_exact hinf (hvalue.trans (Nat.mul_assoc ..)), ← Nat.mul_assoc,
    ← nearestEven_mul_mul_right _ 4 (Nat.two_pow_pos 147)]
  rfl

theorem underrunGain_default :
    magUnits binary32 (underrunGain {} 1#32).toNat = 3 * 2 ^ 147
    ∧ magUnits binary32 (underrunGain {} 2#32).toNat = 2 * 2 ^ 147
    ∧ magUnits binary32 (underrunGain {} 3#32).toNat = 1 * 2 ^ 147 := by
  decide +kernel

/-- From magnitude 4 on, a quarter of the sample more is seen after the rounding: at 4 it is exactly 1, and beyond it is
more than 1. -/
theorem nearestEven_quarters_lt {n : Nat} (hn : 4 ≤ n) (quarters : Nat) :
    nearestEven (n * quarters) 4 < nearestEven (n * (quarters + 1)) 4 := by
  rw [Nat.mul_succ]
  rcases Nat.eq_or_lt_of_le hn with rfl | hn
  · rw [← Nat.mul_succ, Nat.mul_comm, Nat.mul_comm 4, nearestEven_mul (by decide), nearestEven_mul (by decide)]
    exact Nat.lt_succ_self _
  · generalize n * quarters = m
    unfold nearestEven
    split <;> split <;> omega

/-- Settles O54: the gain falls with the count, and at the defaults from quarter to quarter. -/
theorem underrunFadeFalls : Obligations.UnderrunFadeFalls := by
  unfold Obligations.UnderrunFadeFalls
  intro faded
  have hfaded (p : Params) (h : legalParams p = true) (count : U32) (v : Sample) :
      faded p count v = scaledMag v.toInt.natAbs (magUnits binary32 (underrunGain p count).toNat) :=
    natAbs_scaledSample_eq v (underrunGain_le_one h count)
  refine ⟨fun p i j v h hij => ?_, fun v hv => ?_⟩
  · rw [hfaded p h, hfaded p h]
    exact scaledMag_mono _ (magUnits_mono binary32 (underrunGain_antitone h hij))
  · obtain ⟨hlegal, -⟩ := powerOnMeetsTheInvariant
    obtain ⟨hone, htwo, hthree⟩ := underrunGain_default
    have hlow := v.le_toInt
    have hhigh := v.toInt_lt
    rw [hfaded _ hlegal, hfaded _ hlegal, hfaded _ hlegal, hone, htwo, hthree,
      scaledMag_quarters (by omega) (by omega), scaledMag_quarters (by omega) (by omega),
      scaledMag_quarters (by omega) (by omega)]
    exact ⟨nearestEven_quarters_lt hv 2, nearestEven_quarters_lt hv 1⟩

end Sys2Proof.Laws
end

section
/-! Settles O10 and O36: every step completes, and reset is the power-on state (60_exceptions.md R600, R614;
70_reset_and_hazards.md R700, R702). -/

namespace Sys2Proof.Laws

open Sys2Proof.Machine

/-- Settles O10: the block waits for the rest of a command, skips a malformed one, and every command completes. -/
theorem everyStepCompletes : Obligations.EveryStepCompletes := by
  unfold Obligations.EveryStepCompletes
  intro s
  cases hdecode : decode s.input with
  | incomplete => exact ⟨_, step_of_incomplete hdecode⟩
  | malformed why hdr size => exact ⟨_, step_of_malformed hdecode⟩
  | command i size =>
    obtain ⟨t, ht⟩ := exec_completes (consume size s) i
    exact ⟨t, (step_of_command hdecode).trans ht⟩

/-- With the default constants and an empty stream, a reset leaves only the events of the state before it. -/
theorem resetState_of_default {s : State} (hparams : s.params = {}) (hinput : s.input = []) :
    resetState s = { State.reset with events := s.events } := by
  rw [resetState, hparams, hinput]
  rfl

/-- Settles O36: `CALL_RESET` builds the power-on state of the constants it keeps, here the default ones. -/
theorem resetIsPowerOn : Obligations.ResetIsPowerOn := by
  unfold Obligations.ResetIsPowerOn
  exact ⟨rfl, rfl, rfl, fun _ hparams hinput => congrArg Host.Outcome.next (resetState_of_default hparams hinput)⟩

end Sys2Proof.Laws
end
